-- ==== Sys2Proof/Word.lean ====
section
/-! DEFINITION. The widths the spec gives, as plain types, and nothing that computes a rule. -/

namespace Sys2Proof

/-- A command word `c[2:0]` (30_encoding.md R70). -/
abbrev CommandWord := BitVec 3

/-- A word of the register read space, and its address `rd_addr[2:0]` (20_memory.md R50). -/
abbrev RegWord := BitVec 32

/-- An address of the register read space; all eight values are defined (20_memory.md R52). -/
abbrev RegAddr := BitVec 3

/-- A counter of W_BITS = ROWCNT_BITS = 16 bits: COL, each element of RB, and ROW_COUNT
(00_scope.md R5). -/
abbrev Count := BitVec 16

/-- A decimal digit, 0 to 9 (30_encoding.md R82). -/
abbrev Digit := Fin 10

/-- The 6-bit parity word `{p1, …, p6}`, p1 in bit 5 (30_encoding.md R81). -/
abbrev ParityWord := BitVec 6

/-- `DIGITS[0..12]`: index 0 is the leading digit (10_state.md R27). -/
abbrev DigitWord := Vector Digit 13

/-- The run buffer `RB[0..58]` (10_state.md R35). -/
abbrev RunBuffer := Vector Count 59

/-- A pixel colour; a bar is a run of black pixels, a space a run of white ones (00_scope.md R8). -/
inductive Colour where
  | white
  | black
  deriving DecidableEq, Repr

/-- `¬c`, "the other colour" (00_scope.md R8). -/
def Colour.other : Colour → Colour
  | .white => .black
  | .black => .white

end Sys2Proof
end

