-- ==== Sys2Proof/Config.lean ====
section
/-! DEFINITION. The parameters of 00_scope.md R5 as data: their types, and the one constant the spec
leaves OPEN and uses in no rule. The values this hardware takes are in Machine/Parameters.lean. -/

namespace Sys2Proof

/-- The two readings of the quantizer's step-3 tie rule (42_quantizer.md R135, 93 I5). -/
inductive TieBreak where
  | neighbour
  | first
  deriving DecidableEq, Repr

/-- The parity letter of a left digit: `L = 0`, `G = 1` (30_encoding.md R81). The right-half letter
'R' is encoded nowhere (R83). -/
inductive ParityLetter where
  | L
  | G
  deriving DecidableEq, Repr

/-- A row of TABLE_LG: pattern code to (digit, letter) (43_lookup.md R150). -/
structure LeftEntry where
  code : Nat
  digit : Digit
  letter : ParityLetter
  deriving DecidableEq, Repr

/-- A row of TABLE_R: pattern code to digit (43_lookup.md R151). -/
structure RightEntry where
  code : Nat
  digit : Digit
  deriving DecidableEq, Repr

/-- A row of TABLE_PAR: parity word to leading digit (43_lookup.md R152). -/
structure ParityEntry where
  word : ParityWord
  digit : Digit
  deriving DecidableEq, Repr

/-- The parameters of 00_scope.md R5, each a configuration argument: the state holds one `Params`, and
every rule that depends on a parameter reads it there. W_BITS, and with it WMAX, is a fixed value of
this hardware (93 I15) and sets the widths of the state's own types. -/
structure Params where
  /-- GUARD_POSITIONS, the divisor of the module width. -/
  guardPositions : Nat
  /-- SIZE[0..4], the runs of each stage's group. -/
  sizes : Vector Nat 5
  /-- CLAMP_MAX, the upper clamp of a quantized component. -/
  clampMax : Nat
  /-- ROWCNT_BITS, the width at which ROW_COUNT saturates. -/
  rowCntBits : Nat
  /-- BLACK, the pixel bit of a black pixel. -/
  black : Bool
  /-- WHITE, the pixel bit of a white pixel. -/
  white : Bool
  /-- TIE_BREAK (42_quantizer.md R135). -/
  tieBreak : TieBreak
  /-- LOWER_CLAMP (42_quantizer.md R136). -/
  lowerClamp : Bool
  /-- TABLE_LG (43_lookup.md R150). -/
  tableLG : List LeftEntry
  /-- TABLE_R (43_lookup.md R151). -/
  tableR : List RightEntry
  /-- TABLE_PAR (43_lookup.md R152). -/
  tablePar : List ParityEntry
  /-- EVAL_LATENCY, OPEN: "any finite number ≥ 0" (assumption log 2). -/
  evalLatency : Nat
  deriving DecidableEq, Repr

/-- PLATFORM_BASE: where the registers sit in a platform's address space, OPEN and "not used by any
rule" (20_memory.md R55, 93 I13). A free value: it has no body. -/
opaque Config.platformBase : Nat

end Sys2Proof
end

