-- ==== Sys2Proof/Syntax.lean ====
section
/-! DEFINITION. The commands, one constructor for each row of spec/opcode_table.json. -/

namespace Sys2Proof

/-- The eight command words (30_encoding.md R72). The only operand, a pixel's bit, is part of the
word, so no constructor has an argument (R71). -/
inductive Instr where
  /-- 000: push one WHITE pixel (46_commands.md R202). -/
  | pix0
  /-- 001: push one BLACK pixel (46_commands.md R203). -/
  | pix1
  /-- 010: end of scanline, evaluate the row (46_commands.md R204). -/
  | eol
  /-- 011: reserved (46_commands.md R207). -/
  | rsv3
  /-- 100: start of frame (46_commands.md R205). -/
  | sof
  /-- 101: reserved (46_commands.md R208). -/
  | rsv5
  /-- 110: end of frame (46_commands.md R206). -/
  | eof
  /-- 111: reserved (46_commands.md R209). -/
  | rsv7
  deriving DecidableEq, Repr

end Sys2Proof
end

