-- ==== Sys2Proof/WellFormed.lean ====
section
/-! DEFINITION. What a well-formed command and a well-formed configuration are. -/

namespace Sys2Proof

/-- Every command is well formed: none has an operand (30_encoding.md R71), every 3-bit word has a
rule (R73), and every command is accepted in every state (60_exceptions.md R236). -/
def Instr.wf : Instr → Bool
  | .pix0 => true
  | .pix1 => true
  | .eol => true
  | .rsv3 => true
  | .sof => true
  | .rsv5 => true
  | .eof => true
  | .rsv7 => true

/-- The four components a numeric pattern code spells, in run order (30_encoding.md R80). -/
def codeComponents (code : Nat) : List Nat :=
  [code / 1000, code / 100 % 10, code / 10 % 10, code % 10]

/-- 43_lookup.md R153, property 1: every key component is in 1..4. -/
def keyComponentsOk (code : Nat) : Bool :=
  (codeComponents code).all fun c => decide (1 ≤ c) && decide (c ≤ 4)

/-- 43_lookup.md R153, property 2: the components of a key sum to 7. -/
def keySumOk (code : Nat) : Bool :=
  (codeComponents code).sum == 7

/-- The pattern codes that are keys of TABLE_LG or TABLE_R. -/
def Params.patternKeys (P : Params) : List Nat :=
  P.tableLG.map (·.code) ++ P.tableR.map (·.code)

/-- 43_lookup.md R153, property 3: no key of TABLE_LG appears twice, so L and G keys are disjoint. -/
def Params.leftKeysDistinct (P : Params) : Bool :=
  decide (P.tableLG.map (·.code)).Nodup

/-- 43_lookup.md R153, property 4, for TABLE_R. -/
def Params.rightKeysDistinct (P : Params) : Bool :=
  decide (P.tableR.map (·.code)).Nodup

/-- 43_lookup.md R153, property 4, for TABLE_PAR. -/
def Params.parityKeysDistinct (P : Params) : Bool :=
  decide (P.tablePar.map (·.word)).Nodup

/-- The four properties of 43_lookup.md R153 that a configured table must keep. -/
def Params.tablesOk (P : Params) : Bool :=
  P.patternKeys.all keyComponentsOk && P.patternKeys.all keySumOk &&
    P.leftKeysDistinct && P.rightKeysDistinct && P.parityKeysDistinct

/-- The parameters for which 00_scope.md R5 lists one value, and no other rule admits a second, have
that value. TIE_BREAK, LOWER_CLAMP, the tables and EVAL_LATENCY are free (93 I2, I3, I5, I7). -/
def Params.listed (P : Params) : Bool :=
  decide (P.guardPositions = 11 ∧ P.sizes = #v[3, 24, 5, 24, 3] ∧ P.clampMax = 4 ∧
    P.rowCntBits = 16 ∧ P.black = true ∧ P.white = false)

/-- A configuration the model runs: the listed values, and tables that keep R153 (assumption logs 9
and 15). -/
def Params.wf (P : Params) : Bool := P.listed && P.tablesOk

end Sys2Proof
end

