-- ==== Sys2Proof/Decode.lean ====
section
/-! DEFINITION. The decoder, total on 3-bit words (30_encoding.md R70 to R74), and the encoder. -/

namespace Sys2Proof

/-- The OP field `c[2:1]` of a command word (30_encoding.md R70). -/
def opField (c : CommandWord) : BitVec 2 := c.extractLsb' 1 2

/-- The D field `c[0]` of a command word (30_encoding.md R70). -/
def dField (c : CommandWord) : Bool := c.getLsbD 0

/-- The command a word stands for: OP 00 = PIX with pixel bit D, 01 = EOL, 10 = SOF, 11 = EOF, and
the three words with OP ≠ 00 and D = 1 are reserved (30_encoding.md R70, R72, R73). It reads no
state (R74). -/
def decode (c : CommandWord) : Instr :=
  match opField c, dField c with
  | 0b00#2, false => .pix0
  | 0b00#2, true => .pix1
  | 0b01#2, false => .eol
  | 0b01#2, true => .rsv3
  | 0b10#2, false => .sof
  | 0b10#2, true => .rsv5
  | 0b11#2, false => .eof
  | 0b11#2, true => .rsv7

/-- The word of a command, from the opcode map of 30_encoding.md R72. -/
def encode : Instr → CommandWord
  | .pix0 => 0b000#3
  | .pix1 => 0b001#3
  | .eol => 0b010#3
  | .rsv3 => 0b011#3
  | .sof => 0b100#3
  | .rsv5 => 0b101#3
  | .eof => 0b110#3
  | .rsv7 => 0b111#3

/-- Why a number is not decoded. -/
inductive DecodeReject where
  /-- The number is not a 3-bit word: it cannot be presented on `in_cmd` (30_encoding.md R79). -/
  | notACommandWord
  deriving DecidableEq, Repr

/-- Decode a number: total, and rejecting by name whatever has a bit above bit 2
(30_encoding.md R70: "There is one length (3 bits)"). -/
def decodeNat (w : Nat) : Except DecodeReject Instr :=
  if w < 8 then .ok (decode (BitVec.ofNat 3 w)) else .error .notACommandWord

/-- What the decoder reads from the bits of an opcode-table row. The row's word is the low three bits
of the number; every command has the one length of 3 bits, so the row's bit count decides nothing. -/
def decodeTableWord (_nbits w : Nat) : Option Instr :=
  match decodeNat w with
  | .ok i => some i
  | .error _ => none

end Sys2Proof
end

