-- ==== Sys2Proof/Machine/Tables.lean ====
section
/-! DEFINITION. The default symbol tables of 43_lookup.md R150 to R152, and the values of the parameters
of 00_scope.md R5 that this hardware takes. -/

namespace Sys2Proof.Machine

open Sys2Proof

/-- The L entries of TABLE_LG: (0..9, L) (43_lookup.md R150; PRESUMED in the spec's own words "from
general knowledge", assumption log 6). -/
def tableL : List LeftEntry :=
  [⟨3211, 0, .L⟩, ⟨2221, 1, .L⟩, ⟨2122, 2, .L⟩, ⟨1411, 3, .L⟩, ⟨1132, 4, .L⟩,
   ⟨1231, 5, .L⟩, ⟨1114, 6, .L⟩, ⟨1312, 7, .L⟩, ⟨1213, 8, .L⟩, ⟨3112, 9, .L⟩]

/-- The G entries of TABLE_LG (43_lookup.md R150). -/
def tableG : List LeftEntry :=
  [⟨1123, 0, .G⟩, ⟨1222, 1, .G⟩, ⟨2212, 2, .G⟩, ⟨1141, 3, .G⟩, ⟨2311, 4, .G⟩,
   ⟨1321, 5, .G⟩, ⟨4111, 6, .G⟩, ⟨2131, 7, .G⟩, ⟨3121, 8, .G⟩, ⟨2113, 9, .G⟩]

/-- TABLE_R (43_lookup.md R151). -/
def tableR : List RightEntry :=
  [⟨3211, 0⟩, ⟨2221, 1⟩, ⟨2122, 2⟩, ⟨1411, 3⟩, ⟨1132, 4⟩,
   ⟨1231, 5⟩, ⟨1114, 6⟩, ⟨1312, 7⟩, ⟨1213, 8⟩, ⟨3112, 9⟩]

/-- TABLE_PAR: the words LLLLLL, LLGLGG, …, LGGLGL (43_lookup.md R152). -/
def tablePar : List ParityEntry :=
  [⟨0b000000#6, 0⟩, ⟨0b001011#6, 1⟩, ⟨0b001101#6, 2⟩, ⟨0b001110#6, 3⟩, ⟨0b010011#6, 4⟩,
   ⟨0b011001#6, 5⟩, ⟨0b011100#6, 6⟩, ⟨0b010101#6, 7⟩, ⟨0b010110#6, 8⟩, ⟨0b011010#6, 9⟩]

/-- The parameters this hardware takes: the values 00_scope.md R5 lists, TIE_BREAK = NEIGHBOUR among
them, and for EVAL_LATENCY, which R5 leaves OPEN, the design choice of assumption log 2. -/
def hardware : Params where
  guardPositions := 11
  sizes := #v[3, 24, 5, 24, 3]
  clampMax := 4
  rowCntBits := 16
  black := true
  white := false
  tieBreak := .neighbour
  lowerClamp := false
  tableLG := tableL ++ tableG
  tableR := tableR
  tablePar := tablePar
  evalLatency := 0

end Sys2Proof.Machine
end

