-- ==== Sys2Proof/Machine/State.lean ====
section
/-! DEFINITION. The state of the block as plain data (10_state.md R20), the reasons a step can stop,
and the state after reset (10_state.md R49). -/

namespace Sys2Proof.Machine

open Sys2Proof

/-- STAGE: the run group being filled, in order 0 to 5 (10_state.md R29). The codes 6 and 7 are
unreachable and have no constructor. -/
inductive Stage where
  /-- 0: left guard. -/
  | lg
  /-- 1: left code. -/
  | lc
  /-- 2: middle guard. -/
  | mg
  /-- 3: right code. -/
  | rc
  /-- 4: right guard. -/
  | rg
  /-- 5: all five groups filled (the source's `Segmented`). -/
  | full
  deriving DecidableEq, Repr

/-- ROW_STATUS: the outcome class of the most recently evaluated row (10_state.md R25). The codes 7 to
15 are never written and have no constructor (93 I10). -/
inductive RowStatus where
  | none
  | ok
  | structFail
  | patternFail
  | parityFail
  | checksumFail
  | rowTooLong
  deriving DecidableEq, Repr

/-- The five row failures: the argument of `raise RowFail(code)` (00_scope.md R9;
60_exceptions.md R221 to R225). -/
inductive RowFail where
  | structFail
  | patternFail
  | parityFail
  | checksumFail
  | rowTooLong
  deriving DecidableEq, Repr

/-- What one row attempt comes to: a validated number with its parity word, or one failure
(45_row_driver.md R180; 60_exceptions.md R229). -/
inductive RowOutcome where
  | ok (digits : DigitWord) (parity : ParityWord)
  | fail (code : RowFail)
  deriving DecidableEq, Repr

/-- Frame state: it persists across the rows of one frame (10_state.md R20 to R28). -/
@[ext]
structure FrameState where
  /-- DECODED (R21). -/
  decoded : Bool
  /-- FRAME_DONE (R22). -/
  frameDone : Bool
  /-- CMD_ERR (R23). -/
  cmdErr : Bool
  /-- ROW_STATUS (R25). -/
  rowStatus : RowStatus
  /-- ROW_COUNT (R26). -/
  rowCount : Count
  /-- DIGITS[0..12] (R27). -/
  digits : DigitWord
  /-- PARITY (R28). -/
  parity : ParityWord
  deriving DecidableEq, Repr

/-- Row state: the working state of one row attempt (10_state.md R20, R29 to R35). -/
@[ext]
structure RowState where
  /-- STAGE (R29). -/
  stage : Stage
  /-- SEARCH (R30). -/
  search : Bool
  /-- K (R31). -/
  k : BitVec 5
  /-- CUR (R32). -/
  cur : Colour
  /-- COL (R33). -/
  col : Count
  /-- OVF (R34). -/
  ovf : Bool
  /-- RB[0..58] (R35). -/
  rb : RunBuffer
  deriving DecidableEq, Repr

/-- An accepted command whose commit has not yet happened, and the edges still to count down before
it (10_state.md R24; 46_commands.md R200). -/
@[ext]
structure Pending where
  cmd : Instr
  due : Nat
  deriving DecidableEq, Repr

/-- What the host drives on the input ports at one rising edge (30_encoding.md R79). -/
@[ext]
structure PortIn where
  /-- `rst`. -/
  rst : Bool
  /-- `in_valid`. -/
  inValid : Bool
  /-- `in_cmd[2:0]`. -/
  inCmd : CommandWord
  /-- `rd_addr[2:0]`. -/
  rdAddr : RegAddr
  deriving DecidableEq, Repr

/-- The state. `frame`, `row` and `pending` are the tuple of 10_state.md R20; the other three fields
are the model's own (assumption logs 1 to 3 and 5). -/
@[ext]
structure State where
  frame : FrameState
  row : RowState
  pending : Option Pending
  /-- Whether the first reset edge after power-up has happened. Until then no element above holds a
  value (70_reset_and_hazards.md R254, 93 I4; assumption log 3). -/
  resetSeen : Bool
  /-- The parameters the block was built with (00_scope.md R5: "A model takes each parameter as a
  configuration argument"). No step changes them, and a statement about every state is one about
  every configuration (assumption logs 2 and 5). -/
  config : Params
  /-- What the host presents at the coming edges, next edge first. An edge beyond the list is an idle
  one (46_commands.md R210; assumption log 1). -/
  host : List PortIn
  deriving DecidableEq, Repr

/-- Why the model stops (93_implementation_defined.md I4: "fault"). No command faults once the first
reset edge has happened (60_exceptions.md R220). -/
inductive Fault where
  /-- A command was presented and not reset before the first reset edge after power-up: raised by an
  edge and by every command's meaning (70_reset_and_hazards.md R254). Safe: the block would go on
  with an unknown state, and the model proves nothing of it. -/
  | commandBeforeReset
  /-- A register was read before the first reset edge, whatever `rst` is: raised by the read port, and,
  in a cycle with `rst = 0`, by the outputs as a whole (R254). Safe, for the same reason. -/
  | readBeforeReset
  deriving DecidableEq, Repr

/-- Why the model has no move. -/
inductive Refusal where
  /-- The instruction has no meaning in the model. Raised by no arm: every row of the opcode table has
  its meaning. Safe. -/
  | notModelled (mnemonic : String)
  /-- The configured symbol tables break a property of 43_lookup.md R153: raised by `boot`
  (93 I2: "refused"). Safe: no run of such a configuration exists in the model. -/
  | illFormedTables
  /-- A parameter for which 00_scope.md R5 lists one value, and no rule admits a second, has another:
  raised by `boot` (assumption log 15). Safe, for the same reason. -/
  | unlistedParameters
  deriving DecidableEq, Repr

/-- The frame state after reset (10_state.md R49). -/
def FrameState.reset : FrameState where
  decoded := false
  frameDone := false
  cmdErr := false
  rowStatus := .none
  rowCount := 0#16
  digits := Vector.replicate 13 0
  parity := 0#6

/-- The row state after reset (10_state.md R49). -/
def RowState.reset : RowState where
  stage := .lg
  search := true
  k := 0#5
  cur := .black
  col := 0#16
  ovf := false
  rb := Vector.replicate 59 0#16

/-- The machine right after reset (10_state.md R49), built with the values this hardware takes. Its
latency is the design choice of log 2, and the host presents nothing yet (log 1). -/
def State.reset : State where
  frame := FrameState.reset
  row := RowState.reset
  pending := none
  resetSeen := true
  config := hardware
  host := []

/-- The machine right after reset, built with other parameters. -/
def State.resetWith (P : Params) : State := { State.reset with config := P }

end Sys2Proof.Machine
end

