-- ==== Sys2Proof/Machine/Parameters.lean ====
section
/-! DEFINITION. The fixed widths, and what the stages are: their codes, order, sizes, places in RB and
start colours. -/

namespace Sys2Proof.Machine

open Sys2Proof

/-- `sat_N(v) = min(v, 2^N − 1)` (00_scope.md R7). -/
def sat (n v : Nat) : Nat := min v (2 ^ n - 1)

/-- W_BITS, the width of COL and of every run counter (00_scope.md R5). -/
def wBits : Nat := 16

/-- WMAX = 2^W_BITS − 1, the largest row length the block decodes (00_scope.md R5). -/
def wMax : Nat := 2 ^ wBits - 1

/-- The 3-bit code of STAGE (10_state.md R29). -/
def Stage.code : Stage → BitVec 3
  | .lg => 0#3
  | .lc => 1#3
  | .mg => 2#3
  | .rc => 3#3
  | .rg => 4#3
  | .full => 5#3

/-- STAGE + 1, for a stage below 5 (40_segmenter.md R108). -/
def Stage.next : Stage → Stage
  | .lg => .lc
  | .lc => .mg
  | .mg => .rc
  | .rc => .rg
  | .rg => .full
  | .full => .full

/-- START: the colour a stage's first run must have (40_segmenter.md R101). START[0] is the spec's
decision D5 (assumption log 6). Stage 5 locates nothing, and its value is read by no rule. -/
def Stage.start : Stage → Colour
  | .lg => .black
  | .lc => .white
  | .mg => .white
  | .rc => .black
  | .rg => .black
  | .full => .white

/-- The five stages that have a group, in order (40_segmenter.md R101). -/
def Stage.groups : List Stage := [.lg, .lc, .mg, .rc, .rg]

end Sys2Proof.Machine

namespace Sys2Proof

open Sys2Proof.Machine

/-- SIZE[t]: the number of runs of a stage's group (00_scope.md R5; 10_state.md R35). Stage 5 has no
group. -/
def Params.size (P : Params) : Stage → Nat
  | .lg => P.sizes[0]
  | .lc => P.sizes[1]
  | .mg => P.sizes[2]
  | .rc => P.sizes[3]
  | .rg => P.sizes[4]
  | .full => 0

/-- BASE[t]: the first element of a stage's group in RB, the sum of the sizes before it
(10_state.md R35). Stage 5 begins where the last group ends. -/
def Params.base (P : Params) : Stage → Nat
  | .lg => 0
  | .lc => P.sizes[0]
  | .mg => P.sizes[0] + P.sizes[1]
  | .rc => P.sizes[0] + P.sizes[1] + P.sizes[2]
  | .rg => P.sizes[0] + P.sizes[1] + P.sizes[2] + P.sizes[3]
  | .full => P.sizes[0] + P.sizes[1] + P.sizes[2] + P.sizes[3] + P.sizes[4]

/-- The bit value of a colour (00_scope.md R5). -/
def Params.pixelBit (P : Params) : Colour → Bool
  | .white => P.white
  | .black => P.black

end Sys2Proof
end

