-- ==== Sys2Proof/Machine/Flags.lean ====
section
/-! DEFINITION. The flags and counters a commit writes: CMD_ERR, OVF, DECODED, FRAME_DONE, ROW_STATUS
and ROW_COUNT. -/

namespace Sys2Proof.Machine

open Sys2Proof

/-- CMD_ERR ← 1 (60_exceptions.md R226). -/
def FrameState.setCmdErr (f : FrameState) : FrameState := { f with cmdErr := true }

/-- FRAME_DONE ← 1 (46_commands.md R206). -/
def FrameState.setFrameDone (f : FrameState) : FrameState := { f with frameDone := true }

/-- OVF ← 1 (46_commands.md R201). -/
def RowState.setOvf (r : RowState) : RowState := { r with ovf := true }

/-- COL ← COL + 1 (46_commands.md R201). It is reached only with COL ≠ WMAX, so COL never wraps
(10_state.md R38). -/
def RowState.countPixel (r : RowState) : RowState := { r with col := r.col + 1#16 }

/-- A row is open iff COL > 0 (46_commands.md R206). -/
def RowState.isOpen (r : RowState) : Bool := decide (0 < r.col.toNat)

/-- ROW_COUNT ← sat_N(ROW_COUNT + 1), N = ROWCNT_BITS (45_row_driver.md R188; 10_state.md R26). -/
def nextRowCount (P : Params) (n : Count) : Count :=
  BitVec.ofNat 16 (sat P.rowCntBits (n.toNat + 1))

/-- The status that records a row failure (10_state.md R25). -/
def RowFail.status : RowFail → RowStatus
  | .structFail => .structFail
  | .patternFail => .patternFail
  | .parityFail => .parityFail
  | .checksumFail => .checksumFail
  | .rowTooLong => .rowTooLong

/-- The 4-bit code of ROW_STATUS (10_state.md R25). -/
def RowStatus.code : RowStatus → BitVec 4
  | .none => 0#4
  | .ok => 1#4
  | .structFail => 2#4
  | .patternFail => 3#4
  | .parityFail => 4#4
  | .checksumFail => 5#4
  | .rowTooLong => 6#4

/-- The record of an evaluated row in the frame state: it is counted, its class is stored, and only an
OK row sets DECODED and writes DIGITS and PARITY (45_row_driver.md R188; 60_exceptions.md R231). -/
def FrameState.record (P : Params) (f : FrameState) : RowOutcome → FrameState
  | .ok d p =>
    { f with rowCount := nextRowCount P f.rowCount, rowStatus := .ok, decoded := true,
             digits := d, parity := p }
  | .fail c => { f with rowCount := nextRowCount P f.rowCount, rowStatus := c.status }

end Sys2Proof.Machine
end

