-- ==== Sys2Proof/Machine/Operands.lean ====
section
/-! DEFINITION. The one operand of the command set, a pixel (30_encoding.md R71), and the derived
command-state signals. -/

namespace Sys2Proof.Machine

open Sys2Proof

/-- The colour a pixel bit denotes: `p = BLACK if D = 1 else WHITE`, 1 being the parameter BLACK
(30_encoding.md R71; 00_scope.md R5, R8). -/
def pixelColour (P : Params) (d : Bool) : Colour := if d = P.black then .black else .white

/-- The PIX command with the pixel bit (30_encoding.md R72). -/
def pixelInstr (d : Bool) : Instr := if d then .pix1 else .pix0

/-- The PIX command that pushes a pixel of the colour. -/
def pixelCommand (P : Params) (c : Colour) : Instr := pixelInstr (P.pixelBit c)

/-- The words that EVAL_LATENCY delays: EOL and EOF (46_commands.md R200). -/
def isLong : Instr → Bool
  | .pix0 => false
  | .pix1 => false
  | .eol => true
  | .rsv3 => false
  | .sof => false
  | .rsv5 => false
  | .eof => true
  | .rsv7 => false

/-- `BUSY = (PENDING ≠ none)` (10_state.md R24). -/
def State.busy (s : State) : Bool := s.pending.isSome

/-- An idle edge: no reset and no command. -/
def PortIn.idle : PortIn := ⟨false, false, 0#3, 0#3⟩

/-- What the host presents at the coming edge; beyond the list it presents nothing. -/
def State.portIn (s : State) : PortIn := s.host.headD PortIn.idle

/-- `in_ready = ¬BUSY` while `rst = 0`, and 0 while `rst = 1` (10_state.md R24). -/
def State.inReady (s : State) : Bool := !s.portIn.rst && !s.busy

end Sys2Proof.Machine
end

