-- ==== Sys2Proof/Machine/Ops.lean ====
section
/-! DEFINITION. The named operations every command is built from: the run buffer's one write, its
group reads, the row clear, the protocol error, the reset, and the commit itself. The block takes no
exception and returns from none (60_exceptions.md R220): `protocolError` and `FrameState.record` are
all that a failure does. -/

namespace Sys2Proof.Machine

open Sys2Proof

/-- `RB[i] <- RB[i] + 1`, the run buffer's only write besides its clear (40_segmenter.md R108). An
index above 58, which no run reaches, writes nothing (assumption log 7). -/
def bumpRun (rb : RunBuffer) (i : Nat) : RunBuffer :=
  rb.setIfInBounds i (rb.getD i 0#16 + 1#16)

/-- The runs of RB as numbers, `RB[0]` first. -/
def runsOf (rb : RunBuffer) : List Nat := rb.toList.map BitVec.toNat

/-- A stage's group: `RB[BASE[t] .. BASE[t] + SIZE[t] − 1]` (10_state.md R35). -/
def groupRuns (P : Params) (rb : RunBuffer) (t : Stage) : List Nat :=
  ((runsOf rb).drop (P.base t)).take (P.size t)

/-- `RowClear()`: the row state to its reset values (45_row_driver.md R189). -/
def rowClear (s : State) : State := { s with row := RowState.reset }

/-- A protocol error: CMD_ERR ← 1, and nothing else changes (60_exceptions.md R226). -/
def protocolError (s : State) : State := { s with frame := s.frame.setCmdErr }

/-- `ResetState()`: every element of 10_state.md R49 to its reset value, PENDING among them
(70_reset_and_hazards.md R250). From this edge on the state holds values (R254). -/
def resetState (s : State) : State :=
  { s with frame := FrameState.reset, row := RowState.reset, pending := none, resetSeen := true }

/-- One atomic commit (20_memory.md R57): the whole state change `f`, or, before the first reset edge,
the fault of 70_reset_and_hazards.md R254. -/
def commit (f : State → State) (s : State) : Host.Outcome State Fault Refusal :=
  if s.resetSeen then .next (f s) else .fault .commandBeforeReset

/-- Change the state of a next outcome and leave a stop as it is. -/
def mapNext (f : State → State) :
    Host.Outcome State Fault Refusal → Host.Outcome State Fault Refusal
  | .next s => .next (f s)
  | .fault r => .fault r
  | .refused r => .refused r

end Sys2Proof.Machine
end

