-- ==== Sys2Proof/Machine/Checksum.lean ====
section
/-! DEFINITION. The checksum (44_checksum.md) and the numbers formed from the digits (10_state.md R43,
44_checksum.md R174). -/

namespace Sys2Proof.Machine

open Sys2Proof

/-- `Σ w(i) · d[i]` over a list whose first element has index i. -/
def weightedSum (w : Nat → Nat) : Nat → List Digit → Nat
  | _, [] => 0
  | i, d :: ds => w i * d.val + weightedSum w (i + 1) ds

/-- The weight of a digit position: 1 at even positions, 3 at odd ones (44_checksum.md R170). -/
def checksumWeight (i : Nat) : Nat := if i % 2 = 0 then 1 else 3

/-- `Checksum(d)` (44_checksum.md R170). -/
def checksum (d : DigitWord) : Nat := weightedSum checksumWeight 0 d.toList

/-- "The number is valid iff the sum is divisible by 10" (44_checksum.md R172). -/
def checksumValid (d : DigitWord) : Bool := checksum d % 10 == 0

/-- `VALUE = Σ DIGITS[i] · 10^(12−i)` (44_checksum.md R174). -/
def digitsValue (d : DigitWord) : Nat := weightedSum (fun i => 10 ^ (12 - i)) 0 d.toList

/-- `BCD = Σ DIGITS[i] · 2^(4·(12−i))` (10_state.md R43). -/
def digitsBcd (d : DigitWord) : Nat := weightedSum (fun i => 2 ^ (4 * (12 - i))) 0 d.toList

end Sys2Proof.Machine
end

