-- ==== Sys2Proof/Machine/ModuleWidth.lean ====
section
/-! DEFINITION. The module-width estimator and the exact ratio forms (41_module_width.md). The module
width h = G / 11 is never formed (R123): a ratio is the pair (11 · run, G). -/

namespace Sys2Proof.Machine

/-- `G`: the sum of the eleven guard runs (41_module_width.md R120). -/
def guardSum (lg mg rg : List Nat) : Nat := lg.sum + mg.sum + rg.sum

/-- `n = GUARD_POSITIONS · run`, the numerator of the normalised ratio run / h = n / G
(41_module_width.md R123). -/
def numerator (P : Params) (run : Nat) : Nat := P.guardPositions * run

/-- `int(ra + rb − 1)`, truncated toward zero (41_module_width.md R124, last row). -/
def sumLessOne (na nb G : Nat) : Nat := if na + nb ≥ G then (na + nb - G) / G else 0

end Sys2Proof.Machine
end

