-- ==== Sys2Proof/Machine/Quantizer.lean ====
section
/-! DEFINITION. The digit quantizer (42_quantizer.md), in exact arithmetic. It writes no state and
never fails (R130, R141). -/

namespace Sys2Proof.Machine

open Sys2Proof

/-- The four runs of one digit, in run order (42_quantizer.md R130). -/
structure Quartet where
  r0 : Nat
  r1 : Nat
  r2 : Nat
  r3 : Nat
  deriving DecidableEq, Repr

/-- The four quantized components of a pattern code, in run order (30_encoding.md R80). -/
structure Components where
  c0 : Nat
  c1 : Nat
  c2 : Nat
  c3 : Nat
  deriving DecidableEq, Repr

/-- Step 2, the below-one branch: the smaller ratio (the first, when they are equal) becomes 1 and the
other the truncated sum less one (42_quantizer.md R133). -/
def belowOne (na nb G : Nat) : Nat × Nat :=
  let other := sumLessOne na nb G
  if na ≤ nb then (1, other) else (other, 1)

/-- The tie break: under NEIGHBOUR the second ratio rounds up iff the neighbour's remainder exceeds
the tied remainder f, under FIRST the first always does (42_quantizer.md R135). -/
def tieBreak (tb : TieBreak) (ta t_b f nn G : Nat) : Nat × Nat :=
  match tb with
  | .neighbour => if nn % G > f then (ta, t_b + 1) else (ta + 1, t_b)
  | .first => (ta + 1, t_b)

/-- Step 3, the carry branch: where the two truncations lose a module against the sum, the ratio with
the larger remainder rounds up (42_quantizer.md R134). -/
def carryBranch (tb : TieBreak) (na nb nn G : Nat) : Nat × Nat :=
  let ta := na / G
  let fa := na % G
  let t_b := nb / G
  let fb := nb % G
  if fa + fb ≥ G then
    if fa > fb then (ta + 1, t_b)
    else if fb > fa then (ta, t_b + 1)
    else tieBreak tb ta t_b fa nn G
  else (ta, t_b)

/-- `QPair`: the two values of one pair before the clamp (42_quantizer.md R132). -/
def qPair (tb : TieBreak) (na nb nn G : Nat) : Nat × Nat :=
  if na < G ∨ nb < G then belowOne na nb G else carryBranch tb na nb nn G

/-- Step 4, the clamp of one component (42_quantizer.md R136). -/
def clampComponent (P : Params) (q : Nat) : Nat :=
  let c := min q P.clampMax
  if P.lowerClamp then max c 1 else c

/-- `Quantize`: steps 1 to 4 on one quartet; the neighbour of both pairs is the third run
(42_quantizer.md R138, R135, 90 C7). -/
def quantize (P : Params) (q : Quartet) (G : Nat) : Components :=
  let n0 := numerator P q.r0
  let n1 := numerator P q.r1
  let n2 := numerator P q.r2
  let n3 := numerator P q.r3
  let p0 := qPair P.tieBreak n0 n1 n2 G
  let p1 := qPair P.tieBreak n2 n3 n2 G
  ⟨clampComponent P p0.1, clampComponent P p0.2,
   clampComponent P p1.1, clampComponent P p1.2⟩

/-- `Code`, step 5: the decimal composition of the components (42_quantizer.md R137, 30_encoding.md
R80). -/
def patternCode (c : Components) : Nat := 1000 * c.c0 + 100 * c.c1 + 10 * c.c2 + c.c3

/-- The quartets of a code group: runs 4(j−1) to 4(j−1)+3 for its j-th digit (10_state.md R35;
45_row_driver.md R180). -/
def quartets : List Nat → List Quartet
  | r0 :: r1 :: r2 :: r3 :: rest => ⟨r0, r1, r2, r3⟩ :: quartets rest
  | _ => []

/-- The pattern codes of a code group, in digit order (45_row_driver.md R188). -/
def patternCodes (P : Params) (G : Nat) (runs : List Nat) : List Nat :=
  (quartets runs).map fun q => patternCode (quantize P q G)

end Sys2Proof.Machine
end

