-- ==== Sys2Proof/Machine/Lookup.lean ====
section
/-! DEFINITION. The table lookups and identification (43_lookup.md). The tables are read-only
configuration (R154). -/

namespace Sys2Proof.Machine

open Sys2Proof

/-- `LookupLeft(PC)`: the entry of TABLE_LG, or ABSENT (43_lookup.md R155). -/
def lookupLeft (P : Params) (pc : Nat) : Option (Digit × ParityLetter) :=
  (P.tableLG.find? fun e => e.code == pc).map fun e => (e.digit, e.letter)

/-- `LookupRight(PC)`: the entry of TABLE_R, or ABSENT (43_lookup.md R156). -/
def lookupRight (P : Params) (pc : Nat) : Option Digit :=
  (P.tableR.find? fun e => e.code == pc).map fun e => e.digit

/-- `LookupParity(P)`: the entry of TABLE_PAR, or ABSENT (43_lookup.md R157). -/
def lookupParity (P : Params) (w : ParityWord) : Option Digit :=
  (P.tablePar.find? fun e => e.word == w).map fun e => e.digit

/-- Look up every code of a list in order; one absence fails the whole (43_lookup.md R158). -/
def lookupAll {α : Type} (f : Nat → Option α) : List Nat → Option (List α)
  | [] => some []
  | pc :: rest =>
    match f pc with
    | none => none
    | some e =>
      match lookupAll f rest with
      | none => none
      | some es => some (e :: es)

/-- The bit of a parity letter: L = 0, G = 1 (30_encoding.md R81). -/
def ParityLetter.bit : ParityLetter → Nat
  | .L => 0
  | .G => 1

/-- The letters as a binary number, the first letter most significant. -/
def lettersValue (letters : List ParityLetter) : Nat :=
  letters.foldl (fun v l => 2 * v + ParityLetter.bit l) 0

/-- `P = {letter[1], …, letter[6]}`, letter[1] in bit 5 (30_encoding.md R81). -/
def parityWord (letters : List ParityLetter) : ParityWord := BitVec.ofNat 6 (lettersValue letters)

/-- `d[0..12]` from a list of digits in index order. -/
def digitWord (ds : List Digit) : DigitWord := Vector.ofFn fun i => ds.getD i.val 0

/-- `Identify`: all twelve pattern lookups, then the parity lookup (43_lookup.md R158). -/
def identify (P : Params) (left right : List Nat) : RowOutcome :=
  match lookupAll (lookupLeft P) left with
  | none => .fail .patternFail
  | some ls =>
    match lookupAll (lookupRight P) right with
    | none => .fail .patternFail
    | some rs =>
      let w := parityWord (ls.map (·.2))
      match lookupParity P w with
      | none => .fail .parityFail
      | some lead => .ok (digitWord (lead :: ls.map (·.1) ++ rs)) w

end Sys2Proof.Machine
end

