-- ==== Sys2Proof/Machine/Segmenter.lean ====
section
/-! DEFINITION. The pixel-serial segmenter step (40_segmenter.md R108). -/

namespace Sys2Proof.Machine

open Sys2Proof

/-- SegStep while SEARCH = 1: a pixel of the stage's start colour begins run 0 of its group, and any
other pixel leaves the step still locating it (40_segmenter.md R108). -/
def startRun (P : Params) (p : Colour) (r : RowState) : RowState :=
  if p = r.stage.start then
    { r with search := false, cur := p, k := 0#5, rb := bumpRun r.rb (P.base r.stage) }
  else r

/-- The stage's last run is closed by p: the stage advances, and below stage 5 the same pixel is
presented to the next stage, which is then locating (40_segmenter.md R108). -/
def closeStage (P : Params) (p : Colour) (r : RowState) : RowState :=
  let r' := { r with cur := p, stage := r.stage.next, k := 0#5 }
  if r'.stage = .full then r' else startRun P p { r' with search := true }

/-- `SegStep(p)`: the segmenter step for one counted pixel (40_segmenter.md R108). The inner SegStep
of the pseudocode always finds SEARCH = 1, so it is `startRun` (R108, "Depth"). -/
def segStep (P : Params) (p : Colour) (r : RowState) : RowState :=
  if r.stage = .full then r
  else if r.search then startRun P p r
  else if p ≠ r.cur then
    let k' := r.k + 1#5
    if k'.toNat = P.size r.stage then closeStage P p r
    else { r with cur := p, k := k', rb := bumpRun r.rb (P.base r.stage + k'.toNat) }
  else { r with rb := bumpRun r.rb (P.base r.stage + r.k.toNat) }

end Sys2Proof.Machine
end

