-- ==== Sys2Proof/Machine/RowDriver.lean ====
section
/-! DEFINITION. The row evaluation (45_row_driver.md R188). -/

namespace Sys2Proof.Machine

open Sys2Proof

/-- A row that identified is OK iff its checksum is valid (45_row_driver.md R188; 44_checksum.md
R172). -/
def validate : RowOutcome → RowOutcome
  | .ok d p => if checksumValid d then .ok d p else .fail .checksumFail
  | .fail c => .fail c

/-- Quantization, lookup and checksum of five filled groups (45_row_driver.md R180, R188). -/
def decodeGroups (P : Params) (lg lc mg rc rg : List Nat) : RowOutcome :=
  let G := guardSum lg mg rg
  validate (identify P (patternCodes P G lc) (patternCodes P G rc))

/-- The outcome of the row in a row state: overflow first, then structure, then the rest
(45_row_driver.md R188; the priority of 60_exceptions.md R229). -/
def rowOutcome (P : Params) (r : RowState) : RowOutcome :=
  if r.ovf then .fail .rowTooLong
  else if r.stage ≠ .full then .fail .structFail
  else decodeGroups P (groupRuns P r.rb .lg) (groupRuns P r.rb .lc) (groupRuns P r.rb .mg)
    (groupRuns P r.rb .rc) (groupRuns P r.rb .rg)

/-- `Evaluate()`: record the row's outcome and clear the row state, in one commit
(45_row_driver.md R188). CMD_ERR, FRAME_DONE and PENDING are left alone. -/
def evaluate (s : State) : State :=
  rowClear { s with frame := s.frame.record s.config (rowOutcome s.config s.row) }

end Sys2Proof.Machine
end

