-- ==== Sys2Proof/Machine/Framing.lean ====
section
/-! DEFINITION. The framing commands EOL, SOF and EOF (46_commands.md R204 to R206). -/

namespace Sys2Proof.Machine

open Sys2Proof

/-- EOL's commit (46_commands.md R204). -/
def eolCommit (s : State) : State :=
  if s.frame.frameDone then protocolError s
  else if s.frame.decoded then s
  else evaluate s

/-- EOL: end of scanline, evaluate the row (46_commands.md R204). -/
def execEol (s : State) : Host.Outcome State Fault Refusal := commit eolCommit s

/-- SOF's commit: all frame and row state to its reset values (46_commands.md R205). -/
def sofCommit (s : State) : State := rowClear { s with frame := FrameState.reset }

/-- SOF: start of frame (46_commands.md R205). -/
def execSof (s : State) : Host.Outcome State Fault Refusal := commit sofCommit s

/-- EOF's implicit EOL: the row is evaluated if it is open and no row has decoded
(46_commands.md R206). -/
def evaluateOpenRow (s : State) : State :=
  if !s.frame.decoded && s.row.isOpen then evaluate s else s

/-- FRAME_DONE ← 1 and RowClear (46_commands.md R206). -/
def closeFrame (s : State) : State := rowClear { s with frame := s.frame.setFrameDone }

/-- EOF's commit (46_commands.md R206). -/
def eofCommit (s : State) : State :=
  if s.frame.frameDone then protocolError s else closeFrame (evaluateOpenRow s)

/-- EOF: end of frame (46_commands.md R206). -/
def execEof (s : State) : Host.Outcome State Fault Refusal := commit eofCommit s

end Sys2Proof.Machine
end

