-- ==== Sys2Proof/Machine/Pixel.lean ====
section
/-! DEFINITION. The pixel commands PIX0 and PIX1 (46_commands.md R201 to R203). -/

namespace Sys2Proof.Machine

open Sys2Proof

/-- `PixCommit(p)` (46_commands.md R201). -/
def pixCommit (p : Colour) (s : State) : State :=
  if s.frame.frameDone then protocolError s
  else if s.frame.decoded then s
  else if s.row.col.toNat = wMax then { s with row := s.row.setOvf }
  else { s with row := segStep s.config p s.row.countPixel }

/-- PIX0: push one WHITE pixel (46_commands.md R202). -/
def execPix0 (s : State) : Host.Outcome State Fault Refusal :=
  commit (pixCommit (pixelColour s.config false)) s

/-- PIX1: push one BLACK pixel (46_commands.md R203). -/
def execPix1 (s : State) : Host.Outcome State Fault Refusal :=
  commit (pixCommit (pixelColour s.config true)) s

end Sys2Proof.Machine
end

