-- ==== Sys2Proof/Machine/Reserved.lean ====
section
/-! DEFINITION. The reserved words (46_commands.md R207 to R209): each sets CMD_ERR and does nothing
else, in every state. -/

namespace Sys2Proof.Machine

open Sys2Proof

/-- RSV3, the word 011 (46_commands.md R207). -/
def execRsv3 (s : State) : Host.Outcome State Fault Refusal := commit protocolError s

/-- RSV5, the word 101 (46_commands.md R208). -/
def execRsv5 (s : State) : Host.Outcome State Fault Refusal := commit protocolError s

/-- RSV7, the word 111 (46_commands.md R209). -/
def execRsv7 (s : State) : Host.Outcome State Fault Refusal := commit protocolError s

end Sys2Proof.Machine
end

