-- ==== Sys2Proof/Machine/Dispatch.lean ====
section
/-! DEFINITION. One arm for each command: `Commit(c)` (46_commands.md R200). -/

namespace Sys2Proof.Machine

open Sys2Proof

/-- The commit of a command (46_commands.md R200: "Commit(c) performs the pseudocode of rules R202 to
R209 for word c"). -/
def exec (i : Instr) (s : State) : Host.Outcome State Fault Refusal :=
  match i with
  | .pix0 => Sys2Proof.Machine.execPix0 s
  | .pix1 => Sys2Proof.Machine.execPix1 s
  | .eol => Sys2Proof.Machine.execEol s
  | .rsv3 => Sys2Proof.Machine.execRsv3 s
  | .sof => Sys2Proof.Machine.execSof s
  | .rsv5 => Sys2Proof.Machine.execRsv5 s
  | .eof => Sys2Proof.Machine.execEof s
  | .rsv7 => Sys2Proof.Machine.execRsv7 s

end Sys2Proof.Machine
end

