-- ==== Sys2Proof/Machine/RegView.lean ====
section
/-! DEFINITION. The register read port and the output signals (10_state.md R41 to R48, 20_memory.md
R51 to R55, 30_encoding.md R79). -/

namespace Sys2Proof.Machine

open Sys2Proof

/-- The 52-bit digit word BCD (10_state.md R43). -/
def bcdWord (f : FrameState) : BitVec 52 := BitVec.ofNat 52 (digitsBcd f.digits)

/-- The 44-bit VALUE, a combinational function of DIGITS (44_checksum.md R174). -/
def valueWord (f : FrameState) : BitVec 44 := BitVec.ofNat 44 (digitsValue f.digits)

/-- Address 0, STATUS: ROW_COUNT, eight zeros, ROW_STATUS, BUSY, CMD_ERR, FRAME_DONE, DECODED
(10_state.md R42). -/
def statusWord (s : State) : RegWord :=
  s.frame.rowCount ++ 0#8 ++ s.frame.rowStatus.code ++ BitVec.ofBool s.busy ++
    BitVec.ofBool s.frame.cmdErr ++ BitVec.ofBool s.frame.frameDone ++ BitVec.ofBool s.frame.decoded

/-- `RegView(state, a)` (10_state.md R41 to R47; the address map of 20_memory.md R55). -/
def regView (s : State) (a : RegAddr) : RegWord :=
  match a with
  | 0#3 => statusWord s
  | 1#3 => (bcdWord s.frame).setWidth 32
  | 2#3 => ((bcdWord s.frame).extractLsb' 32 20).setWidth 32
  | 3#3 => (valueWord s.frame).setWidth 32
  | 4#3 => ((valueWord s.frame).extractLsb' 32 12).setWidth 32
  | 5#3 => s.frame.parity.setWidth 32
  | 6#3 => 0#32
  | 7#3 => 0#32

/-- `RegRead(a)`: the register view, or, before the first reset edge, the fault of
70_reset_and_hazards.md R254. It is a pure function: a read changes nothing (20_memory.md R51). -/
def regRead (s : State) (a : RegAddr) : Except Fault RegWord :=
  if s.resetSeen then .ok (regView s a) else .error .readBeforeReset

/-- The state the read port and the level outputs show: while `rst = 1` the elements have their reset
values (20_memory.md R51; 10_state.md R48; 70_reset_and_hazards.md R250), but whether the first reset
edge has happened is as before. -/
def shownState (s : State) : State :=
  if s.portIn.rst then { resetState s with resetSeen := s.resetSeen } else s

/-- The read port in this cycle (20_memory.md R51). Before the first reset edge every read is a fault,
in a cycle with `rst = 1` too (70_reset_and_hazards.md R254; 93 I4). -/
def readPort (s : State) : Except Fault RegWord := regRead (shownState s) s.portIn.rdAddr

/-- The output ports (30_encoding.md R79). `rd_data` is a word, or the fault of a read before the first
reset edge. -/
structure PortOut where
  inReady : Bool
  rdData : Except Fault RegWord
  oDecoded : Bool
  oFrameDone : Bool
  oBusy : Bool
  deriving DecidableEq, Repr

/-- The outputs in the cycle before the coming edge: combinational in the state and the inputs
(20_memory.md R51, 10_state.md R48, R24). Before the first reset edge (70_reset_and_hazards.md R254) a
cycle with `rst = 0` has no outputs, and one with `rst = 1` has `in_ready` and the level outputs, which
R24, R48 and R250 give while `rst = 1`, and no read (assumption log 16). -/
def portOut (s : State) : Except Fault PortOut :=
  if s.resetSeen || s.portIn.rst then
    .ok { inReady := s.inReady
          rdData := readPort s
          oDecoded := (shownState s).frame.decoded
          oFrameDone := (shownState s).frame.frameDone
          oBusy := (shownState s).busy }
  else .error .readBeforeReset

end Sys2Proof.Machine
end

