-- ==== Sys2Proof/Machine/Handshake.lean ====
section
/-! DEFINITION. What a rising edge does around a commit: reset, acceptance, the busy window and the
idle edge (46_commands.md R200), and booting a configuration. -/

namespace Sys2Proof.Machine

open Sys2Proof

/-- The edge has taken the host's next presentation. -/
def advanceHost (s : State) : State := { s with host := s.host.tail }

/-- PENDING ← none. -/
def clearPending (s : State) : State := { s with pending := none }

/-- A pending command: `due` counts down to 0, and then the command commits and PENDING is cleared
(46_commands.md R200). -/
def pendingEdge (q : Pending) (s : State) : Host.Outcome State Fault Refusal :=
  if q.due = 0 then mapNext clearPending (exec q.cmd s)
  else .next { s with pending := some { q with due := q.due - 1 } }

/-- An accepted command: EOL and EOF become pending when EVAL_LATENCY > 0, and every other word, and
those two at latency 0, commit at this edge (46_commands.md R200). -/
def acceptCommand (i : Instr) (s : State) : Host.Outcome State Fault Refusal :=
  if isLong i && decide (0 < s.config.evalLatency) then
    .next { s with pending := some ⟨i, s.config.evalLatency - 1⟩ }
  else exec i s

/-- `Edge()` with the inputs p, on the state that remains once they are taken (46_commands.md R200;
70_reset_and_hazards.md R250). Before the first reset edge a presented command faults, for whether it
is accepted is itself unknown, and an idle edge leaves the unknown state unknown (R254; assumption
log 3). -/
def edgeWith (p : PortIn) (s : State) : Host.Outcome State Fault Refusal :=
  if p.rst then .next (resetState s)
  else if !s.resetSeen then
    if p.inValid then .fault .commandBeforeReset else .next s
  else
    match s.pending with
    | some q => pendingEdge q s
    | none => if p.inValid then acceptCommand (decode p.inCmd) s else .next s

/-- One rising edge of `clk` (46_commands.md R200). -/
def edge (s : State) : Host.Outcome State Fault Refusal := edgeWith s.portIn (advanceHost s)

/-- The inputs that present a command word at an edge, the read address left as it was. -/
def presentWord (p : PortIn) (c : CommandWord) : PortIn :=
  { p with rst := false, inValid := true, inCmd := c }

/-- The state in which the very next edge accepts and commits the word: it is presented at that edge,
nothing is pending, and the latency is the 0 that 46_commands.md R200 lets a command-level model take
(assumption log 4). -/
def presentNext (s : State) (w : Nat) : State :=
  { s with pending := none, config := { s.config with evalLatency := 0 },
           host := presentWord s.portIn (BitVec.ofNat 3 w) :: s.host.tail }

/-- The state at power-up: some contents, none of which the state holds (70_reset_and_hazards.md R254,
93 I4). -/
def powerUp (s : State) : State := { s with resetSeen := false }

/-- Booting the block with parameters P: a configuration whose tables break 43_lookup.md R153 is
refused (93 I2), and so is one in which a parameter with one listed value has another (assumption log
15). Any other starts, once the reset edge of 70_reset_and_hazards.md R254 has happened, in the reset
state, with P as its configuration (assumption log 9). -/
def boot (P : Params) : Host.Outcome State Fault Refusal :=
  if !P.tablesOk then .refused .illFormedTables
  else if !P.listed then .refused .unlistedParameters
  else .next (State.resetWith P)

end Sys2Proof.Machine
end

