-- ==== Sys2Proof/Machine/Step.lean ====
section
/-! DEFINITION. One step is one rising edge of `clk` (46_commands.md R200). -/

namespace Sys2Proof.Machine

open Sys2Proof

/-- One rising edge (46_commands.md R200). -/
def step (s : State) : Host.Outcome State Fault Refusal := edge s

/-- The state with an opcode-table row's word presented so that the very next step commits it
(assumption log 4). -/
def State.withFetchWord (s : State) (_nbits w : Nat) : State := presentNext s w

end Sys2Proof.Machine
end

