-- ==== Sys2Proof/Machine/Assembly.lean ====
section
/-! DEFINITION. The assembly language of the command stream (30_encoding.md R75 to R78): its lines,
what each expands to, and its text form. -/

namespace Sys2Proof.Machine

open Sys2Proof

/-- One line of assembly (30_encoding.md R75 to R78). A pixel bit is a Bool, 1 being true. -/
inductive AsmLine where
  | pix (b : Bool)
  | eol
  | sof
  | eof
  /-- `.word n`, a raw word: the only way to write RSV3, RSV5 and RSV7. -/
  | word (n : Nat)
  /-- `RUN b, n`. -/
  | run (b : Bool) (n : Nat)
  /-- `MODS b, m, w1, …, wk`; k = 0 is admitted (DESIGN CHOICE, assumption log 11). -/
  | mods (b : Bool) (m : Nat) (ws : List Nat)
  /-- `ROW`, an alias of EOL. -/
  | row
  deriving DecidableEq, Repr

/-- Why a text or a line is not assembled. -/
inductive AsmReject where
  /-- The line is no line of the language. -/
  | unknownLine
  /-- `.word n` with n > 7 (30_encoding.md R75). -/
  | wordOutOfRange
  /-- MODS with m = 0 or a width 0 (30_encoding.md R77: "m ≥ 1, every wi ≥ 1"). -/
  | zeroModuleWidth
  deriving DecidableEq, Repr

/-- The word of `PIX b` (30_encoding.md R75). -/
def pixelWord (b : Bool) : CommandWord := encode (pixelInstr b)

/-- `RUN b, n`: n copies of `PIX b` (30_encoding.md R76). -/
def runWords (b : Bool) (n : Nat) : List CommandWord := List.replicate n (pixelWord b)

/-- `MODS b, m, w1, …, wk`: alternating runs of wi · m pixels, the first of colour b
(30_encoding.md R77). With no widths it expands to nothing: R77 does not say whether k may be 0, and
that it may is the model's design choice (assumption log 11). -/
def modsWords (b : Bool) (m : Nat) : List Nat → List CommandWord
  | [] => []
  | w :: ws => runWords b (w * m) ++ modsWords (!b) m ws

/-- The words a line expands to, or the reason it is refused (30_encoding.md R75 to R78). MODS with no
widths is accepted and expands to no word (DESIGN CHOICE, assumption log 11). -/
def expandLine : AsmLine → Except AsmReject (List CommandWord)
  | .pix b => .ok [pixelWord b]
  | .eol => .ok [encode .eol]
  | .sof => .ok [encode .sof]
  | .eof => .ok [encode .eof]
  | .word n => if n < 8 then .ok [BitVec.ofNat 3 n] else .error .wordOutOfRange
  | .run b n => .ok (runWords b n)
  | .mods b m ws =>
    if m = 0 ∨ ws.contains 0 then .error .zeroModuleWidth else .ok (modsWords b m ws)
  | .row => .ok [encode .eol]

/-- The words of a program, in order; the first refused line refuses it. -/
def assemble : List AsmLine → Except AsmReject (List CommandWord)
  | [] => .ok []
  | l :: ls =>
    match expandLine l, assemble ls with
    | .ok ws, .ok rest => .ok (ws ++ rest)
    | .error e, _ => .error e
    | .ok _, .error e => .error e

/-- The part of a line before `;`, which starts a comment (30_encoding.md R75). -/
def beforeComment (line : List Char) : List Char := line.takeWhile fun c => c ≠ ';'

/-- The blank characters and the comma separate tokens (assumption log 11). -/
def isSeparator (c : Char) : Bool := c == ' ' || c == '\t' || c == '\r' || c == ','

/-- The tokens of a line, in capitals: mnemonics are case-insensitive (30_encoding.md R75). `word` is
the token being read, reversed. -/
def tokensFrom : List Char → List Char → List (List Char)
  | [], [] => []
  | [], word => [word.reverse]
  | c :: cs, word =>
    if isSeparator c then
      if word.isEmpty then tokensFrom cs [] else word.reverse :: tokensFrom cs []
    else tokensFrom cs (c.toUpper :: word)

/-- The tokens of a line. -/
def tokens (line : List Char) : List (List Char) := tokensFrom (beforeComment line) []

/-- The value of a decimal digit character. -/
def digitOf (c : Char) : Option Nat :=
  if 48 ≤ c.toNat ∧ c.toNat ≤ 57 then some (c.toNat - 48) else none

/-- A decimal number read digit by digit after the value v (assumption log 11). -/
def numberFrom : Nat → List Char → Option Nat
  | v, [] => some v
  | v, c :: cs =>
    match digitOf c with
    | some d => numberFrom (10 * v + d) cs
    | none => none

/-- A decimal number of at least one digit. -/
def number (t : List Char) : Option Nat := if t.isEmpty then none else numberFrom 0 t

/-- The numbers of a list of tokens. -/
def numbers : List (List Char) → Option (List Nat)
  | [] => some []
  | t :: ts =>
    match number t, numbers ts with
    | some n, some ns => some (n :: ns)
    | _, _ => none

/-- A pixel bit, 0 or 1. -/
def bitOf : Nat → Option Bool
  | 0 => some false
  | 1 => some true
  | _ => none

/-- A line from its mnemonic and its numbers (30_encoding.md R75 to R78). DESIGN CHOICE: `MODS b, m`
with no widths (k = 0) is a line, which R77 neither admits nor excludes (assumption log 11). -/
def lineOf (mnemonic : List Char) (args : List Nat) : Option AsmLine :=
  if mnemonic = ['P', 'I', 'X'] then
    match args with
    | [b] => (bitOf b).map AsmLine.pix
    | _ => none
  else if mnemonic = ['P', 'I', 'X', '0'] ∧ args = [] then some (.pix false)
  else if mnemonic = ['P', 'I', 'X', '1'] ∧ args = [] then some (.pix true)
  else if mnemonic = ['E', 'O', 'L'] ∧ args = [] then some .eol
  else if mnemonic = ['S', 'O', 'F'] ∧ args = [] then some .sof
  else if mnemonic = ['E', 'O', 'F'] ∧ args = [] then some .eof
  else if mnemonic = ['R', 'O', 'W'] ∧ args = [] then some .row
  else if mnemonic = ['.', 'W', 'O', 'R', 'D'] then
    match args with
    | [n] => some (.word n)
    | _ => none
  else if mnemonic = ['R', 'U', 'N'] then
    match args with
    | [b, n] => (bitOf b).map fun b => .run b n
    | _ => none
  else if mnemonic = ['M', 'O', 'D', 'S'] then
    match args with
    | b :: m :: ws => (bitOf b).map fun b => .mods b m ws
    | _ => none
  else none

/-- A line of text: nothing for a blank line or a comment, else one command
(30_encoding.md R75: "one command per line"). -/
def parseLine (line : List Char) : Except AsmReject (List AsmLine) :=
  match tokens line with
  | [] => .ok []
  | mnemonic :: args =>
    match numbers args with
    | none => .error .unknownLine
    | some ns =>
      match lineOf mnemonic ns with
      | none => .error .unknownLine
      | some l => .ok [l]

/-- The lines of a text; `line` is the line being read, reversed. -/
def splitLinesFrom : List Char → List Char → List (List Char)
  | [], line => [line.reverse]
  | c :: cs, line =>
    if c == '\n' then line.reverse :: splitLinesFrom cs [] else splitLinesFrom cs (c :: line)

/-- The lines of assembly of a list of text lines. -/
def parseLines : List (List Char) → Except AsmReject (List AsmLine)
  | [] => .ok []
  | l :: ls =>
    match parseLine l, parseLines ls with
    | .ok a, .ok rest => .ok (a ++ rest)
    | .error e, _ => .error e
    | .ok _, .error e => .error e

/-- The command words of an assembly text (30_encoding.md R75 to R78). -/
def assembleText (text : List Char) : Except AsmReject (List CommandWord) :=
  match parseLines (splitLinesFrom text []) with
  | .ok ls => assemble ls
  | .error e => .error e

end Sys2Proof.Machine
end

