-- ==== Sys2Proof/Machine/FunctionLevel.lean ====
section
/-! DEFINITION. The source's decoder as functions: Fill and Segment (40_segmenter.md R100 to R103),
DecodeRow and DecodeFrame (45_row_driver.md R180, R182). The block realises them pixel by pixel. -/

namespace Sys2Proof.Machine

open Sys2Proof

/-- What `Fill` returns: the next index, the runs, and whether the group was filled
(40_segmenter.md R102). -/
structure FillResult where
  next : Nat
  runs : List Nat
  filled : Bool
  deriving DecidableEq, Repr

/-- Fill's first loop: the index of the first pixel of colour c, and the pixels from it on. -/
def locate (c : Colour) : Nat → List Colour → Nat × List Colour
  | i, [] => (i, [])
  | i, p :: ps => if p ≠ c then locate c (i + 1) ps else (i, p :: ps)

/-- `runs[k] <- runs[k] + 1`. -/
def bumpAt (runs : List Nat) (k : Nat) : List Nat := runs.set k (runs.getD k 0 + 1)

/-- Fill's second loop, at index i with run slot k, expected colour `cur` and the runs so far. -/
def collect (n : Nat) : Nat → Nat → Colour → List Nat → List Colour → FillResult
  | i, _, _, runs, [] => ⟨i, runs, false⟩
  | i, k, cur, runs, p :: ps =>
    if p ≠ cur then
      if k + 1 = n then ⟨i, runs, true⟩
      else collect n (i + 1) (k + 1) cur.other (bumpAt runs (k + 1)) ps
    else collect n (i + 1) k cur (bumpAt runs k) ps

/-- `Fill(s, start, c, N)` (40_segmenter.md R102). -/
def fill (s : List Colour) (start : Nat) (c : Colour) (n : Nat) : FillResult :=
  let found := locate c (min start s.length) (s.drop start)
  if found.1 = s.length then ⟨s.length, List.replicate n 0, false⟩
  else collect n found.1 0 c (List.replicate n 0) found.2

/-- The five calls of `Segment`, each starting where the previous left off
(40_segmenter.md R103). -/
def fillStages (P : Params) (s : List Colour) : Nat → List Stage → List FillResult
  | _, [] => []
  | i, t :: ts =>
    let f := fill s i t.start (P.size t)
    f :: fillStages P s f.next ts

/-- `Segment(s)`: the success flag and the five groups in stage order (40_segmenter.md R103). -/
def segment (P : Params) (s : List Colour) : Bool × List (List Nat) :=
  let fs := fillStages P s 0 Stage.groups
  (fs.all (·.filled), fs.map (·.runs))

/-- `DecodeRow(s)` (45_row_driver.md R180). -/
def decodeRow (P : Params) (s : List Colour) : RowOutcome :=
  match segment P s with
  | (true, [lg, lc, mg, rc, rg]) => decodeGroups P lg lc mg rc rg
  | (_, _) => .fail .structFail

/-- What `DecodeFrame` returns when a row succeeds: the number, its parity word and the row's index. -/
structure FrameResult where
  digits : DigitWord
  parity : ParityWord
  index : Nat
  deriving DecidableEq, Repr

/-- `DecodeFrame` from row index r on: the first row that succeeds wins, and the remaining rows are
never tried (45_row_driver.md R182). -/
def decodeFrameFrom (P : Params) : Nat → List (List Colour) → Option FrameResult
  | _, [] => none
  | r, s :: rows =>
    match decodeRow P s with
    | .ok d p => some ⟨d, p, r⟩
    | .fail _ => decodeFrameFrom P (r + 1) rows

/-- `DecodeFrame(rows)` (45_row_driver.md R182); none is the "permanent 'not decoded' state". -/
def decodeFrame (P : Params) (rows : List (List Colour)) : Option FrameResult :=
  decodeFrameFrom P 0 rows

end Sys2Proof.Machine
end

