-- ==== Sys2Proof/Machine/Rendering.lean ====
section
/-! DEFINITION. The noise-free rendering of an EAN-13 number, `render(N, m, ql, qr)`
(95_test_vectors.md, conventions; 93 I1, K6: "test inputs only: no rule depends on them"). -/

namespace Sys2Proof.Machine

open Sys2Proof

/-- Alternating runs of the given lengths, the first of colour c (30_encoding.md R77 as pixels). -/
def alternating (c : Colour) : List Nat → List Colour
  | [] => []
  | w :: ws => List.replicate w c ++ alternating c.other ws

/-- The module widths of a left digit in a letter's alphabet, space first (43_lookup.md R150). -/
def leftWidths (d : Digit) (l : ParityLetter) : List Nat :=
  match ((tableL ++ tableG).find? fun e => e.digit == d && e.letter == l) with
  | some e => codeComponents e.code
  | none => []

/-- The module widths of a right digit, bar first (43_lookup.md R151). -/
def rightWidths (d : Digit) : List Nat :=
  match (tableR.find? fun e => e.digit == d) with
  | some e => codeComponents e.code
  | none => []

/-- The letter of a parity bit. -/
def letterOf (b : Bool) : ParityLetter := if b then .G else .L

/-- The six letters of a parity word, the letter of left digit 1 first (30_encoding.md R81). -/
def lettersOf (w : ParityWord) : List ParityLetter :=
  [letterOf (w.getLsbD 5), letterOf (w.getLsbD 4), letterOf (w.getLsbD 3),
   letterOf (w.getLsbD 2), letterOf (w.getLsbD 1), letterOf (w.getLsbD 0)]

/-- The parity word that TABLE_PAR gives for a leading digit (43_lookup.md R152). -/
def parityOf (d : Digit) : ParityWord :=
  match (tablePar.find? fun e => e.digit == d) with
  | some e => e.word
  | none => 0#6

/-- The 59 module widths of the symbol of a number (95_test_vectors.md, conventions). -/
def symbolWidths (d : DigitWord) : List Nat :=
  let left := (d.toList.drop 1).take 6
  let right := d.toList.drop 7
  [1, 1, 1] ++ (left.zip (lettersOf (parityOf d[0]))).flatMap (fun e => leftWidths e.1 e.2) ++
    [1, 1, 1, 1, 1] ++ right.flatMap rightWidths ++ [1, 1, 1]

/-- `render(N, m, ql, qr)`: the symbol at m pixels per module, with ql white modules before it and qr
after it. -/
def render (d : DigitWord) (m ql qr : Nat) : List Colour :=
  List.replicate (ql * m) .white ++ alternating .black ((symbolWidths d).map (· * m)) ++
    List.replicate (qr * m) .white

end Sys2Proof.Machine
end

