-- ==== Sys2Proof/Machine/Streams.lean ====
section
/-! DEFINITION. Command streams: their commits one after another, the streams of a row and of a frame
(45_row_driver.md R186), and how a host presents a stream at the port (46_commands.md R200,
70_reset_and_hazards.md R256). -/

namespace Sys2Proof.Machine

open Sys2Proof

/-- Commit the commands of a stream in order (20_memory.md R56). -/
def commitAll : List Instr → State → Host.Outcome State Fault Refusal
  | [], s => .next s
  | c :: cs, s =>
    match exec c s with
    | .next t => commitAll cs t
    | .fault r => .fault r
    | .refused r => .refused r

/-- The PIX commands of a scanline, column 0 first (20_memory.md R53). -/
def pixelCommands (P : Params) (row : List Colour) : List Instr := row.map (pixelCommand P)

/-- A row as the host sends it: its pixels and an EOL. -/
def rowCommands (P : Params) (row : List Colour) : List Instr := pixelCommands P row ++ [.eol]

/-- A frame as the host sends it: its rows, top to bottom, and an EOF (45_row_driver.md R186). -/
def frameCommands (P : Params) (rows : List (List Colour)) : List Instr :=
  rows.flatMap (rowCommands P) ++ [.eof]

/-- Segment a row's pixels one after another (40_segmenter.md R109). -/
def segSteps (P : Params) (row : List Colour) (r : RowState) : RowState :=
  row.foldl (fun r p => segStep P p r) r

/-- The edges at which no command can be accepted after this one is, at EVAL_LATENCY L. -/
def busyEdges (L : Nat) (c : Instr) : Nat := if isLong c then L else 0

/-- The commands a block of EVAL_LATENCY L accepts of what a host presents at the coming edges, when
the next `busy` edges are still a busy window: a command presented in a busy window is dropped
(70_reset_and_hazards.md R256). -/
def acceptedFrom (L : Nat) : Nat → List PortIn → List Instr
  | _, [] => []
  | busy + 1, _ :: ps => acceptedFrom L busy ps
  | 0, p :: ps =>
    if p.inValid then decode p.inCmd :: acceptedFrom L (busyEdges L (decode p.inCmd)) ps
    else acceptedFrom L 0 ps

/-- A stream presented one command at a time: the host waits out each busy window before it presents
the next (70_reset_and_hazards.md R256). -/
def presentStream (L : Nat) : List Instr → List PortIn
  | [] => []
  | c :: cs =>
    presentWord PortIn.idle (encode c) ::
      (List.replicate (busyEdges L c) PortIn.idle ++ presentStream L cs)

end Sys2Proof.Machine
end

