-- ==== Sys2Proof/Safety.lean ====
section
/-! DEFINITION. What claims about runs are stated in: the invariants that hold between commits
(10_state.md R36 and the rules it rests on), and the outcomes of a frame. -/

namespace Sys2Proof.Machine

open Sys2Proof

/-- 10_state.md R36, its seven items, in order. -/
abbrev StatedInv (s : State) : Prop :=
  (s.row.search = true →
    s.row.k = 0#5 ∧ ∀ i : Fin 59, s.config.base s.row.stage ≤ i.val → s.row.rb[i] = 0#16) ∧
  (s.row.stage = .full → ∀ i : Fin 59, 1 ≤ s.row.rb[i].toNat) ∧
  ((runsOf s.row.rb).sum ≤ s.row.col.toNat ∧ s.row.col.toNat ≤ wMax) ∧
  (s.row.ovf = true → s.row.col.toNat = wMax) ∧
  (s.frame.decoded = true → s.frame.rowStatus = .ok ∧ s.row = RowState.reset) ∧
  (s.frame.decoded = false →
    s.frame.digits = Vector.replicate 13 0 ∧ s.frame.parity = 0#6) ∧
  (s.frame.frameDone = true → s.row = RowState.reset)

/-- The colour of run k of a stage: the start colour for even k, the other one for odd k
(40_segmenter.md R104). -/
def runColour (t : Stage) (k : Nat) : Colour := if k % 2 = 0 then t.start else t.start.other

/-- The segmenter's position (10_state.md R30, R31; 40_segmenter.md R104, R105): K stays below the
stage's size and is 0 while locating or full; only stage 0 locates; every run up to the current one
has a pixel and none beyond it has; and CUR is the colour of run K. -/
abbrev PositionInv (P : Params) (r : RowState) : Prop :=
  (r.search = true ∨ r.stage = .full → r.k = 0#5) ∧
  (r.search = true → r.stage = .lg) ∧
  (r.search = false → r.stage ≠ .full →
    r.k.toNat < P.size r.stage ∧ r.cur = runColour r.stage r.k.toNat ∧
    ∀ i : Fin 59, (i.val ≤ P.base r.stage + r.k.toNat → 1 ≤ r.rb[i].toNat) ∧
      (P.base r.stage + r.k.toNat < i.val → r.rb[i] = 0#16))

/-- The results (10_state.md R21, R25, R26; 44_checksum.md R176; 43_lookup.md R158): no row is counted
iff no row has a status; only a decoded frame has status OK; and a decoded number's checksum is valid
and its leading digit is the one its parity word stands for. -/
abbrev ResultInv (P : Params) (f : FrameState) : Prop :=
  (f.rowStatus = .none ↔ f.rowCount = 0#16) ∧
  (f.rowStatus = .ok → f.decoded = true) ∧
  (f.decoded = true →
    checksumValid f.digits = true ∧ lookupParity P f.parity = some f.digits[0])

/-- A pending command is EOL or EOF (46_commands.md R200). -/
abbrev PendingInv (s : State) : Prop := ∀ q, s.pending = some q → isLong q.cmd = true

/-- The block was built with an admitted configuration (00_scope.md R5; 43_lookup.md R153). -/
abbrev Built (s : State) : Prop := s.config.wf = true

/-- Two configurations that differ in EVAL_LATENCY at most. -/
abbrev SameButLatency (P Q : Params) : Prop := Q = { P with evalLatency := Q.evalLatency }

/-- The invariant of the block between edges. -/
abbrev Inv (s : State) : Prop :=
  Built s ∧ StatedInv s ∧ PositionInv s.config s.row ∧ ResultInv s.config s.frame ∧ PendingInv s

/-- The invariant once the block holds values at all (70_reset_and_hazards.md R254); its configuration
is fixed before that. -/
abbrev LiveInv (s : State) : Prop := Built s ∧ (s.resetSeen = true → Inv s)

/-- The source's permanent "not decoded" state (45_row_driver.md R187). -/
abbrev NotDecoded (s : State) : Prop := s.frame.frameDone = true ∧ s.frame.decoded = false

/-- A frame's run is over (70_reset_and_hazards.md R262). -/
abbrev RunOver (s : State) : Prop := s.frame.frameDone = true ∧ s.busy = false

/-- No command of the frame was a protocol error (93 I8). -/
abbrev CleanFrame (s : State) : Prop := s.frame.cmdErr = false

/-- The block can accept a command at the coming edge, unless that edge resets it. -/
abbrev Idle (s : State) : Prop := s.resetSeen = true ∧ s.pending = none

/-- The reset state's contents, whatever the configuration and the host's coming presentations
(10_state.md R49; 70_reset_and_hazards.md R252). -/
abbrev InResetState (s : State) : Prop :=
  s.frame = FrameState.reset ∧ s.row = RowState.reset ∧ s.pending = none ∧ s.resetSeen = true

end Sys2Proof.Machine
end

