-- ==== Sys2Proof/Certificates/Slice0/Obligations.lean ====
section
/-! DEFINITION. The statements for the provers. Each docstring names the rule of spec/ it formalises. -/

open Sys2Proof Sys2Proof.Machine

/-! ### Encoding and the assembler -/

/-- 30_encoding.md R72: the opcode map, all eight words. -/
def Obligations.OpcodeMapDecodes : Prop :=
  decode 0b000#3 = .pix0 ∧ decode 0b001#3 = .pix1 ∧ decode 0b010#3 = .eol ∧
  decode 0b011#3 = .rsv3 ∧ decode 0b100#3 = .sof ∧ decode 0b101#3 = .rsv5 ∧
  decode 0b110#3 = .eof ∧ decode 0b111#3 = .rsv7

/-- 30_encoding.md R70, R73: decoding and encoding are inverse, on every command and on every word. -/
def Obligations.EncodeDecodeRoundTrip : Prop :=
  (∀ i : Instr, i.wf = true → decode (encode i) = i) ∧ ∀ c : CommandWord, encode (decode c) = c

/-- 30_encoding.md R76: `RUN b, n` assembles to n copies of PIX b, and R77: `MODS b, m, w1, …, wk`
assembles to alternating runs of wi · m pixels, the first of colour b. That MODS with no widths (k = 0)
is accepted and assembles to nothing is the model's choice (assumption log 11), not R77's. -/
def Obligations.RunAndModsExpandToPixelRuns : Prop :=
  ∀ P : Params, P.listed = true →
    (∀ b n, ∃ ws, expandLine (.run b n) = .ok ws ∧
      ws.map decode = List.replicate n (pixelInstr b) ∧
      ws.map decode = List.replicate n (pixelCommand P (pixelColour P b))) ∧
    (∀ b m ws, 1 ≤ m → (∀ w ∈ ws, 1 ≤ w) → ∃ cs, expandLine (.mods b m ws) = .ok cs ∧
      cs.map decode = pixelCommands P (alternating (pixelColour P b) (ws.map (· * m))))

/-- 43_lookup.md R153, 93 I2: a configuration whose tables break one of the four properties is refused;
here they are spelled out. That any other configuration with the values 00_scope.md R5 lists boots, and
into the reset state, is the model's reading of 70 R254 (assumption log 9, DEDUCED), and that one with
another value for a parameter of one listed value is refused is the model's choice (assumption log 15,
DESIGN CHOICE). -/
def Obligations.BootRefusesIllFormedTables : Prop :=
  ∀ P : Params,
    let keys := P.tableLG.map (·.code) ++ P.tableR.map (·.code)
    let components := ∀ key ∈ keys,
      ∀ c ∈ [key / 1000, key / 100 % 10, key / 10 % 10, key % 10], 1 ≤ c ∧ c ≤ 4
    let sums := ∀ key ∈ keys, key / 1000 + key / 100 % 10 + key / 10 % 10 + key % 10 = 7
    let leftFunction := (P.tableLG.map (·.code)).Nodup
    let otherFunctions := (P.tableR.map (·.code)).Nodup ∧ (P.tablePar.map (·.word)).Nodup
    let listed := P.guardPositions = 11 ∧ P.sizes = #v[3, 24, 5, 24, 3] ∧ P.clampMax = 4 ∧
      P.rowCntBits = 16 ∧ P.black = true ∧ P.white = false
    (¬ (components ∧ sums ∧ leftFunction ∧ otherFunctions) → boot P = .refused .illFormedTables) ∧
    (components → sums → leftFunction → otherFunctions →
      (¬ listed → boot P = .refused .unlistedParameters) ∧
      (listed → ∃ t, boot P = .next t ∧ InResetState t ∧ t.config = P ∧ Built t)) ∧
    Built State.reset

/-- 10_state.md R39, 43_lookup.md R154: the tables, and with them the whole configuration, are fixed: no
command writes them, no edge does, and reset does not; and 10_state.md R41: no register shows them. -/
def Obligations.ConfigurationIsReadOnly : Prop :=
  (∀ (i : Instr) (s t : State), exec i s = .next t → t.config = s.config) ∧
  (∀ s t : State, step s = .next t → t.config = s.config) ∧
  ∀ (s : State) (P : Params) (a : RegAddr), regView { s with config := P } a = regView s a

/-! ### Commands -/

/-- 46_commands.md R207 to R209: each reserved word sets CMD_ERR and changes nothing else, in every
state, with the rules' examples. -/
def Obligations.ReservedWordsSetOnlyCmdErr : Prop :=
  (∀ i ∈ [Instr.rsv3, .rsv5, .rsv7], ∀ s : State, s.resetSeen = true →
    exec i s = .next { s with frame := { s.frame with cmdErr := true } }) ∧
  decode 0b011#3 = .rsv3 ∧ decode 0b101#3 = .rsv5 ∧ decode 0b111#3 = .rsv7 ∧
  (∃ t, exec .rsv3 State.reset = .next t ∧ regView t 0#3 = 0x00000004#32) ∧
  (∃ t, commitAll [.pix1, .rsv5] State.reset = .next t ∧
    t.row.col.toNat = 1 ∧ (t.row.rb[0]).toNat = 1 ∧ t.frame.cmdErr = true) ∧
  (∃ t, commitAll [.eof, .rsv7] State.reset = .next t ∧
    t.frame.frameDone = true ∧ t.frame.cmdErr = true)

/-- 46_commands.md R201: what PIX0 (a WHITE pixel, R202) and PIX1 (a BLACK pixel, R203) do, in each of
the four conditions, with everything else unchanged. -/
def Obligations.PixelCommandsCommit : Prop :=
  ∀ (i : Instr) (p : Colour) (s : State), s.resetSeen = true → s.config.listed = true →
    (i = .pix0 ∧ p = .white ∨ i = .pix1 ∧ p = .black) →
    (s.frame.frameDone = true →
      exec i s = .next { s with frame := { s.frame with cmdErr := true } }) ∧
    (s.frame.frameDone = false → s.frame.decoded = true → exec i s = .next s) ∧
    (s.frame.frameDone = false → s.frame.decoded = false → s.row.col.toNat = 65535 →
      exec i s = .next { s with row := { s.row with ovf := true } }) ∧
    (s.frame.frameDone = false → s.frame.decoded = false → s.row.col.toNat ≠ 65535 →
      exec i s =
        .next { s with row := segStep s.config p { s.row with col := s.row.col + 1#16 } })

/-- 46_commands.md R202, R203: a WHITE pixel while locating in stage 0 and any pixel after stage 5
advance COL only; the first BLACK pixel of a row starts the left guard. -/
def Obligations.PixelCornerCases : Prop :=
  ∀ s : State, Inv s → s.resetSeen = true → s.frame.frameDone = false → s.frame.decoded = false →
    s.row.col.toNat ≠ 65535 →
    (s.row.stage = .lg → s.row.search = true →
      exec .pix0 s = .next { s with row := { s.row with col := s.row.col + 1#16 } } ∧
      exec .pix1 s = .next { s with row := { s.row with
        col := s.row.col + 1#16, search := false, cur := .black, k := 0#5,
        rb := (Vector.replicate 59 0#16).set 0 1#16 } }) ∧
    (s.row.stage = .full → ∀ i ∈ [Instr.pix0, .pix1],
      exec i s = .next { s with row := { s.row with col := s.row.col + 1#16 } })

/-- 46_commands.md R204 with 45_row_driver.md R188: what EOL does in each frame condition. After EOF
it sets CMD_ERR; after DECODED it does nothing; otherwise it counts the row, stores the outcome's
class, writes DECODED, DIGITS and PARITY only for an OK row, and clears the row state. Nothing else
changes. -/
def Obligations.EolCommits : Prop :=
  ∀ s : State, s.resetSeen = true → s.config.listed = true →
    let nextCount := BitVec.ofNat 16 (min (s.frame.rowCount.toNat + 1) 65535)
    (s.frame.frameDone = true →
      exec .eol s = .next { s with frame := { s.frame with cmdErr := true } }) ∧
    (s.frame.frameDone = false → s.frame.decoded = true → exec .eol s = .next s) ∧
    (s.frame.frameDone = false → s.frame.decoded = false →
      (∀ d p, rowOutcome s.config s.row = .ok d p →
        exec .eol s = .next { s with
          frame := { s.frame with
            rowCount := nextCount,
            rowStatus := .ok, decoded := true, digits := d, parity := p },
          row := RowState.reset }) ∧
      (∀ c, rowOutcome s.config s.row = .fail c →
        exec .eol s = .next { s with
          frame := { s.frame with
            rowCount := nextCount,
            rowStatus := c.status },
          row := RowState.reset }))

/-- 46_commands.md R205: SOF clears all frame and row state in every state, and 70 R252: the state
after it is the reset state; SOF is accepted only when nothing is pending, while reset also aborts a
pending command. -/
def Obligations.SofRestoresTheResetState : Prop :=
  (∀ s : State, s.resetSeen = true →
    exec .sof s = .next { s with frame := FrameState.reset, row := RowState.reset }) ∧
  (∀ (s : State) (p : PortIn) (hs : List PortIn), Idle s → p.rst = false → p.inValid = true →
    decode p.inCmd = .sof →
    step { s with host := p :: hs } = step { s with host := { p with rst := true } :: hs } ∧
    ∃ t, step { s with host := p :: hs } = .next t ∧ InResetState t) ∧
  (∀ (s : State) (p : PortIn) (hs : List PortIn) (q : Pending), s.resetSeen = true →
    s.pending = some q → p.rst = false → p.inValid = true → decode p.inCmd = .sof →
    step { s with host := p :: hs } = step { s with host := { p with inValid := false } :: hs } ∧
    ∃ t, step { s with host := { p with rst := true } :: hs } = .next t ∧ InResetState t)

/-- 46_commands.md R206: what EOF does. A second EOF sets CMD_ERR; an open undecoded row is evaluated
first; then FRAME_DONE is set and the row state is clear. Nothing else changes. -/
def Obligations.EofCommits : Prop :=
  ∀ s : State, s.resetSeen = true → s.config.listed = true →
    let nextCount := BitVec.ofNat 16 (min (s.frame.rowCount.toNat + 1) 65535)
    (s.frame.frameDone = true →
      exec .eof s = .next { s with frame := { s.frame with cmdErr := true } }) ∧
    (s.frame.frameDone = false → (s.frame.decoded = true ∨ s.row.col.toNat = 0) →
      exec .eof s = .next { s with
        frame := { s.frame with frameDone := true }, row := RowState.reset }) ∧
    (s.frame.frameDone = false → s.frame.decoded = false → 0 < s.row.col.toNat →
      (∀ d p, rowOutcome s.config s.row = .ok d p →
        exec .eof s = .next { s with
          frame := { s.frame with
            rowCount := nextCount,
            rowStatus := .ok, decoded := true, digits := d, parity := p, frameDone := true },
          row := RowState.reset }) ∧
      (∀ c, rowOutcome s.config s.row = .fail c →
        exec .eof s = .next { s with
          frame := { s.frame with
            rowCount := nextCount,
            rowStatus := c.status, frameDone := true },
          row := RowState.reset }))

/-- 60_exceptions.md R220, R236: after the first reset every command completes in every state; before
it (70 R254) every command faults. -/
def Obligations.EveryCommandCompletes : Prop :=
  ∀ (i : Instr) (s : State),
    (s.resetSeen = true → ∃ t, exec i s = .next t ∧
      t.pending = s.pending ∧ t.resetSeen = true ∧ t.config = s.config ∧
      t.host = s.host) ∧
    (s.resetSeen = false → exec i s = .fault .commandBeforeReset)

/-! ### The row outcome -/

/-- 60_exceptions.md R229 with 43_lookup.md R158: the outcome of a row is the first of ROW_TOO_LONG,
STRUCT_FAIL, PATTERN_FAIL at any of the twelve positions, PARITY_FAIL, CHECKSUM_FAIL, and OK only when
none applies; the digits and the parity word are those the tables give, in position order. -/
def Obligations.RowOutcomePriority : Prop :=
  ∀ (P : Params) (r : RowState),
    let G := guardSum (groupRuns P r.rb .lg) (groupRuns P r.rb .mg) (groupRuns P r.rb .rg)
    let left := patternCodes P G (groupRuns P r.rb .lc)
    let right := patternCodes P G (groupRuns P r.rb .rc)
    let absent := (∃ pc ∈ left, lookupLeft P pc = none) ∨ ∃ pc ∈ right, lookupRight P pc = none
    let letters := left.filterMap fun pc => (lookupLeft P pc).map (·.2)
    let found := left.filterMap (fun pc => (lookupLeft P pc).map (·.1)) ++
      right.filterMap fun pc => lookupRight P pc
    (P.listed = true → left.length = 6 ∧ right.length = 6) ∧
    (r.ovf = true → rowOutcome P r = .fail .rowTooLong) ∧
    (r.ovf = false → r.stage ≠ .full → rowOutcome P r = .fail .structFail) ∧
    (r.ovf = false → r.stage = .full →
      (absent → rowOutcome P r = .fail .patternFail) ∧
      (¬ absent → lookupParity P (parityWord letters) = none →
        rowOutcome P r = .fail .parityFail) ∧
      (¬ absent → ∀ lead, lookupParity P (parityWord letters) = some lead →
        (checksum (digitWord (lead :: found)) % 10 ≠ 0 →
          rowOutcome P r = .fail .checksumFail) ∧
        (checksum (digitWord (lead :: found)) % 10 = 0 →
          rowOutcome P r = .ok (digitWord (lead :: found)) (parityWord letters))))

/-- 10_state.md R25: ROW_STATUS, as STATUS[7:4] shows it, is the class of the most recently evaluated
row of the frame, with the codes of R25's table: after an evaluating EOL or EOF it is 6 for an overflowed
row, else 2 for a row whose groups are not all filled, else 3 for an absent pattern code, else 4 for an
absent parity word, else 5 for a failing checksum, else 1 (60_exceptions.md R221 to R225, R229). No
other command but SOF writes it, SOF and reset make it 0, it is 0 in a state of the invariant iff no
row has been evaluated, and the codes 7 to 15 never stand in it. -/
def Obligations.RowStatusCodes : Prop :=
  let field (s : State) : BitVec 4 := (regView s 0#3).extractLsb' 4 4
  let evaluates (i : Instr) (s : State) : Prop := s.frame.frameDone = false ∧
    s.frame.decoded = false ∧ (i = .eol ∨ i = .eof ∧ 0 < s.row.col.toNat)
  (∀ (i : Instr) (s : State), s.resetSeen = true → evaluates i s →
    let P := s.config
    let rb := s.row.rb
    let G := guardSum (groupRuns P rb .lg) (groupRuns P rb .mg) (groupRuns P rb .rg)
    let left := patternCodes P G (groupRuns P rb .lc)
    let right := patternCodes P G (groupRuns P rb .rc)
    let absent := (∃ pc ∈ left, lookupLeft P pc = none) ∨ ∃ pc ∈ right, lookupRight P pc = none
    let letters := left.filterMap fun pc => (lookupLeft P pc).map (·.2)
    let found := left.filterMap (fun pc => (lookupLeft P pc).map (·.1)) ++
      right.filterMap fun pc => lookupRight P pc
    ∃ t, exec i s = .next t ∧
      (s.row.ovf = true → field t = 6#4) ∧
      (s.row.ovf = false → s.row.stage ≠ .full → field t = 2#4) ∧
      (s.row.ovf = false → s.row.stage = .full →
        (absent → field t = 3#4) ∧
        (¬ absent → lookupParity P (parityWord letters) = none → field t = 4#4) ∧
        (¬ absent → ∀ lead, lookupParity P (parityWord letters) = some lead →
          (checksum (digitWord (lead :: found)) % 10 ≠ 0 → field t = 5#4) ∧
          (checksum (digitWord (lead :: found)) % 10 = 0 → field t = 1#4)))) ∧
  (∀ (i : Instr) (s t : State), exec i s = .next t →
    (¬ evaluates i s → i ≠ .sof → field t = field s) ∧ (i = .sof → field t = 0#4)) ∧
  (∀ s t : State, s.portIn.rst = true → step s = .next t → field t = 0#4) ∧
  (∀ s : State, Inv s → (field s = 0#4 ↔ s.frame.rowCount = 0#16)) ∧
  (∀ s : State, (field s).toNat ≤ 6) ∧
  RowStatus.code .none = 0#4 ∧ RowStatus.code .ok = 1#4 ∧ RowStatus.code .structFail = 2#4 ∧
  RowStatus.code .patternFail = 3#4 ∧ RowStatus.code .parityFail = 4#4 ∧
  RowStatus.code .checksumFail = 5#4 ∧ RowStatus.code .rowTooLong = 6#4

/-- 60_exceptions.md R226: CMD_ERR is set by exactly the four listed causes, such a commit changes
nothing else and stops nothing, it stays set until SOF or reset, and a later SOF starts a new frame
normally. -/
def Obligations.CmdErrIsStickyAndHasFourCauses : Prop :=
  (∀ (i : Instr) (s : State), s.resetSeen = true → ∃ t, exec i s = .next t) ∧
  (∀ s : State, s.portIn.rst = true → ∃ t, step s = .next t ∧ t.frame.cmdErr = false) ∧
  (∀ s t : State, PendingInv s → s.portIn.rst = false → step s = .next t →
    s.frame.cmdErr = true → t.frame.cmdErr = true ∨
      s.pending = none ∧ s.portIn.inValid = true ∧ decode s.portIn.inCmd = .sof) ∧
  ∀ (i : Instr) (s t : State), exec i s = .next t →
    let cause := i ∈ [Instr.rsv3, .rsv5, .rsv7] ∨
      s.frame.frameDone = true ∧ i ∈ [Instr.pix0, .pix1, .eol, .eof]
    (cause → t = { s with frame := { s.frame with cmdErr := true } }) ∧
    (¬ cause → i ≠ .sof → t.frame.cmdErr = s.frame.cmdErr) ∧
    (i = .sof → t.frame = FrameState.reset ∧ t.row = RowState.reset)

/-- 10_state.md R21, R27, R28: DECODED, DIGITS and PARITY change only by SOF and by the one commit of
an OK row, which sets them all together. -/
def Obligations.ResultsAreWrittenOnlyByAnOkRow : Prop :=
  ∀ (i : Instr) (s t : State), exec i s = .next t → i ≠ .sof →
    (t.frame.decoded = s.frame.decoded ∧ t.frame.digits = s.frame.digits ∧
      t.frame.parity = s.frame.parity) ∨
    ((i = .eol ∨ i = .eof) ∧ s.frame.frameDone = false ∧ s.frame.decoded = false ∧
      t.frame.decoded = true ∧ t.frame.rowStatus = .ok ∧
      rowOutcome s.config s.row = .ok t.frame.digits t.frame.parity)

/-- 10_state.md R26: ROW_COUNT counts exactly the evaluated rows, saturates at 65535, and is cleared
by SOF. -/
def Obligations.RowCountCountsEvaluatedRows : Prop :=
  ∀ (i : Instr) (s t : State), s.config.listed = true → exec i s = .next t →
    let evaluated := s.frame.frameDone = false ∧ s.frame.decoded = false ∧
      (i = .eol ∨ i = .eof ∧ 0 < s.row.col.toNat)
    (evaluated → t.frame.rowCount.toNat = min (s.frame.rowCount.toNat + 1) 65535) ∧
    (¬ evaluated → i ≠ .sof → t.frame.rowCount = s.frame.rowCount) ∧
    (i = .sof → t.frame.rowCount = 0#16)

/-- 10_state.md R38, R33, R34: an accepted PIX advances COL by one, unless it is discarded (after
FRAME_DONE or DECODED, 46_commands.md R201) or overflows, which sets OVF and moves nothing else; a
reserved word leaves the row state; EOL, EOF and SOF either clear it or leave it, and in every state of
the invariant they and reset leave COL at 0. So COL never wraps. -/
def Obligations.ColCountsPixelsAndNeverWraps : Prop :=
  (∀ (i : Instr) (s t : State), exec i s = .next t →
    (i ∈ [Instr.pix0, .pix1] → s.frame.frameDone = false → s.frame.decoded = false →
      (s.row.col.toNat < 65535 →
        t.row.col.toNat = s.row.col.toNat + 1 ∧ t.row.ovf = s.row.ovf) ∧
      (s.row.col.toNat = 65535 → t.row = { s.row with ovf := true })) ∧
    (i ∈ [Instr.pix0, .pix1] → s.frame.frameDone = true ∨ s.frame.decoded = true →
      t.row = s.row) ∧
    (i ∈ [Instr.rsv3, .rsv5, .rsv7] → t.row = s.row) ∧
    (i ∈ [Instr.eol, .eof, .sof] →
      (t.row = s.row ∨ t.row = RowState.reset) ∧ (Inv s → t.row.col = 0#16 ∧ t.row.ovf = false))) ∧
  ∀ s t : State, s.portIn.rst = true → step s = .next t → t.row.col = 0#16 ∧ t.row.ovf = false

/-- 46_commands.md R201, 20_memory.md R54, 70 R262: once DECODED = 1, the result is final until SOF or
reset, whatever else the host sends. -/
def Obligations.DecodedResultIsFinal : Prop :=
  ∀ (cs : List Instr) (s : State), s.resetSeen = true → s.frame.decoded = true →
    (∀ c ∈ cs, c ≠ .sof) → ∃ t, commitAll cs s = .next t ∧
      t.frame.decoded = true ∧ t.frame.digits = s.frame.digits ∧
      t.frame.parity = s.frame.parity ∧ t.frame.rowStatus = s.frame.rowStatus ∧
      t.frame.rowCount = s.frame.rowCount ∧
      ∀ a ∈ [1#3, 2#3, 3#3, 4#3, 5#3], regView t a = regView s a

/-- 45_row_driver.md R187: the "not decoded" state lasts until SOF or reset, every other command in it
only sets CMD_ERR, and the EOF that enters it leaves CMD_ERR as it was. -/
def Obligations.NotDecodedIsPermanent : Prop :=
  (∀ (cs : List Instr) (s : State), s.resetSeen = true → NotDecoded s → cs ≠ [] →
    (∀ c ∈ cs, c ≠ .sof) →
    commitAll cs s = .next { s with frame := { s.frame with cmdErr := true } }) ∧
  (∀ s t : State, s.frame.frameDone = false → exec .eof s = .next t → NotDecoded t →
    t.frame.cmdErr = s.frame.cmdErr)

/-! ### The edge, the handshake and reset -/

/-- A step runs the decoded command (46_commands.md R200): at an edge without reset, with nothing
pending, a presented word is decoded and committed, the host's presentation taken; EOL and EOF wait
out a latency above 0 first; and `withFetchWord` presents a word so that the very next step commits
it. -/
def Obligations.StepRunsTheDecodedCommand : Prop :=
  (∀ (s : State) (i : Instr), Idle s → s.portIn.rst = false → s.portIn.inValid = true →
    decode s.portIn.inCmd = i → (isLong i = false ∨ s.config.evalLatency = 0) →
    step s = exec i { s with host := s.host.tail }) ∧
  (∀ (s : State) (i : Instr), Idle s → s.portIn.rst = false → s.portIn.inValid = true →
    decode s.portIn.inCmd = i → isLong i = true → 0 < s.config.evalLatency →
    step s = .next { s with
      host := s.host.tail, pending := some ⟨i, s.config.evalLatency - 1⟩ }) ∧
  (∀ (s : State) (i : Instr) (n w : Nat), s.resetSeen = true → decodeTableWord n w = some i →
    step (s.withFetchWord n w) =
      exec i { s with
        pending := none, host := s.host.tail, config := { s.config with evalLatency := 0 } })

/-- 46_commands.md R200, R210: an edge with nothing presented and nothing pending changes nothing; a
pending command counts down and then commits, and what is presented meanwhile is ignored. -/
def Obligations.EdgeIdlesOrCountsDown : Prop :=
  ∀ s : State, s.resetSeen = true → s.portIn.rst = false →
    (s.pending = none → s.portIn.inValid = false →
      step s = .next { s with host := s.host.tail }) ∧
    (∀ i n, s.pending = some ⟨i, n + 1⟩ →
      step s = .next { s with host := s.host.tail, pending := some ⟨i, n⟩ }) ∧
    (∀ i, s.pending = some ⟨i, 0⟩ → ∃ t,
      exec i { s with host := s.host.tail } = .next t ∧ step s = .next { t with pending := none })

/-- 46_commands.md R200, 70 R257: an EOL or EOF accepted at edge t commits at edge t + EVAL_LATENCY;
BUSY = 1 between those edges, nothing else is accepted, and every read returns the state from
before the command but for BUSY. -/
def Obligations.LongCommandCommitsAfterTheLatency : Prop :=
  ∀ (s : State) (i : Instr), Idle s → isLong i = true → s.portIn.inValid = true →
    decode s.portIn.inCmd = i →
    (∀ p ∈ s.host.take (s.config.evalLatency + 1), p.rst = false) →
    (∀ k, k < s.config.evalLatency →
      Host.Core.run Sys2Proof.core (k + 1) s = .next { s with
        pending := some ⟨i, s.config.evalLatency - 1 - k⟩, host := s.host.drop (k + 1) }) ∧
    Host.Core.run Sys2Proof.core (s.config.evalLatency + 1) s =
      exec i { s with host := s.host.drop (s.config.evalLatency + 1) }

/-- 70 R250, R251: an edge with `rst = 1` gives the reset state from every state, a pending command is
dropped, a second reset edge changes nothing more, and in that cycle `in_ready = 0`, the level outputs
are 0 and every read gives 0, or, before the first reset edge, faults (70 R254, 93 I4). That `in_ready`
and the levels are 0 in such a cycle before the first reset edge is the model's reading (assumption log
16). -/
def Obligations.ResetWinsOverEverything : Prop :=
  ∀ s : State, s.portIn.rst = true →
    step s = .next { s with frame := FrameState.reset, row := RowState.reset, pending := none,
                            resetSeen := true, host := s.host.tail } ∧
    portOut s = .ok ⟨false, if s.resetSeen then .ok 0#32 else .error .readBeforeReset,
      false, false, false⟩ ∧
    (∀ t, step s = .next t → t.portIn.rst = true →
      step t = .next { t with host := t.host.tail })

/-- 70 R254, 93 I4: before the first reset edge a presented command and a read fault, an idle edge
leaves the state without values, and a reset edge gives the reset state. The read port faults in every
cycle; that the other outputs have none in a cycle with `rst = 0`, and are there in one with `rst = 1`,
is the model's reading (assumption log 16). -/
def Obligations.NothingRunsBeforeTheFirstReset : Prop :=
  ∀ s : State, s.resetSeen = false →
    (∀ a, regRead s a = .error .readBeforeReset) ∧
    readPort s = .error .readBeforeReset ∧
    (s.portIn.rst = false → portOut s = .error .readBeforeReset) ∧
    (s.portIn.rst = true → ∃ o, portOut s = .ok o ∧ o.rdData = .error .readBeforeReset) ∧
    (s.portIn.rst = false → s.portIn.inValid = true → step s = .fault .commandBeforeReset) ∧
    (s.portIn.rst = false → s.portIn.inValid = false → ∃ t, step s = .next t ∧
      t.resetSeen = false) ∧
    (s.portIn.rst = true → ∃ t, step s = .next t ∧ InResetState t)

/-- 10_state.md R49: every element after reset, and every register of the view reads 0. -/
def Obligations.ResetValues : Prop :=
  State.reset.frame.decoded = false ∧ State.reset.frame.frameDone = false ∧
  State.reset.frame.cmdErr = false ∧ State.reset.pending = none ∧ State.reset.busy = false ∧
  State.reset.frame.rowStatus.code = 0#4 ∧ State.reset.frame.rowCount = 0#16 ∧
  (∀ i : Fin 13, State.reset.frame.digits[i] = 0) ∧ State.reset.frame.parity = 0#6 ∧
  State.reset.row.stage.code = 0#3 ∧ State.reset.row.search = true ∧ State.reset.row.k = 0#5 ∧
  State.reset.row.cur = .black ∧ State.reset.row.col = 0#16 ∧ State.reset.row.ovf = false ∧
  (∀ i : Fin 59, State.reset.row.rb[i] = 0#16) ∧
  ∀ a : RegAddr, regView State.reset a = 0#32

/-- 70 R256, 46_commands.md R200: whatever the host presents at the coming edges, the machine's frame
and row state follow the stream of the commands it accepts, and a command presented in a busy window
is dropped. When the last accepted command is still pending, all but it have committed. -/
def Obligations.EdgesFollowTheAcceptedCommands : Prop :=
  ∀ s : State, Idle s → (∀ p ∈ s.host, p.rst = false) →
    ∃ t u, Host.Core.run Sys2Proof.core s.host.length s = .next t ∧
      commitAll (acceptedFrom s.config.evalLatency 0 s.host) s = .next u ∧
      (t.pending = none → t.frame = u.frame ∧ t.row = u.row) ∧
      (∀ q, t.pending = some q → ∃ before v,
        acceptedFrom s.config.evalLatency 0 s.host = before ++ [q.cmd] ∧
        commitAll before s = .next v ∧ t.frame = v.frame ∧ t.row = v.row)

/-- 70 R260, 93 I3: "the end state of every command stream is the same for every value" of
EVAL_LATENCY, for a host that waits out each busy window: the run ends in the state that committing
the stream gives, and two blocks that differ in the latency alone end with the same frame and row state. -/
def Obligations.EndStateIsIndependentOfTheLatency : Prop :=
  (∀ (cs : List Instr) (s : State), Idle s → s.host = presentStream s.config.evalLatency cs →
    Host.Core.run Sys2Proof.core s.host.length s = commitAll cs { s with host := [] }) ∧
  (∀ (cs : List Instr) (s s' : State), Idle s → Idle s' → SameButLatency s.config s'.config →
    s.frame = s'.frame → s.row = s'.row →
    s.host = presentStream s.config.evalLatency cs →
    s'.host = presentStream s'.config.evalLatency cs →
    ∃ t t', Host.Core.run Sys2Proof.core s.host.length s = .next t ∧
      Host.Core.run Sys2Proof.core s'.host.length s' = .next t' ∧
      t.frame = t'.frame ∧ t.row = t'.row ∧ t.pending = none ∧ t'.pending = none)

/-- 10_state.md R36: the invariants hold at reset. -/
def Obligations.ResetStateMeetsTheInvariant : Prop := LiveInv State.reset ∧ Inv State.reset

/-- 10_state.md R36: the seven invariants between commits, with those of R30, R31, R104, R105, R21,
R25, R26, R176 and R200 that they rest on, are kept by every step from every state that meets them. -/
def Obligations.EveryStepKeepsTheInvariant : Prop :=
  ∀ s t : State, LiveInv s → step s = .next t → LiveInv t

/-- 10_state.md R36: the seven invariants hold between the commits of every command stream from the
reset state. -/
def Obligations.StatedInvariantsHoldBetweenCommits : Prop :=
  ∀ (cs : List Instr) (s t : State), Built s → InResetState s → commitAll cs s = .next t → StatedInv t

/-- 44_checksum.md R176, 30_encoding.md R82, 43_lookup.md R158: after any stream of commands from
the reset state, a decoded number's checksum is divisible by 10, and its leading digit is the one the
parity table gives for PARITY. -/
def Obligations.DecodedNumbersAreValid : Prop :=
  ∀ (cs : List Instr) (s t : State), Built s → InResetState s → commitAll cs s = .next t →
    t.frame.decoded = true →
    checksum t.frame.digits % 10 = 0 ∧ lookupParity s.config t.frame.parity = some t.frame.digits[0]

/-! ### The segmenter -/

/-- 40_segmenter.md R109: the pixel-serial step and the function-level segmenter agree. -/
def Obligations.SegStepAgreesWithSegment : Prop :=
  ∀ (P : Params) (s : List Colour), P.listed = true → s.length ≤ 65535 →
    ((segSteps P s RowState.reset).stage = .full ↔ (segment P s).1 = true) ∧
    ((segment P s).1 = true → (segment P s).2 =
      [Stage.lg, .lc, .mg, .rc, .rg].map (groupRuns P (segSteps P s RowState.reset).rb))

/-- 40_segmenter.md R105, R106, R110: a row segments with the groups gs iff it is any number of white
pixels, then 59 alternating runs that begin with black and have the lengths of gs, then a white
closing pixel, then anything. Guard widths are not checked. -/
def Obligations.SegmentedRowsAreExactlyFiftyNineRuns : Prop :=
  ∀ (P : Params) (s : List Colour) (gs : List (List Nat)), P.listed = true →
    (segment P s = (true, gs) ↔
      gs.map List.length = [3, 24, 5, 24, 3] ∧ (∀ w ∈ gs.flatten, 1 ≤ w) ∧
      ∃ f rest, s = List.replicate f .white ++ alternating .black gs.flatten ++ .white :: rest)

/-- 40_segmenter.md R104: when a stage and all before it are filled, the pixel at the index where the
next stage starts has that stage's start colour, so its search stops at once. -/
def Obligations.NextStageStartsOnItsColour : Prop :=
  ∀ (P : Params) (s : List Colour) (n : Nat) (f : FillResult) (t : Stage), P.listed = true →
    (fillStages P s 0 Stage.groups)[n]? = some f → Stage.groups[n + 1]? = some t →
    (∀ m ≤ n, ∀ g, (fillStages P s 0 Stage.groups)[m]? = some g → g.filled = true) →
    s[f.next]? = some t.start ∧ locate t.start f.next (s.drop f.next) = (f.next, s.drop f.next)

/-- 40_segmenter.md R107: success needs 60 pixels from the first black one; the row of 59 one-pixel
runs and a closing pixel is the shortest that succeeds; a shorter row always fails structurally. -/
def Obligations.ShortRowsFailStructurally : Prop :=
  ∀ P : Params, P.listed = true →
    (∀ s : List Colour, (segment P s).1 = true → s.findIdx (· == .black) + 60 ≤ s.length) ∧
    (segment P (alternating .black (List.replicate 60 1))).1 = true ∧
    (alternating .black (List.replicate 60 1)).length = 60 ∧
    (∀ s : List Colour, s.length < 60 → decodeRow P s = .fail .structFail)

/-- 40_segmenter.md R106: whatever follows the right guard's closing pixel has no effect. -/
def Obligations.PixelsAfterTheSymbolAreIgnored : Prop :=
  ∀ (P : Params) (s extra : List Colour), P.listed = true → (segment P s).1 = true →
    segment P (s ++ extra) = segment P s ∧ decodeRow P (s ++ extra) = decodeRow P s

/-! ### Module width and quantizer -/

/-- 41_module_width.md R120: G is the sum of the three, five and three guard runs of RB; R122: when the
row is segmented, each guard run is at least 1 and 11 ≤ G ≤ WMAX. -/
def Obligations.GuardSumIsBounded : Prop :=
  (∀ (P : Params) (rb : RunBuffer), P.listed = true →
    guardSum (groupRuns P rb .lg) (groupRuns P rb .mg) (groupRuns P rb .rg) =
      (rb[0].toNat + rb[1].toNat + rb[2].toNat) +
      (rb[27].toNat + rb[28].toNat + rb[29].toNat + rb[30].toNat + rb[31].toNat) +
      (rb[56].toNat + rb[57].toNat + rb[58].toNat)) ∧
  ∀ s : State, Inv s → s.row.stage = .full →
    let G := guardSum (groupRuns s.config s.row.rb .lg) (groupRuns s.config s.row.rb .mg)
      (groupRuns s.config s.row.rb .rg)
    (∀ t ∈ [Stage.lg, .mg, .rg], ∀ w ∈ groupRuns s.config s.row.rb t, 1 ≤ w) ∧
    (runsOf s.row.rb).sum ≤ s.row.col.toNat ∧ 11 ≤ G ∧ G ≤ 65535

/-- 10_state.md R35, 45_row_driver.md R188, 42_quantizer.md R137: left digit j has its quartet at
RB[3 + 4(j−1) ..] and right digit j at RB[32 + 4(j−7) ..], and its pattern code is the components of
that quartet with the weights 1000, 100, 10, 1. -/
def Obligations.CodesComeFromTheQuartets : Prop :=
  ∀ (P : Params) (rb : RunBuffer) (G j : Nat) (h : j < 6), P.listed = true →
    let code (base : Nat) (hb : base + 4 * j + 3 < 59) : Nat :=
      let c := quantize P ⟨rb[base + 4 * j].toNat, rb[base + 4 * j + 1].toNat,
        rb[base + 4 * j + 2].toNat, rb[base + 4 * j + 3].toNat⟩ G
      1000 * c.c0 + 100 * c.c1 + 10 * c.c2 + c.c3
    (patternCodes P G (groupRuns P rb .lc))[j]? = some (code 3 (by omega)) ∧
    (patternCodes P G (groupRuns P rb .rc))[j]? = some (code 32 (by omega)) ∧
    (patternCodes P G (groupRuns P rb .lc)).length = 6 ∧
    (patternCodes P G (groupRuns P rb .rc)).length = 6

/-- 41_module_width.md R124: the exact integer forms of the source's operations on the ratios
ra = na/G and rb = nb/G, in the rational numbers. -/
def Obligations.ExactRatioForms : Prop :=
  ∀ na nb G : Nat, 0 < G →
    let ra : ℚ := (na : ℚ) / G
    let rb : ℚ := (nb : ℚ) / G
    (ra < 1 ↔ na < G) ∧
    ⌊ra⌋ = ((na / G : Nat) : ℤ) ∧
    (ra - ⌊ra⌋ = ((na % G : Nat) : ℚ) / G ∧ na % G < G) ∧
    (ra - ⌊ra⌋ < rb - ⌊rb⌋ ↔ na % G < nb % G) ∧
    (⌊ra⌋ + ⌊rb⌋ < ⌊ra + rb⌋ ↔ na % G + nb % G ≥ G) ∧
    (0 < na + nb →
      (if 0 ≤ ra + rb - 1 then ⌊ra + rb - 1⌋ else ⌈ra + rb - 1⌉) = ((sumLessOne na nb G : Nat) : ℤ))

/-- 42_quantizer.md R133, R134: the pair's two values keep the truncated sum of the pair's ratios
whenever that sum is at least 1, and are 1 and 0 when it is not; a smaller ratio below 1 becomes
exactly 1 (the first of two equal ones). -/
def Obligations.PairKeepsItsTruncatedSum : Prop :=
  ∀ (tb : TieBreak) (na nb nn G : Nat), 0 < G →
    (G ≤ na + nb → (qPair tb na nb nn G).1 + (qPair tb na nb nn G).2 = (na + nb) / G) ∧
    (na + nb < G → qPair tb na nb nn G = (1, 0) ∨ qPair tb na nb nn G = (0, 1)) ∧
    (na < G → na ≤ nb → (qPair tb na nb nn G).1 = 1) ∧
    (nb < G → nb < na → (qPair tb na nb nn G).2 = 1)

/-- 42_quantizer.md R134, R135: with both ratios at least 1, each value is its ratio truncated, or one
more; the one of the two with the larger remainder rounds up when the remainders reach G; a tie
rounds up the first unless, under NEIGHBOUR, the neighbour's remainder exceeds it; and for pair 1,
whose neighbour is its own first run, a tie always rounds up the first. And R138: the quartet's four
components are the clamped values of the pairs (n0, n1) and (n2, n3), n = 11 · run, where the third
run is the neighbour of both (R135, 90 C7). -/
def Obligations.CarryAndTieBreak : Prop :=
  (∀ (tb : TieBreak) (na nb nn G : Nat), 0 < G → G ≤ na → G ≤ nb →
    (na % G + nb % G < G → qPair tb na nb nn G = (na / G, nb / G)) ∧
    (na % G + nb % G ≥ G → na % G > nb % G → qPair tb na nb nn G = (na / G + 1, nb / G)) ∧
    (na % G + nb % G ≥ G → nb % G > na % G → qPair tb na nb nn G = (na / G, nb / G + 1)) ∧
    (na % G + nb % G ≥ G → na % G = nb % G →
      qPair .neighbour na nb nn G =
        (if nn % G > na % G then (na / G, nb / G + 1) else (na / G + 1, nb / G)) ∧
      qPair .first na nb nn G = (na / G + 1, nb / G) ∧
      qPair tb na nb na G = (na / G + 1, nb / G))) ∧
  ∀ (P : Params) (q : Quartet) (G : Nat), P.listed = true →
    let clamp (v : Nat) : Nat := if P.lowerClamp = true then max (min v 4) 1 else min v 4
    let pair0 := qPair P.tieBreak (11 * q.r0) (11 * q.r1) (11 * q.r2) G
    let pair1 := qPair P.tieBreak (11 * q.r2) (11 * q.r3) (11 * q.r2) G
    quantize P q G = ⟨clamp pair0.1, clamp pair0.2, clamp pair1.1, clamp pair1.2⟩

/-- 42_quantizer.md R136: every component is at most 4; with LOWER_CLAMP it is at least 1; without it,
a 0 component comes only from step 2 with a pair sum below two modules. -/
def Obligations.ComponentsAreClamped : Prop :=
  ∀ (P : Params) (q : Quartet) (G : Nat), P.listed = true → 0 < G →
    let c := quantize P q G
    (c.c0 ≤ 4 ∧ c.c1 ≤ 4 ∧ c.c2 ≤ 4 ∧ c.c3 ≤ 4) ∧
    (P.lowerClamp = true → 1 ≤ c.c0 ∧ 1 ≤ c.c1 ∧ 1 ≤ c.c2 ∧ 1 ≤ c.c3) ∧
    (P.lowerClamp = false → (c.c0 = 0 ∨ c.c1 = 0) →
      (11 * q.r0 < G ∨ 11 * q.r1 < G) ∧ 11 * q.r0 + 11 * q.r1 < 2 * G) ∧
    (P.lowerClamp = false → (c.c2 = 0 ∨ c.c3 = 0) →
      (11 * q.r2 < G ∨ 11 * q.r3 < G) ∧ 11 * q.r2 + 11 * q.r3 < 2 * G)

/-- 41_module_width.md R126, 42_quantizer.md R139 (1, 4): ratios at integer module boundaries truncate
without rounding up, so a noise-free quartet of module widths 1 to 4 quantizes to those widths. -/
def Obligations.ExactRatiosTruncate : Prop :=
  (∀ (P : Params) (q : Quartet) (G : Nat), P.listed = true → 0 < G →
    (∀ r ∈ [q.r0, q.r1, q.r2, q.r3], 11 * r % G = 0 ∧ G ≤ 11 * r) →
    quantize P q G =
      ⟨min (11 * q.r0 / G) 4, min (11 * q.r1 / G) 4, min (11 * q.r2 / G) 4,
       min (11 * q.r3 / G) 4⟩) ∧
  (∀ (P : Params) (q : Quartet) (m : Nat), P.listed = true → 1 ≤ m →
    (∀ w ∈ [q.r0, q.r1, q.r2, q.r3], 1 ≤ w ∧ w ≤ 4) →
    quantize P ⟨q.r0 * m, q.r1 * m, q.r2 * m, q.r3 * m⟩ (11 * m) = ⟨q.r0, q.r1, q.r2, q.r3⟩)

/-! ### Lookup and checksum -/

/-- 43_lookup.md R155 to R157: a lookup returns the table's entry if the code is a key, else ABSENT,
with the rules' examples on the default tables. -/
def Obligations.LookupsReturnTheTableEntry : Prop :=
  (∀ P : Params, P.tablesOk = true →
    (∀ pc d l, lookupLeft P pc = some (d, l) ↔ ⟨pc, d, l⟩ ∈ P.tableLG) ∧
    (∀ pc d, lookupRight P pc = some d ↔ ⟨pc, d⟩ ∈ P.tableR) ∧
    (∀ w d, lookupParity P w = some d ↔ ⟨w, d⟩ ∈ P.tablePar)) ∧
  lookupLeft hardware 2311 = some (4, .G) ∧ lookupLeft hardware 1211 = none ∧
  lookupRight hardware 1114 = some 6 ∧ lookupRight hardware 4111 = none ∧
  lookupParity hardware 0b010011#6 = some 4 ∧ lookupParity hardware 0b111111#6 = none

/-- 43_lookup.md R150 to R152: the default tables in full. The ten L codes and the ten G codes give the
digits 0 to 9 with their letter, each G code the L code of its digit with the four widths reversed; the
right-half keys are the L codes; the ten parity words give the leading digits; every other code and word
is absent. The contents are from general knowledge (assumption log 6). -/
def Obligations.DefaultTablesInFull : Prop :=
  let codesL : Vector Nat 10 := #v[3211, 2221, 2122, 1411, 1132, 1231, 1114, 1312, 1213, 3112]
  let codesG : Vector Nat 10 := #v[1123, 1222, 2212, 1141, 2311, 1321, 4111, 2131, 3121, 2113]
  let words : Vector ParityWord 10 := #v[0b000000#6, 0b001011#6, 0b001101#6, 0b001110#6, 0b010011#6,
    0b011001#6, 0b011100#6, 0b010101#6, 0b010110#6, 0b011010#6]
  (∀ d : Digit,
    lookupLeft hardware codesL[d] = some (d, .L) ∧ lookupLeft hardware codesG[d] = some (d, .G) ∧
    codesG[d] = 1000 * (codesL[d] % 10) + 100 * (codesL[d] / 10 % 10) +
      10 * (codesL[d] / 100 % 10) + codesL[d] / 1000 ∧
    lookupRight hardware codesL[d] = some d ∧ lookupParity hardware words[d] = some d) ∧
  (∀ pc, pc ∉ codesL.toList → pc ∉ codesG.toList → lookupLeft hardware pc = none) ∧
  (∀ pc, pc ∉ codesL.toList → lookupRight hardware pc = none) ∧
  (∀ w, w ∉ words.toList → lookupParity hardware w = none)

/-- 43_lookup.md R153 (1, 2), 42_quantizer.md R139 (3): under every admitted configuration a code that
is found has all its components in 1..4 and their sum is 7, so a 0 component is never found. -/
def Obligations.FoundCodesHaveSevenModules : Prop :=
  ∀ (P : Params) (c : Components), P.tablesOk = true →
    c.c0 ≤ 4 → c.c1 ≤ 4 → c.c2 ≤ 4 → c.c3 ≤ 4 →
    (lookupLeft P (patternCode c) ≠ none ∨ lookupRight P (patternCode c) ≠ none) →
    1 ≤ c.c0 ∧ 1 ≤ c.c1 ∧ 1 ≤ c.c2 ∧ 1 ≤ c.c3 ∧ c.c0 + c.c1 + c.c2 + c.c3 = 7

/-- 44_checksum.md R171: the sum has seven weight-1 and six weight-3 positions, so it is at most 225
and fits 8 bits. -/
def Obligations.ChecksumIsBounded : Prop :=
  ∀ d : DigitWord,
    checksum d = (d[0].val + d[2].val + d[4].val + d[6].val + d[8].val + d[10].val + d[12].val) +
      3 * (d[1].val + d[3].val + d[5].val + d[7].val + d[9].val + d[11].val) ∧
    checksum d ≤ 7 * 9 + 6 * 3 * 9 ∧ 7 * 9 + 6 * 3 * 9 = 225 ∧ checksum d < 2 ^ 8

/-- 44_checksum.md R173: for fixed d[0..11] exactly one check digit makes the number valid, and it is
the one of the formula; a single wrong digit always fails; and the rule's five examples. -/
def Obligations.CheckDigitIsUniqueAndDetectsErrors : Prop :=
  ∀ d : DigitWord,
    (∀ x : Digit, checksumValid (d.set 12 x) = true ↔
      x.val = (10 - checksum (d.set 12 0) % 10) % 10) ∧
    (checksumValid d = true → ∀ (i : Fin 13) (x : Digit), x ≠ d[i] →
      checksumValid (d.set i x) = false) ∧
    checksumValid #v[4, 0, 0, 6, 3, 8, 1, 3, 3, 3, 9, 3, 1] = true ∧
    checksumValid #v[0, 0, 0, 0, 0, 0, 0, 1, 2, 3, 4, 5, 7] = true ∧
    checksumValid #v[5, 9, 0, 1, 2, 3, 4, 1, 2, 3, 4, 5, 7] = true ∧
    checksumValid #v[1, 2, 3, 4, 5, 6, 7, 8, 9, 0, 1, 2, 8] = true ∧
    checksumValid #v[9, 9, 9, 9, 9, 9, 9, 9, 9, 9, 9, 9, 4] = true

/-- 44_checksum.md R174, 10_state.md R45: addresses 3 and 4 hold VALUE = Σ DIGITS[i] · 10^(12−i), a
44-bit number of at most 9,999,999,999,999, which is 0 while DECODED = 0. -/
def Obligations.ValueRegistersHoldTheNumber : Prop :=
  regView State.reset 3#3 = 0x00000000#32 ∧ regView State.reset 4#3 = 0x00000000#32 ∧
  ∀ s : State,
    (regView s 4#3).toNat * 2 ^ 32 + (regView s 3#3).toNat =
      ((List.finRange 13).map fun i => (s.frame.digits[i]).val * 10 ^ (12 - i.val)).sum ∧
    (regView s 4#3).toNat * 2 ^ 32 + (regView s 3#3).toNat ≤ 9999999999999 ∧
    (regView s 4#3).toNat < 2 ^ 12 ∧
    (Inv s → s.frame.decoded = false → regView s 3#3 = 0#32 ∧ regView s 4#3 = 0#32)

/-- 10_state.md R43, R44: addresses 1 and 2 hold BCD = Σ DIGITS[i] · 2^(4·(12−i)): digit i for i = 5 to
12 in the bits of DIGITS_LO, digits 0 to 4 in those of DIGITS_HI, whose bits [31:20] are 0. -/
def Obligations.DigitRegistersHoldTheBcd : Prop :=
  ∀ s : State,
    (regView s 2#3).toNat * 2 ^ 32 + (regView s 1#3).toNat =
      ((List.finRange 13).map fun i => (s.frame.digits[i]).val * 2 ^ (4 * (12 - i.val))).sum ∧
    (∀ i : Fin 13, 5 ≤ i.val →
      (regView s 1#3).toNat / 2 ^ (4 * (12 - i.val)) % 16 = (s.frame.digits[i]).val) ∧
    (∀ i : Fin 13, i.val ≤ 4 →
      (regView s 2#3).toNat / 2 ^ (4 * (4 - i.val)) % 16 = (s.frame.digits[i]).val) ∧
    (regView s 2#3).toNat < 2 ^ 20 ∧
    regView State.reset 1#3 = 0x00000000#32 ∧ regView State.reset 2#3 = 0x00000000#32

/-- 10_state.md R42: the fields of STATUS. -/
def Obligations.StatusFields : Prop :=
  (∀ s : State,
    (regView s 0#3).getLsbD 0 = s.frame.decoded ∧
    (regView s 0#3).getLsbD 1 = s.frame.frameDone ∧
    (regView s 0#3).getLsbD 2 = s.frame.cmdErr ∧
    (regView s 0#3).getLsbD 3 = s.pending.isSome ∧
    (regView s 0#3).extractLsb' 4 4 = s.frame.rowStatus.code ∧
    (regView s 0#3).extractLsb' 8 8 = 0#8 ∧
    (regView s 0#3).extractLsb' 16 16 = s.frame.rowCount) ∧
  regView State.reset 0#3 = 0x00000000#32

/-- 10_state.md R46, R47: PARITY and the reserved addresses. -/
def Obligations.ParityAndReservedAddresses : Prop :=
  (∀ s : State, (regView s 5#3).extractLsb' 0 6 = s.frame.parity ∧
    (regView s 5#3).extractLsb' 6 26 = 0#26 ∧
    regView s 6#3 = 0x00000000#32 ∧ regView s 7#3 = 0x00000000#32) ∧
  regView State.reset 5#3 = 0x00000000#32

/-- 10_state.md R40, R41: the register view is a function of the frame state and BUSY: neither the row
state nor which command is pending can be read. -/
def Obligations.ReadsShowOnlyTheFrameAndBusy : Prop :=
  ∀ (s t : State) (a : RegAddr), s.frame = t.frame → s.busy = t.busy →
    regView s a = regView t a ∧ (s.resetSeen = t.resetSeen → regRead s a = regRead t a)

/-- 10_state.md R24, R48, 20_memory.md R51: out of reset the outputs are `in_ready = ¬BUSY`, the
register view at `rd_addr`, and the three level outputs; during reset `in_ready` and the levels are 0,
and the read port shows the reset state, or faults before the first reset edge (70 R254). That
`in_ready` and the levels are there in a cycle with `rst = 1` before that edge is the model's reading
(assumption log 16). -/
def Obligations.OutputsMirrorTheState : Prop :=
  (∀ s : State, s.resetSeen = true → s.portIn.rst = false →
    portOut s = .ok ⟨!s.pending.isSome, .ok (regView s s.portIn.rdAddr), s.frame.decoded,
      s.frame.frameDone, s.pending.isSome⟩) ∧
  (∀ s : State, s.portIn.rst = true → ∃ o, portOut s = .ok o ∧
    o.inReady = false ∧ o.oDecoded = false ∧ o.oFrameDone = false ∧ o.oBusy = false ∧
    (s.resetSeen = true → o.rdData = .ok (regView State.reset s.portIn.rdAddr)) ∧
    (s.resetSeen = false → o.rdData = .error .readBeforeReset))

/-! ### The row driver -/

/-- 45_row_driver.md R186: the block computes DecodeFrame. -/
def Obligations.BlockComputesDecodeFrame : Prop :=
  ∀ (rows : List (List Colour)) (s : State), Built s → InResetState s →
    (∀ row ∈ rows, row.length ≤ 65535) →
    ∃ t, commitAll (frameCommands s.config rows) s = .next t ∧
      (t.frame.decoded = true ↔ (decodeFrame s.config rows).isSome = true) ∧
      (∀ r, decodeFrame s.config rows = some r →
        t.frame.digits = r.digits ∧ t.frame.parity = r.parity ∧
        t.frame.rowCount.toNat = min (r.index + 1) 65535) ∧
      (decodeFrame s.config rows = none →
        t.frame.rowCount.toNat = min rows.length 65535 ∧
        (rows = [] → t.frame.rowStatus = .none) ∧
        (∀ row, rows.getLast? = some row → ∀ c, decodeRow s.config row = .fail c →
          t.frame.rowStatus = c.status) ∧
        t.frame.digits = Vector.replicate 13 0 ∧ t.frame.parity = 0#6)

/-- 45_row_driver.md R183: whatever rows come before (all failing) and after, DecodeFrame and the block
return the number of the first row that decodes. -/
def Obligations.RowIndependence : Prop :=
  ∀ (before after : List (List Colour)) (row : List Colour) (d : DigitWord) (p : ParityWord)
    (s : State), Built s → InResetState s → (∀ r ∈ before ++ row :: after, r.length ≤ 65535) →
    (∀ r ∈ before, ∃ c, decodeRow s.config r = .fail c) → decodeRow s.config row = .ok d p →
    decodeFrame s.config (before ++ row :: after) = some ⟨d, p, before.length⟩ ∧
    ∃ t, commitAll (frameCommands s.config (before ++ row :: after)) s = .next t ∧
      t.frame.decoded = true ∧ t.frame.digits = d ∧ t.frame.parity = p ∧
      t.frame.rowCount.toNat = min (before.length + 1) 65535

/-- 45_row_driver.md R184: the same pixels sent as a row of two frames, each still undecoded, give the
same ROW_STATUS, DIGITS and PARITY; more, a command stream's effect on the frame and row state
depends on nothing but them and the parameters other than the latency. -/
def Obligations.SameStreamSameResult : Prop :=
  (∀ (cs : List Instr) (s1 s2 t1 t2 : State), SameButLatency s1.config s2.config →
    s1.frame = s2.frame → s1.row = s2.row →
    commitAll cs s1 = .next t1 → commitAll cs s2 = .next t2 →
    t1.frame = t2.frame ∧ t1.row = t2.row) ∧
  (∀ (row : List Colour) (s1 s2 : State), SameButLatency s1.config s2.config →
    (∀ s ∈ [s1, s2], Inv s ∧ s.resetSeen = true ∧ s.frame.frameDone = false ∧
      s.frame.decoded = false ∧ s.row = RowState.reset) →
    ∃ t1 t2, commitAll (rowCommands s1.config row) s1 = .next t1 ∧
      commitAll (rowCommands s2.config row) s2 = .next t2 ∧
      t1.frame.rowStatus = t2.frame.rowStatus ∧ t1.frame.digits = t2.frame.digits ∧
      t1.frame.parity = t2.frame.parity)

/-- The source's noise-free property (95_test_vectors.md SRC-4; the rendering is 95's, K6): every
13-digit number with a valid checksum, rendered at any whole number of pixels per module with at
least one white module after it, is recovered exactly by the block. -/
def Obligations.NoiseFreeRenderingsDecode : Prop :=
  ∀ (d : DigitWord) (m ql qr : Nat) (s : State), Built s → InResetState s →
    s.config.tableLG = hardware.tableLG → s.config.tableR = hardware.tableR →
    s.config.tablePar = hardware.tablePar → checksumValid d = true →
    1 ≤ m → 1 ≤ qr → (render d m ql qr).length ≤ 65535 →
    decodeRow s.config (render d m ql qr) = .ok d (parityOf d[0]) ∧
    ∃ t, commitAll (rowCommands s.config (render d m ql qr)) s = .next t ∧
      t.frame.decoded = true ∧ t.frame.digits = d ∧ t.frame.parity = parityOf d[0] ∧
      t.frame.rowStatus = .ok ∧ t.frame.rowCount = 1#16
end

