-- ==== Sys2Proof/Laws/Parameters.lean ====
section
/-! SUPPORT. The parameters of a configuration with the listed values (00_scope.md R5): one lemma for
each, so that no later proof unfolds `Params.listed`. -/

namespace Sys2Proof.Machine

open Sys2Proof

/-- SIZE as R5 lists it. -/
def Stage.size : Stage → Nat
  | .lg => 3
  | .lc => 24
  | .mg => 5
  | .rc => 24
  | .rg => 3
  | .full => 0

/-- BASE as 10_state.md R35 lists it. -/
def Stage.base : Stage → Nat
  | .lg => 0
  | .lc => 3
  | .mg => 27
  | .rc => 32
  | .rg => 56
  | .full => 59

variable {P : Params}

theorem listed_iff : P.listed = true ↔
    P.guardPositions = 11 ∧ P.sizes = #v[3, 24, 5, 24, 3] ∧ P.clampMax = 4 ∧ P.rowCntBits = 16 ∧
      P.black = true ∧ P.white = false :=
  decide_eq_true_iff

theorem wf_iff : P.wf = true ↔ P.listed = true ∧ P.tablesOk = true := Bool.and_eq_true_iff

theorem wf_hardware : hardware.wf = true := by decide

theorem listed_hardware : hardware.listed = true := by decide

theorem size_eq (h : P.listed = true) (t : Stage) : P.size t = t.size := by
  have hs := (listed_iff.mp h).2.1
  cases t <;> simp only [Params.size, hs] <;> rfl

theorem base_eq (h : P.listed = true) (t : Stage) : P.base t = t.base := by
  have hs := (listed_iff.mp h).2.1
  cases t <;> simp only [Params.base, hs] <;> rfl

theorem numerator_eq (h : P.listed = true) (run : Nat) : numerator P run = 11 * run := by
  rw [numerator, (listed_iff.mp h).1]

theorem pixelCommand_white (h : P.listed = true) : pixelCommand P .white = .pix0 := by
  simp [pixelCommand, pixelInstr, Params.pixelBit, listed_iff.mp h]

theorem pixelCommand_black (h : P.listed = true) : pixelCommand P .black = .pix1 := by
  simp [pixelCommand, pixelInstr, Params.pixelBit, listed_iff.mp h]

theorem pixelColour_eq (h : P.listed = true) (d : Bool) :
    pixelColour P d = if d then .black else .white := by
  simp [pixelColour, listed_iff.mp h]

/-- The colour of the bit of a colour is that colour. -/
theorem pixelColour_pixelBit (h : P.listed = true) (c : Colour) :
    pixelColour P (P.pixelBit c) = c := by
  cases c <;> simp [pixelColour_eq h, Params.pixelBit, listed_iff.mp h]

theorem nextRowCount_toNat (h : P.listed = true) (n : Count) :
    (nextRowCount P n).toNat = min (n.toNat + 1) 65535 := by
  have hn : n.toNat < 65536 := n.isLt
  simp only [nextRowCount, sat, (listed_iff.mp h).2.2.2.1, BitVec.toNat_ofNat]
  omega

theorem nextRowCount_ne_zero (h : P.listed = true) (n : Count) : nextRowCount P n ≠ 0#16 := by
  intro e
  have h' := congrArg BitVec.toNat e
  rw [nextRowCount_toNat h] at h'
  simp at h'

/-- The clamp of one component (42_quantizer.md R136). -/
theorem clampComponent_cases (h : P.listed = true) (q : Nat) :
    clampComponent P q ≤ 4 ∧ (P.lowerClamp = true → 1 ≤ clampComponent P q) ∧
      (clampComponent P q = 0 → q = 0) ∧ (1 ≤ q → q ≤ 4 → clampComponent P q = q) := by
  simp only [clampComponent, (listed_iff.mp h).2.2.1]
  cases P.lowerClamp
  · simp
  · simp
    omega

end Sys2Proof.Machine
end

