-- ==== Sys2Proof/Laws/State.lean ====
section
/-! SUPPORT. One lemma per field and update of the state, each true by unfolding, so that no later
proof unfolds a record update. -/

namespace Sys2Proof.Machine

open Sys2Proof

/-! ### Frame state -/

@[simp] theorem setCmdErr_decoded (f : FrameState) : f.setCmdErr.decoded = f.decoded := rfl
@[simp] theorem setCmdErr_frameDone (f : FrameState) : f.setCmdErr.frameDone = f.frameDone := rfl
@[simp] theorem setCmdErr_cmdErr (f : FrameState) : f.setCmdErr.cmdErr = true := rfl
@[simp] theorem setCmdErr_rowStatus (f : FrameState) : f.setCmdErr.rowStatus = f.rowStatus := rfl
@[simp] theorem setCmdErr_rowCount (f : FrameState) : f.setCmdErr.rowCount = f.rowCount := rfl
@[simp] theorem setCmdErr_digits (f : FrameState) : f.setCmdErr.digits = f.digits := rfl
@[simp] theorem setCmdErr_parity (f : FrameState) : f.setCmdErr.parity = f.parity := rfl

@[simp] theorem setFrameDone_decoded (f : FrameState) : f.setFrameDone.decoded = f.decoded := rfl
@[simp] theorem setFrameDone_frameDone (f : FrameState) : f.setFrameDone.frameDone = true := rfl
@[simp] theorem setFrameDone_cmdErr (f : FrameState) : f.setFrameDone.cmdErr = f.cmdErr := rfl
@[simp] theorem setFrameDone_rowStatus (f : FrameState) : f.setFrameDone.rowStatus = f.rowStatus := rfl
@[simp] theorem setFrameDone_rowCount (f : FrameState) : f.setFrameDone.rowCount = f.rowCount := rfl
@[simp] theorem setFrameDone_digits (f : FrameState) : f.setFrameDone.digits = f.digits := rfl
@[simp] theorem setFrameDone_parity (f : FrameState) : f.setFrameDone.parity = f.parity := rfl

@[simp] theorem record_frameDone (P : Params) (f : FrameState) (o : RowOutcome) :
    (f.record P o).frameDone = f.frameDone := by cases o <;> rfl
@[simp] theorem record_cmdErr (P : Params) (f : FrameState) (o : RowOutcome) :
    (f.record P o).cmdErr = f.cmdErr := by cases o <;> rfl
@[simp] theorem record_rowCount (P : Params) (f : FrameState) (o : RowOutcome) :
    (f.record P o).rowCount = nextRowCount P f.rowCount := by cases o <;> rfl
@[simp] theorem record_ok_decoded (P : Params) (f : FrameState) (d : DigitWord) (p : ParityWord) :
    (f.record P (.ok d p)).decoded = true := rfl
@[simp] theorem record_ok_rowStatus (P : Params) (f : FrameState) (d : DigitWord) (p : ParityWord) :
    (f.record P (.ok d p)).rowStatus = .ok := rfl
@[simp] theorem record_ok_digits (P : Params) (f : FrameState) (d : DigitWord) (p : ParityWord) :
    (f.record P (.ok d p)).digits = d := rfl
@[simp] theorem record_ok_parity (P : Params) (f : FrameState) (d : DigitWord) (p : ParityWord) :
    (f.record P (.ok d p)).parity = p := rfl
@[simp] theorem record_fail_decoded (P : Params) (f : FrameState) (c : RowFail) :
    (f.record P (.fail c)).decoded = f.decoded := rfl
@[simp] theorem record_fail_rowStatus (P : Params) (f : FrameState) (c : RowFail) :
    (f.record P (.fail c)).rowStatus = c.status := rfl
@[simp] theorem record_fail_digits (P : Params) (f : FrameState) (c : RowFail) :
    (f.record P (.fail c)).digits = f.digits := rfl
@[simp] theorem record_fail_parity (P : Params) (f : FrameState) (c : RowFail) :
    (f.record P (.fail c)).parity = f.parity := rfl

@[simp] theorem frameReset_decoded : FrameState.reset.decoded = false := rfl
@[simp] theorem frameReset_frameDone : FrameState.reset.frameDone = false := rfl
@[simp] theorem frameReset_cmdErr : FrameState.reset.cmdErr = false := rfl
@[simp] theorem frameReset_rowStatus : FrameState.reset.rowStatus = .none := rfl
@[simp] theorem frameReset_rowCount : FrameState.reset.rowCount = 0#16 := rfl
@[simp] theorem frameReset_digits : FrameState.reset.digits = Vector.replicate 13 0 := rfl
@[simp] theorem frameReset_parity : FrameState.reset.parity = 0#6 := rfl

/-! ### Row state -/

@[simp] theorem setOvf_stage (r : RowState) : r.setOvf.stage = r.stage := rfl
@[simp] theorem setOvf_search (r : RowState) : r.setOvf.search = r.search := rfl
@[simp] theorem setOvf_k (r : RowState) : r.setOvf.k = r.k := rfl
@[simp] theorem setOvf_cur (r : RowState) : r.setOvf.cur = r.cur := rfl
@[simp] theorem setOvf_col (r : RowState) : r.setOvf.col = r.col := rfl
@[simp] theorem setOvf_ovf (r : RowState) : r.setOvf.ovf = true := rfl
@[simp] theorem setOvf_rb (r : RowState) : r.setOvf.rb = r.rb := rfl

@[simp] theorem countPixel_stage (r : RowState) : r.countPixel.stage = r.stage := rfl
@[simp] theorem countPixel_search (r : RowState) : r.countPixel.search = r.search := rfl
@[simp] theorem countPixel_k (r : RowState) : r.countPixel.k = r.k := rfl
@[simp] theorem countPixel_cur (r : RowState) : r.countPixel.cur = r.cur := rfl
@[simp] theorem countPixel_col (r : RowState) : r.countPixel.col = r.col + 1#16 := rfl
@[simp] theorem countPixel_ovf (r : RowState) : r.countPixel.ovf = r.ovf := rfl
@[simp] theorem countPixel_rb (r : RowState) : r.countPixel.rb = r.rb := rfl

@[simp] theorem rowReset_stage : RowState.reset.stage = .lg := rfl
@[simp] theorem rowReset_search : RowState.reset.search = true := rfl
@[simp] theorem rowReset_k : RowState.reset.k = 0#5 := rfl
@[simp] theorem rowReset_cur : RowState.reset.cur = .black := rfl
@[simp] theorem rowReset_col : RowState.reset.col = 0#16 := rfl
@[simp] theorem rowReset_ovf : RowState.reset.ovf = false := rfl
@[simp] theorem rowReset_rb : RowState.reset.rb = Vector.replicate 59 0#16 := rfl

/-! ### State -/

@[simp] theorem rowClear_frame (s : State) : (rowClear s).frame = s.frame := rfl
@[simp] theorem rowClear_row (s : State) : (rowClear s).row = RowState.reset := rfl
@[simp] theorem rowClear_pending (s : State) : (rowClear s).pending = s.pending := rfl
@[simp] theorem rowClear_resetSeen (s : State) : (rowClear s).resetSeen = s.resetSeen := rfl
@[simp] theorem rowClear_config (s : State) : (rowClear s).config = s.config := rfl
@[simp] theorem rowClear_host (s : State) : (rowClear s).host = s.host := rfl

@[simp] theorem protocolError_frame (s : State) : (protocolError s).frame = s.frame.setCmdErr := rfl
@[simp] theorem protocolError_row (s : State) : (protocolError s).row = s.row := rfl
@[simp] theorem protocolError_pending (s : State) : (protocolError s).pending = s.pending := rfl
@[simp] theorem protocolError_resetSeen (s : State) : (protocolError s).resetSeen = s.resetSeen := rfl
@[simp] theorem protocolError_config (s : State) :
    (protocolError s).config = s.config := rfl
@[simp] theorem protocolError_host (s : State) : (protocolError s).host = s.host := rfl

@[simp] theorem resetState_frame (s : State) : (resetState s).frame = FrameState.reset := rfl
@[simp] theorem resetState_row (s : State) : (resetState s).row = RowState.reset := rfl
@[simp] theorem resetState_pending (s : State) : (resetState s).pending = none := rfl
@[simp] theorem resetState_resetSeen (s : State) : (resetState s).resetSeen = true := rfl
@[simp] theorem resetState_config (s : State) :
    (resetState s).config = s.config := rfl
@[simp] theorem resetState_host (s : State) : (resetState s).host = s.host := rfl

@[simp] theorem evaluate_frame (s : State) :
    (evaluate s).frame = s.frame.record s.config (rowOutcome s.config s.row) := rfl
@[simp] theorem evaluate_row (s : State) : (evaluate s).row = RowState.reset := rfl
@[simp] theorem evaluate_pending (s : State) : (evaluate s).pending = s.pending := rfl
@[simp] theorem evaluate_resetSeen (s : State) :
    (evaluate s).resetSeen = s.resetSeen := rfl
@[simp] theorem evaluate_config (s : State) :
    (evaluate s).config = s.config := rfl
@[simp] theorem evaluate_host (s : State) : (evaluate s).host = s.host := rfl

@[simp] theorem advanceHost_frame (s : State) : (advanceHost s).frame = s.frame := rfl
@[simp] theorem advanceHost_row (s : State) : (advanceHost s).row = s.row := rfl
@[simp] theorem advanceHost_pending (s : State) : (advanceHost s).pending = s.pending := rfl
@[simp] theorem advanceHost_resetSeen (s : State) : (advanceHost s).resetSeen = s.resetSeen := rfl
@[simp] theorem advanceHost_config (s : State) :
    (advanceHost s).config = s.config := rfl
@[simp] theorem advanceHost_host (s : State) : (advanceHost s).host = s.host.tail := rfl

@[simp] theorem clearPending_frame (s : State) : (clearPending s).frame = s.frame := rfl
@[simp] theorem clearPending_row (s : State) : (clearPending s).row = s.row := rfl
@[simp] theorem clearPending_pending (s : State) : (clearPending s).pending = none := rfl
@[simp] theorem clearPending_resetSeen (s : State) : (clearPending s).resetSeen = s.resetSeen := rfl
@[simp] theorem clearPending_config (s : State) :
    (clearPending s).config = s.config := rfl
@[simp] theorem clearPending_host (s : State) : (clearPending s).host = s.host := rfl

end Sys2Proof.Machine
end

