-- ==== Sys2Proof/Laws/Ops.lean ====
section
/-! SUPPORT. What each shared operation does, said once: the run buffer, the commit, and the effect of
every command as a function of the state. -/

namespace Sys2Proof.Machine

open Sys2Proof

/-! ### The run buffer -/

theorem bumpRun_getElem (rb : RunBuffer) (i j : Nat) (hj : j < 59) :
    (bumpRun rb i)[j] = if i = j then rb[j] + 1#16 else rb[j] := by
  unfold bumpRun
  rw [Vector.getElem_setIfInBounds]
  by_cases h : i = j
  · subst h; simp [Vector.getD, hj]
  · simp [h]

theorem runsOf_length (rb : RunBuffer) : (runsOf rb).length = 59 := by
  simp [runsOf]

theorem runsOf_getElem (rb : RunBuffer) (i : Nat) (h : i < (runsOf rb).length) :
    (runsOf rb)[i] = (rb[i]'(by simpa [runsOf] using h)).toNat := by
  simp [runsOf]

@[simp] theorem runsOf_replicate : runsOf (Vector.replicate 59 0#16) = List.replicate 59 0 := by
  decide

theorem groupRuns_length {P : Params} (h : P.listed = true) (rb : RunBuffer) (t : Stage) :
    (groupRuns P rb t).length = t.size := by
  rw [groupRuns, base_eq h, size_eq h]
  cases t <;> simp [runsOf_length, Stage.base, Stage.size]

/-! ### The commit -/

theorem commit_next (f : State → State) (s : State) (h : s.resetSeen = true) :
    commit f s = .next (f s) := by
  simp [commit, h]

theorem commit_fault (f : State → State) (s : State) (h : s.resetSeen = false) :
    commit f s = .fault .commandBeforeReset := by
  simp [commit, h]

theorem commit_eq_next {f : State → State} {s t : State} (h : commit f s = .next t) :
    s.resetSeen = true ∧ t = f s := by
  unfold commit at h
  split at h
  · exact ⟨‹_›, by simpa using h.symm⟩
  · simp at h

/-- The state change of a command, as a function. -/
def commitOf : Instr → State → State
  | .pix0 => fun s => pixCommit (pixelColour s.config false) s
  | .pix1 => fun s => pixCommit (pixelColour s.config true) s
  | .eol => eolCommit
  | .rsv3 => protocolError
  | .sof => sofCommit
  | .rsv5 => protocolError
  | .eof => eofCommit
  | .rsv7 => protocolError

/-- Every command is the commit of its state change. -/
theorem exec_eq_commit (i : Instr) (s : State) : exec i s = commit (commitOf i) s := by
  cases i <;> rfl

theorem exec_next (i : Instr) (s : State) (h : s.resetSeen = true) :
    exec i s = .next (commitOf i s) := by
  rw [exec_eq_commit, commit_next _ _ h]

theorem exec_eq_next {i : Instr} {s t : State} (h : exec i s = .next t) :
    s.resetSeen = true ∧ t = commitOf i s := by
  rw [exec_eq_commit] at h
  exact commit_eq_next h

/-! ### What a command's state change leaves alone -/

@[simp] theorem commitOf_pending (i : Instr) (s : State) : (commitOf i s).pending = s.pending := by
  cases i <;> simp only [commitOf, pixCommit, eolCommit, sofCommit, eofCommit, closeFrame,
    evaluateOpenRow] <;> (repeat' split) <;> rfl

@[simp] theorem commitOf_resetSeen (i : Instr) (s : State) :
    (commitOf i s).resetSeen = s.resetSeen := by
  cases i <;> simp only [commitOf, pixCommit, eolCommit, sofCommit, eofCommit, closeFrame,
    evaluateOpenRow] <;> (repeat' split) <;> rfl

@[simp] theorem commitOf_config (i : Instr) (s : State) :
    (commitOf i s).config = s.config := by
  cases i <;> simp only [commitOf, pixCommit, eolCommit, sofCommit, eofCommit, closeFrame,
    evaluateOpenRow] <;> (repeat' split) <;> rfl

@[simp] theorem commitOf_host (i : Instr) (s : State) : (commitOf i s).host = s.host := by
  cases i <;> simp only [commitOf, pixCommit, eolCommit, sofCommit, eofCommit, closeFrame,
    evaluateOpenRow] <;> (repeat' split) <;> rfl

/-- The command state and the host's presentations, set. -/
def withOthers (s : State) (q : Option Pending) (hs : List PortIn) : State :=
  { s with pending := q, host := hs }

/-- A command's state change reads the configuration, and reads and writes the frame and the row state
only. -/
theorem commitOf_withOthers (i : Instr) (s : State) (q : Option Pending) (hs : List PortIn) :
    commitOf i (withOthers s q hs) = withOthers (commitOf i s) q hs := by
  have he : evaluate (withOthers s q hs) = withOthers (evaluate s) q hs := rfl
  have hf : (withOthers s q hs).frame = s.frame := rfl
  have hr : (withOthers s q hs).row = s.row := rfl
  have hc : (withOthers s q hs).config = s.config := rfl
  cases i <;> simp only [commitOf, pixCommit, eolCommit, eofCommit, evaluateOpenRow, hf, hr, hc, he] <;>
    (repeat' split) <;> rfl

/-! ### A step -/

/-- Everything a rising edge can do (46_commands.md R200). -/
theorem step_cases (s t : State) (h : step s = .next t) :
    (s.portIn.rst = true ∧ t = resetState (advanceHost s)) ∨
    (s.portIn.rst = false ∧ s.resetSeen = false ∧ s.portIn.inValid = false ∧ t = advanceHost s) ∨
    (s.portIn.rst = false ∧ s.resetSeen = true ∧
      ((∃ q, s.pending = some q ∧ q.due = 0 ∧
          t = clearPending (commitOf q.cmd (advanceHost s))) ∨
       (∃ q, s.pending = some q ∧ q.due ≠ 0 ∧
          t = { advanceHost s with pending := some { q with due := q.due - 1 } }) ∨
       (s.pending = none ∧ s.portIn.inValid = false ∧ t = advanceHost s) ∨
       (s.pending = none ∧ s.portIn.inValid = true ∧ isLong (decode s.portIn.inCmd) = true ∧
          0 < s.config.evalLatency ∧
          t = { advanceHost s with
                pending := some ⟨decode s.portIn.inCmd, s.config.evalLatency - 1⟩ }) ∨
       (s.pending = none ∧ s.portIn.inValid = true ∧
          (isLong (decode s.portIn.inCmd) = false ∨ s.config.evalLatency = 0) ∧
          t = commitOf (decode s.portIn.inCmd) (advanceHost s)))) := by
  unfold step edge edgeWith at h
  cases hr : s.portIn.rst
  · simp only [hr, Bool.false_eq_true, if_false] at h
    right
    cases hl : s.resetSeen
    · left
      simp only [advanceHost_resetSeen, hl, Bool.not_false, if_true] at h
      split at h
      · simp at h
      · rename_i hv
        exact ⟨rfl, rfl, by simpa using hv, by simpa using h.symm⟩
    · right
      refine ⟨rfl, rfl, ?_⟩
      simp only [advanceHost_resetSeen, hl, Bool.not_true, Bool.false_eq_true, if_false,
        advanceHost_pending] at h
      have hl' : (advanceHost s).resetSeen = true := hl
      split at h
      · rename_i q hq
        unfold pendingEdge at h
        split at h
        · rename_i hd
          rw [exec_next _ _ hl'] at h
          exact .inl ⟨q, hq, hd, by simpa [mapNext] using h.symm⟩
        · rename_i hd
          exact .inr (.inl ⟨q, hq, hd, by simpa using h.symm⟩)
      · rename_i hq
        cases hv : s.portIn.inValid
        · simp only [hv, Bool.false_eq_true, if_false] at h
          exact .inr (.inr (.inl ⟨hq, rfl, by simpa using h.symm⟩))
        · simp only [hv, if_true] at h
          unfold acceptCommand at h
          split at h
          · rename_i hc
            rw [advanceHost_config, Bool.and_eq_true, decide_eq_true_iff] at hc
            exact .inr (.inr (.inr (.inl ⟨hq, rfl, hc.1, hc.2, by simpa using h.symm⟩)))
          · rename_i hc
            rw [exec_next _ _ hl'] at h
            refine .inr (.inr (.inr (.inr ⟨hq, rfl, ?_, by simpa using h.symm⟩)))
            rw [advanceHost_config, Bool.and_eq_true, decide_eq_true_iff] at hc
            cases hL : isLong (decode s.portIn.inCmd)
            · exact .inl rfl
            · exact .inr (Nat.eq_zero_of_not_pos fun h => hc ⟨hL, h⟩)
  · simp only [hr, if_true] at h
    exact .inl ⟨rfl, by simpa using h.symm⟩

end Sys2Proof.Machine
end

