-- ==== Sys2Proof/Laws/Edges.lean ====
section
/-! SUPPORT. One edge in each of its conditions (46_commands.md R200), runs of edges, and command
streams as one state change. -/

namespace Sys2Proof.Machine

open Sys2Proof

/-! ### One edge -/

theorem advanceHost_eq (s : State) : advanceHost s = { s with host := s.host.tail } := rfl

theorem step_reset (s : State) (h : s.portIn.rst = true) :
    step s = .next (resetState (advanceHost s)) := by
  simp [step, edge, edgeWith, h]

theorem step_idle (s : State) (hl : s.resetSeen = true) (hr : s.portIn.rst = false)
    (hp : s.pending = none) (hv : s.portIn.inValid = false) : step s = .next (advanceHost s) := by
  simp [step, edge, edgeWith, hl, hr, hp, hv]

theorem step_commit (s : State) (hl : s.resetSeen = true) (hr : s.portIn.rst = false)
    (hp : s.pending = none) (hv : s.portIn.inValid = true)
    (hc : isLong (decode s.portIn.inCmd) = false ∨ s.config.evalLatency = 0) :
    step s = .next (commitOf (decode s.portIn.inCmd) (advanceHost s)) := by
  have he : exec (decode s.portIn.inCmd) (advanceHost s) =
      .next (commitOf (decode s.portIn.inCmd) (advanceHost s)) := exec_next _ _ hl
  rcases hc with h | h <;> simp [step, edge, edgeWith, hl, hr, hp, hv, acceptCommand, h, he]

theorem step_accept_long (s : State) (hl : s.resetSeen = true) (hr : s.portIn.rst = false)
    (hp : s.pending = none) (hv : s.portIn.inValid = true)
    (hc : isLong (decode s.portIn.inCmd) = true) (hL : 0 < s.config.evalLatency) :
    step s = .next { advanceHost s with
      pending := some ⟨decode s.portIn.inCmd, s.config.evalLatency - 1⟩ } := by
  simp [step, edge, edgeWith, hl, hr, hp, hv, acceptCommand, hc, hL]

theorem step_countdown (s : State) (i : Instr) (n : Nat) (hl : s.resetSeen = true)
    (hr : s.portIn.rst = false) (hp : s.pending = some ⟨i, n + 1⟩) :
    step s = .next { advanceHost s with pending := some ⟨i, n⟩ } := by
  simp [step, edge, edgeWith, hl, hr, hp, pendingEdge]

theorem step_complete (s : State) (i : Instr) (hl : s.resetSeen = true)
    (hr : s.portIn.rst = false) (hp : s.pending = some ⟨i, 0⟩) :
    step s = .next (clearPending (commitOf i (advanceHost s))) := by
  have h : exec i (advanceHost s) = .next (commitOf i (advanceHost s)) := exec_next _ _ hl
  simp [step, edge, edgeWith, hl, hr, hp, pendingEdge, h, mapNext]

/-! ### Runs of edges -/

theorem coreRun_succ (M : Host.Core) (k : Nat) (s t : M.State) (h : M.step s = .next t) :
    M.run (k + 1) s = M.run k t := by
  simp only [Host.Core.run, h]

theorem coreRun_snoc (M : Host.Core) (k : Nat) (s t : M.State) (h : M.run k s = .next t) :
    M.run (k + 1) s = M.step t := by
  induction k generalizing s with
  | zero =>
    simp only [Host.Core.run, Host.Outcome.next.injEq] at h
    subst h
    simp only [Host.Core.run]
    cases M.step s <;> rfl
  | succ k ih =>
    cases hs : M.step s with
    | next u =>
      rw [coreRun_succ M _ s u hs] at h ⊢
      exact ih u h
    | fault r => simp [Host.Core.run, hs] at h
    | refused r => simp [Host.Core.run, hs] at h

theorem run_zero (s : State) : Host.Core.run Sys2Proof.core 0 s = .next s := rfl

theorem run_succ (k : Nat) (s t : State) (h : step s = .next t) :
    Host.Core.run Sys2Proof.core (k + 1) s = Host.Core.run Sys2Proof.core k t :=
  coreRun_succ Sys2Proof.core k s t h

theorem run_snoc (k : Nat) (s t : State) (h : Host.Core.run Sys2Proof.core k s = .next t) :
    Host.Core.run Sys2Proof.core (k + 1) s = step t :=
  coreRun_snoc Sys2Proof.core k s t h

/-! ### Command streams -/

/-- The state change of a stream of commands. -/
def commitsOf (cs : List Instr) (s : State) : State := cs.foldl (fun s c => commitOf c s) s

@[simp] theorem commitsOf_nil (s : State) : commitsOf [] s = s := rfl
@[simp] theorem commitsOf_cons (c : Instr) (cs : List Instr) (s : State) :
    commitsOf (c :: cs) s = commitsOf cs (commitOf c s) := rfl
theorem commitsOf_append (as bs : List Instr) (s : State) :
    commitsOf (as ++ bs) s = commitsOf bs (commitsOf as s) := List.foldl_append

theorem commitsOf_keeps (cs : List Instr) (s : State) :
    (commitsOf cs s).resetSeen = s.resetSeen ∧ (commitsOf cs s).pending = s.pending ∧
    (commitsOf cs s).config = s.config ∧ (commitsOf cs s).host = s.host := by
  induction cs generalizing s with
  | nil => exact ⟨rfl, rfl, rfl, rfl⟩
  | cons c cs ih => simpa using ih (commitOf c s)

theorem commitsOf_withOthers (cs : List Instr) (s : State) (q : Option Pending)
    (hs : List PortIn) : commitsOf cs (withOthers s q hs) = withOthers (commitsOf cs s) q hs := by
  induction cs generalizing s with
  | nil => rfl
  | cons c cs ih => rw [commitsOf_cons, commitOf_withOthers, ih, commitsOf_cons]

/-- What a command does to the frame and row state depends on nothing but them and the parameters
other than the latency. -/
theorem commitOf_congr (c : Instr) (s t : State) (hc : SameButLatency s.config t.config)
    (hf : s.frame = t.frame) (hr : s.row = t.row) :
    (commitOf c s).frame = (commitOf c t).frame ∧ (commitOf c s).row = (commitOf c t).row := by
  obtain ⟨l, hl⟩ : ∃ l, t.config = { s.config with evalLatency := l } := ⟨_, hc⟩
  cases c <;> simp only [commitOf, pixCommit, eolCommit, sofCommit, eofCommit, closeFrame,
    evaluateOpenRow, ← hf, ← hr, hl, protocolError, evaluate, rowClear] <;> (repeat' split) <;>
    exact ⟨by first | exact hf | trivial | simp only [hf], by first | exact hr | trivial⟩

theorem commitsOf_congr (cs : List Instr) (s t : State) (hc : SameButLatency s.config t.config)
    (hf : s.frame = t.frame) (hr : s.row = t.row) :
    (commitsOf cs s).frame = (commitsOf cs t).frame ∧ (commitsOf cs s).row = (commitsOf cs t).row := by
  induction cs generalizing s t with
  | nil => exact ⟨hf, hr⟩
  | cons c cs ih =>
    exact ih _ _ (by simpa using hc) (commitOf_congr c s t hc hf hr).1 (commitOf_congr c s t hc hf hr).2

/-- Once the block has been reset, every stream of commands completes. -/
theorem commitAll_next (cs : List Instr) (s : State) (h : s.resetSeen = true) :
    commitAll cs s = .next (commitsOf cs s) := by
  induction cs generalizing s with
  | nil => rfl
  | cons c cs ih =>
    rw [commitAll, exec_next c s h]
    exact ih (commitOf c s) (by simp [h])

end Sys2Proof.Machine
end

