-- ==== Sys2Proof/Laws/Segmenter.lean ====
section
/-! SUPPORT. The segmenter against one abstract machine: the runs seen so far. Both the pixel-serial
step (40_segmenter.md R108) and the function-level Fill (R102) follow it. -/

namespace Sys2Proof.Machine

open Sys2Proof

theorem other_ne (c : Colour) : c.other ≠ c := by cases c <;> decide
theorem ne_iff_eq_other (p c : Colour) : p ≠ c ↔ p = c.other := by cases p <;> cases c <;> decide
@[simp] theorem other_other (c : Colour) : c.other.other = c := by cases c <;> rfl

/-- The colour of run j of a row, run 0 being the first black one. -/
def nthColour (j : Nat) : Colour := if j % 2 = 0 then .black else .white

theorem nthColour_succ (j : Nat) : nthColour (j + 1) = (nthColour j).other := by
  unfold nthColour
  rcases Nat.mod_two_eq_zero_or_one j with h | h
  · have : (j + 1) % 2 = 1 := by omega
    simp [h, this, Colour.other]
  · have : (j + 1) % 2 = 0 := by omega
    simp [h, this, Colour.other]

/-- The colour of run k of a stage is that of run BASE + k of the row (40_segmenter.md R104). -/
theorem runColour_eq (t : Stage) (h : t ≠ .full) (k : Nat) :
    runColour t k = nthColour (t.base + k) := by
  unfold runColour nthColour
  rcases Nat.mod_two_eq_zero_or_one k with hk | hk <;> cases t <;>
    simp [Stage.base, Stage.start, Colour.other, hk, Nat.add_mod] at *

/-- The runs of a row after one more pixel, the most recent run first; leading white pixels are
skipped. -/
def runStep (ws : List Nat) (p : Colour) : List Nat :=
  match ws with
  | [] => if p = .black then [1] else []
  | w :: ws => if p = nthColour ws.length then (w + 1) :: ws else 1 :: w :: ws

/-- The runs of a row, the most recent run first. -/
def runsOfRow (s : List Colour) : List Nat := s.foldl runStep []

theorem runStep_length_le (ws : List Nat) (p : Colour) :
    ws.length ≤ (runStep ws p).length := by
  unfold runStep
  split
  · simp
  · split <;> simp

theorem foldl_runStep_length_le (s : List Colour) (ws : List Nat) :
    ws.length ≤ (s.foldl runStep ws).length := by
  induction s generalizing ws with
  | nil => simp
  | cons p s ih => exact le_trans (runStep_length_le ws p) (by simpa using ih (runStep ws p))

theorem runStep_pos (ws : List Nat) (p : Colour) (h : ∀ w ∈ ws, 1 ≤ w) :
    ∀ w ∈ runStep ws p, 1 ≤ w := by
  unfold runStep
  split
  · split <;> simp
  · rename_i w ws
    split
    · intro x hx
      rcases List.mem_cons.mp hx with rfl | hx
      · omega
      · exact h x (by simp [hx])
    · intro x hx
      rcases List.mem_cons.mp hx with rfl | hx
      · exact le_refl 1
      · exact h x hx

theorem foldl_runStep_pos (s : List Colour) (ws : List Nat) (h : ∀ w ∈ ws, 1 ≤ w) :
    ∀ w ∈ s.foldl runStep ws, 1 ≤ w := by
  induction s generalizing ws with
  | nil => simpa using h
  | cons p s ih => simpa using ih (runStep ws p) (runStep_pos ws p h)

theorem runStep_sum_le (ws : List Nat) (p : Colour) : (runStep ws p).sum ≤ ws.sum + 1 := by
  unfold runStep
  split
  · split <;> simp
  · split <;> simp <;> omega

/-- The stage that holds run j of a row. -/
def stageOf (j : Nat) : Stage :=
  if j < 3 then .lg else if j < 27 then .lc else if j < 32 then .mg else if j < 56 then .rc
  else if j < 59 then .rg else .full

theorem stageOf_bounds (j : Nat) (h : j < 59) :
    (stageOf j).base ≤ j ∧ j < (stageOf j).base + (stageOf j).size ∧ stageOf j ≠ .full := by
  unfold stageOf
  split
  · simp [Stage.base, Stage.size]; omega
  · split
    · simp [Stage.base, Stage.size]; omega
    · split
      · simp [Stage.base, Stage.size]; omega
      · split
        · simp [Stage.base, Stage.size]; omega
        · simp [Stage.base, Stage.size, h]; omega

theorem stageOf_next (j : Nat) (h : j < 59) :
    (j + 1 = (stageOf j).base + (stageOf j).size → stageOf (j + 1) = (stageOf j).next ∧
        (stageOf (j + 1)).base = j + 1) ∧
      (j + 1 < (stageOf j).base + (stageOf j).size → stageOf (j + 1) = stageOf j) := by
  have hj : j ∈ List.range 59 := by simpa using h
  revert hj
  generalize j = x
  revert x
  decide

theorem start_eq_nthColour (t : Stage) : t.start = nthColour t.base := by
  cases t <;> rfl

/-- The row state follows the runs seen so far: none yet, or the current run `ws.length − 1` at its
stage and slot, or all 59 runs closed. -/
def Follows (ws : List Nat) (r : RowState) : Prop :=
  (∀ i, (h : i < 59) → (r.rb[i]).toNat = ws.reverse.getD i 0) ∧
  (ws = [] ∧ r.stage = .lg ∧ r.search = true ∧ r.k = 0#5 ∨
   (∃ j, ws.length = j + 1 ∧ j < 59 ∧ r.stage = stageOf j ∧ r.search = false ∧
      r.k.toNat = j - (stageOf j).base ∧ r.cur = nthColour j) ∨
   59 < ws.length ∧ r.stage = .full ∧ r.search = false ∧ r.k = 0#5)

theorem follows_reset : Follows [] RowState.reset := by
  refine ⟨?_, .inl ⟨rfl, rfl, rfl, rfl⟩⟩
  intro i h
  simp [RowState.reset]

theorem getD_reverse_cons_succ (w : Nat) (ws : List Nat) (i : Nat) :
    ((w + 1) :: ws).reverse.getD i 0 =
      if i = ws.length then (w :: ws).reverse.getD i 0 + 1 else (w :: ws).reverse.getD i 0 := by
  rw [List.reverse_cons, List.reverse_cons]
  rcases Nat.lt_trichotomy i ws.length with h | h | h
  · rw [if_neg (by omega), List.getD_append _ _ _ _ (by simpa using h),
      List.getD_append _ _ _ _ (by simpa using h)]
  · subst h
    rw [if_pos rfl, List.getD_append_right _ _ _ _ (by simp),
      List.getD_append_right _ _ _ _ (by simp)]
    simp
  · rw [if_neg (by omega), List.getD_eq_default _ _ (by simp; omega),
      List.getD_eq_default _ _ (by simp; omega)]

theorem getD_reverse_cons_one (ws : List Nat) (i : Nat) :
    (1 :: ws).reverse.getD i 0 =
      if i = ws.length then ws.reverse.getD i 0 + 1 else ws.reverse.getD i 0 := by
  rw [List.reverse_cons]
  rcases Nat.lt_trichotomy i ws.length with h | h | h
  · rw [if_neg (by omega), List.getD_append _ _ _ _ (by simpa using h)]
  · subst h
    rw [if_pos rfl, List.getD_append_right _ _ _ _ (by simp),
      List.getD_eq_default ws.reverse _ (by simp)]
    simp
  · rw [if_neg (by omega), List.getD_eq_default _ _ (by simp; omega),
      List.getD_eq_default _ _ (by simp; omega)]

theorem getD_le_sum (l : List Nat) (i : Nat) : l.getD i 0 ≤ l.sum := by
  induction l generalizing i with
  | nil => simp
  | cons a l ih =>
    cases i with
    | zero => simp
    | succ i => simpa using le_trans (ih i) (by simp)

/-- Incrementing the element of run j follows the same increment of the runs. -/
theorem bump_follows {ws ws' : List Nat} {rb : RunBuffer} {j : Nat}
    (hrb : ∀ i, (h : i < 59) → (rb[i]).toNat = ws.reverse.getD i 0)
    (hsum : ws.sum < wMax)
    (hws : ∀ i, ws'.reverse.getD i 0 =
      if i = j then ws.reverse.getD i 0 + 1 else ws.reverse.getD i 0) :
    ∀ i, (h : i < 59) → ((bumpRun rb j)[i]).toNat = ws'.reverse.getD i 0 := by
  intro i h
  rw [bumpRun_getElem _ _ _ h, hws i]
  by_cases hij : j = i
  · subst hij
    have hle := getD_le_sum ws.reverse j
    rw [List.sum_reverse] at hle
    have hv := hrb j h
    have : wMax = 65535 := rfl
    rw [if_pos rfl, if_pos rfl, BitVec.toNat_add]
    have h1 : (1#16 : BitVec 16).toNat = 1 := rfl
    rw [h1, hv]
    omega
  · rw [if_neg hij, if_neg (by omega), hrb i h]

/-- One segmenter step follows one more pixel (40_segmenter.md R108, R109). -/
theorem segStep_follows {P : Params} (hP : P.listed = true) (ws : List Nat) (r : RowState)
    (p : Colour) (h : Follows ws r) (hsum : ws.sum < wMax) :
    Follows (runStep ws p) (segStep P p r) := by
  obtain ⟨hrb, hpos⟩ := h
  rcases hpos with ⟨rfl, hst, hse, hk⟩ | ⟨j, hlen, hj, hst, hse, hk, hcur⟩ | ⟨hlen, hst, hse, hk⟩
  · -- locating in stage 0
    unfold segStep
    simp only [closeStage, startRun, size_eq hP, base_eq hP]
    rw [if_neg (by rw [hst]; decide), if_pos hse]
    cases p
    · rw [if_neg (by rw [hst]; decide)]
      exact ⟨hrb, .inl ⟨rfl, hst, hse, hk⟩⟩
    · rw [if_pos (by rw [hst]; rfl)]
      refine ⟨?_, .inr (.inl ⟨0, rfl, by omega, ?_, rfl, rfl, rfl⟩)⟩
      · rw [hst]
        exact bump_follows hrb (by simp [wMax, wBits]) (getD_reverse_cons_one [])
      · rw [hst]; rfl
  · -- filling run j
    obtain ⟨w, ws, rfl⟩ : ∃ w ws', ws = w :: ws' := by
      cases ws with
      | nil => simp at hlen
      | cons w ws' => exact ⟨w, ws', rfl⟩
    have hwl : ws.length = j := by simpa using hlen
    obtain ⟨hb1, hb2, hnf⟩ := stageOf_bounds j hj
    obtain ⟨hn1, hn2⟩ := stageOf_next j hj
    have hsz : (stageOf j).size ≤ 24 := by cases stageOf j <;> decide
    have hk1 : (r.k + 1#5).toNat = j - (stageOf j).base + 1 := by
      rw [BitVec.toNat_add, hk]
      have h1 : (1#5 : BitVec 5).toNat = 1 := rfl
      rw [h1]
      omega
    unfold segStep
    simp only [closeStage, startRun, size_eq hP, base_eq hP]
    rw [if_neg (by rw [hst]; exact hnf), if_neg (by rw [hse]; decide)]
    have hrun : runStep (w :: ws) p =
        if p = nthColour j then (w + 1) :: ws else 1 :: w :: ws := by simp only [runStep, hwl]
    by_cases hp : p = nthColour j
    · -- the run goes on
      rw [if_neg (show ¬ p ≠ r.cur by rw [hcur, hp]; exact fun h => h rfl), hrun, if_pos hp]
      refine ⟨?_, .inr (.inl ⟨j, by simpa using hwl, hj, hst, hse, hk, hcur⟩)⟩
      have e : r.stage.base + r.k.toNat = j := by rw [hst, hk]; omega
      simp only [e]
      exact bump_follows hrb hsum (fun i => by rw [getD_reverse_cons_succ, hwl])
    · -- the colour changes
      rw [if_pos (show p ≠ r.cur by rw [hcur]; exact hp), hrun, if_neg hp]
      have hpo : p = nthColour (j + 1) := by
        rw [nthColour_succ]; exact (ne_iff_eq_other _ _).mp hp
      have hone : ∀ i, (1 :: w :: ws).reverse.getD i 0 =
          if i = j + 1 then (w :: ws).reverse.getD i 0 + 1 else (w :: ws).reverse.getD i 0 :=
        fun i => by rw [getD_reverse_cons_one]; simp [hwl]
      simp only [hk1, hst]
      by_cases hlast : j - (stageOf j).base + 1 = (stageOf j).size
      · rw [if_pos hlast]
        obtain ⟨hns, hnb⟩ := hn1 (by omega)
        simp only [← hns]
        by_cases hfull : stageOf (j + 1) = .full
        · rw [if_pos hfull]
          have hj1 : j + 1 = 59 := by
            have := hnb; rw [hfull] at this; simpa [Stage.base] using this.symm
          refine ⟨?_, .inr (.inr ⟨by simp [hwl, hj1], hfull, hse, rfl⟩)⟩
          intro i hi
          rw [hone i, if_neg (by omega)]
          exact hrb i hi
        · rw [if_neg hfull]
          have hlt : j + 1 < 59 := by
            by_contra hge
            exact hfull (by unfold stageOf; repeat rw [if_neg (by omega)])
          have hstart : p = (stageOf (j + 1)).start := by
            rw [start_eq_nthColour, hnb]; exact hpo
          rw [if_pos hstart]
          refine ⟨?_, .inr (.inl ⟨j + 1, by simp [hwl], hlt, rfl, rfl, ?_, hpo⟩)⟩
          · show ∀ i, (h : i < 59) →
              ((bumpRun r.rb (stageOf (j + 1)).base)[i]).toNat = _
            rw [hnb]
            exact bump_follows hrb hsum hone
          · show (0#5 : BitVec 5).toNat = _
            rw [hnb]
            simp
      · rw [if_neg hlast]
        have hs := hn2 (by omega)
        have hlt : j + 1 < 59 := by
          by_contra hge
          have : j = 58 := by omega
          subst this
          exact absurd hlast (by decide)
        refine ⟨?_, .inr (.inl ⟨j + 1, by simp [hwl], hlt, ?_, hse, ?_, hpo⟩)⟩
        · have e : (stageOf j).base + (j - (stageOf j).base + 1) = j + 1 := by omega
          show ∀ i, (h : i < 59) →
            ((bumpRun r.rb ((stageOf j).base + (j - (stageOf j).base + 1)))[i]).toNat = _
          rw [e]
          exact bump_follows hrb hsum hone
        · exact hs.symm ▸ rfl
        · show (r.k + 1#5).toNat = _
          rw [hk1, hs]; omega
  · -- full
    unfold segStep
    simp only [closeStage, startRun, size_eq hP, base_eq hP]
    rw [if_pos hst]
    obtain ⟨w, ws, rfl⟩ : ∃ w ws', ws = w :: ws' := by
      cases ws with
      | nil => simp at hlen
      | cons w ws' => exact ⟨w, ws', rfl⟩
    have hwl : 59 ≤ ws.length := by simpa using hlen
    refine ⟨?_, .inr (.inr ⟨lt_of_lt_of_le hlen (runStep_length_le _ _), hst, hse, hk⟩)⟩
    intro i hi
    rw [hrb i hi]
    unfold runStep
    simp only
    split
    · rw [getD_reverse_cons_succ, if_neg (by omega)]
    · rw [getD_reverse_cons_one, if_neg (by simp; omega)]

theorem foldl_runStep_sum_le (s : List Colour) (ws : List Nat) :
    (s.foldl runStep ws).sum ≤ ws.sum + s.length := by
  induction s generalizing ws with
  | nil => simp
  | cons p s ih =>
    have h1 := ih (runStep ws p)
    have h2 := runStep_sum_le ws p
    simp only [List.foldl_cons, List.length_cons]
    omega

/-- Segmenting a row pixel by pixel follows its runs (40_segmenter.md R109). -/
theorem segSteps_follows {P : Params} (hP : P.listed = true) (s : List Colour) (ws : List Nat)
    (r : RowState) (h : Follows ws r) (hlen : ws.sum + s.length ≤ wMax) :
    Follows (s.foldl runStep ws) (segSteps P s r) := by
  induction s generalizing ws r with
  | nil => exact h
  | cons p s ih =>
    simp only [List.length_cons] at hlen
    have h2 := runStep_sum_le ws p
    exact ih _ _ (segStep_follows hP ws r p h (by omega)) (by omega)

end Sys2Proof.Machine
end

