-- ==== Sys2Proof/Laws/Position.lean ====
section
/-! SUPPORT. The position invariant of Safety.lean and the abstract machine of Laws/Segmenter.lean: a row
state that meets the one follows some runs, and one that follows runs meets the other. -/

namespace Sys2Proof.Machine

open Sys2Proof

/-- What 10_state.md R36 (1 to 3) and the position invariant say of a row state alone. -/
def RowInv (P : Params) (r : RowState) : Prop :=
  (r.search = true → r.k = 0#5 ∧ ∀ i : Fin 59, P.base r.stage ≤ i.val → r.rb[i] = 0#16) ∧
  (r.stage = .full → ∀ i : Fin 59, 1 ≤ r.rb[i].toNat) ∧ PositionInv P r

/-- The stage and slot of run j. -/
theorem stageOf_base_add (t : Stage) (k : Nat) (ht : t ≠ .full) (hk : k < t.size) :
    stageOf (t.base + k) = t ∧ t.base + k < 59 := by
  cases t <;> simp only [Stage.size, Stage.base, ne_eq, not_true_eq_false] at * <;>
    (unfold stageOf; constructor <;> (repeat' split) <;> first | rfl | omega)

theorem getD_take_reverse (rb : RunBuffer) (n i : Nat) (h : i < 59) :
    ((runsOf rb).take n).reverse.reverse.getD i 0 = if i < n then rb[i].toNat else 0 := by
  rw [List.reverse_reverse, List.getD_eq_getElem?_getD, List.getElem?_take]
  split
  · rw [List.getElem?_eq_getElem (by simpa [runsOf_length] using h), runsOf_getElem]
    rfl
  · rfl

/-- A row state of the invariant, with the stage not full, follows its own runs. -/
theorem follows_of_rowInv {P : Params} (hP : P.listed = true) (r : RowState) (h : RowInv P r)
    (hs : r.stage ≠ .full) :
    ∃ ws, Follows ws r ∧ ws.sum ≤ (runsOf r.rb).sum ∧ ∀ w ∈ ws, 1 ≤ w := by
  simp only [RowInv, PositionInv, size_eq hP, base_eq hP] at h
  obtain ⟨h1, h2, h3, h4, h5⟩ := h
  cases hse : r.search
  · obtain ⟨hk, hc, hrb⟩ := h5 hse hs
    obtain ⟨ht, hj⟩ := stageOf_base_add r.stage r.k.toNat hs hk
    refine ⟨((runsOf r.rb).take (r.stage.base + r.k.toNat + 1)).reverse, ⟨?_, .inr (.inl
      ⟨r.stage.base + r.k.toNat, ?_, hj, ht.symm, hse, ?_, ?_⟩)⟩, ?_, ?_⟩
    · intro i hi
      rw [getD_take_reverse _ _ _ hi]
      split
      · rfl
      · have := (hrb ⟨i, hi⟩).2 (by simp only; omega)
        simp only [Fin.getElem_fin] at this
        rw [this]; rfl
    · simp [runsOf_length]; omega
    · rw [ht]; omega
    · rw [hc]; exact runColour_eq _ hs _
    · rw [List.sum_reverse]
      conv_rhs => rw [← List.take_append_drop (r.stage.base + r.k.toNat + 1) (runsOf r.rb)]
      rw [List.sum_append]
      omega
    · intro w hw
      rw [List.mem_reverse, List.mem_take_iff_getElem] at hw
      obtain ⟨i, hi, rfl⟩ := hw
      rw [runsOf_length] at hi
      rw [runsOf_getElem]
      exact (hrb ⟨i, by omega⟩).1 (by simp only; omega)
  · obtain ⟨hk, hrb⟩ := h1 hse
    refine ⟨[], ⟨?_, .inl ⟨rfl, h4 hse, hse, hk⟩⟩, by simp, by simp⟩
    intro i hi
    have := hrb ⟨i, hi⟩ (by rw [h4 hse]; exact Nat.zero_le _)
    simp only [Fin.getElem_fin] at this
    rw [this]; simp

/-- A row state that follows runs meets the invariant. -/
theorem rowInv_of_follows {P : Params} (hP : P.listed = true) (ws : List Nat) (r : RowState)
    (h : Follows ws r) (hpos : ∀ w ∈ ws, 1 ≤ w) : RowInv P r := by
  simp only [RowInv, PositionInv, size_eq hP, base_eq hP]
  obtain ⟨hrb, hp⟩ := h
  have hget : ∀ i, i < ws.length → 1 ≤ ws.reverse.getD i 0 := by
    intro i hi
    rw [List.getD_eq_getElem _ _ (by simpa using hi)]
    exact hpos _ (by rw [← List.mem_reverse]; exact List.getElem_mem _)
  have hzero : ∀ i, ws.length ≤ i → ws.reverse.getD i 0 = 0 := by
    intro i hi
    exact List.getD_eq_default _ _ (by simpa using hi)
  have hz : ∀ i : Fin 59, ws.length ≤ i.val → r.rb[i] = 0#16 := by
    intro i hi
    have := hrb i.val i.isLt
    rw [hzero _ hi] at this
    exact BitVec.eq_of_toNat_eq (by simpa using this)
  rcases hp with ⟨rfl, hst, hse, hk⟩ | ⟨j, hlen, hj, hst, hse, hk, hcur⟩ | ⟨hlen, hst, hse, hk⟩
  · refine ⟨fun _ => ⟨hk, fun i _ => hz i (by simp)⟩, fun h => ?_, fun _ => hk, fun _ => hst,
      fun h => ?_⟩
    · rw [hst] at h; cases h
    · rw [hse] at h; cases h
  · obtain ⟨hb1, hb2, hnf⟩ := stageOf_bounds j hj
    have e : r.stage.base + r.k.toNat = j := by rw [hst, hk]; omega
    refine ⟨fun h => ?_, fun h => ?_, fun h => ?_, fun h => ?_, fun _ _ => ⟨?_, ?_, fun i => ⟨?_, ?_⟩⟩⟩
    · rw [hse] at h; cases h
    · rw [hst] at h; exact absurd h hnf
    · rcases h with h | h
      · rw [hse] at h; cases h
      · rw [hst] at h; exact absurd h hnf
    · rw [hse] at h; cases h
    · rw [hst, hk]; omega
    · rw [runColour_eq _ (by rw [hst]; exact hnf), e, hcur]
    · rw [e]; intro hi
      have := hrb i.val i.isLt
      simp only [Fin.getElem_fin, this]
      exact hget _ (by omega)
    · rw [e]; intro hi
      exact hz i (by omega)
  · refine ⟨fun h => ?_, fun _ i => ?_, fun _ => hk, fun h => ?_, fun _ h => absurd hst h⟩
    · rw [hse] at h; cases h
    · have := hrb i.val i.isLt
      simp only [Fin.getElem_fin, this]
      exact hget _ (by omega)
    · rw [hse] at h; cases h

/-- The runs of a row state that follows ws add up to the first 59 of ws. -/
theorem runsOf_of_follows (ws : List Nat) (r : RowState) (h : Follows ws r) :
    runsOf r.rb = (ws.reverse ++ List.replicate 59 0).take 59 := by
  apply List.ext_getElem
  · simp [runsOf_length]
  · intro i h1 h2
    have hi : i < 59 := by simpa [runsOf_length] using h1
    rw [runsOf_getElem, h.1 i hi, List.getElem_take, List.getD_eq_getElem?_getD,
      List.getElem_append]
    split
    · rw [List.getElem?_eq_getElem]; rfl
    · rw [List.getElem?_eq_none (by omega), List.getElem_replicate]; rfl

theorem runsOf_sum_of_follows (ws : List Nat) (r : RowState) (h : Follows ws r) :
    (runsOf r.rb).sum ≤ ws.sum := by
  have h1 := congrArg List.sum (List.take_append_drop 59 (ws.reverse ++ List.replicate 59 0))
  rw [List.sum_append, List.sum_append, List.sum_reverse, List.sum_replicate] at h1
  rw [runsOf_of_follows ws r h]
  simp only [smul_eq_mul, Nat.mul_zero, Nat.add_zero] at h1
  omega

@[simp] theorem segStep_col (P : Params) (p : Colour) (r : RowState) :
    (segStep P p r).col = r.col := by
  simp only [segStep, startRun, closeStage]
  (repeat' split) <;> rfl

@[simp] theorem segStep_ovf (P : Params) (p : Colour) (r : RowState) :
    (segStep P p r).ovf = r.ovf := by
  simp only [segStep, startRun, closeStage]
  (repeat' split) <;> rfl

/-- One segmenter step keeps the row invariant and adds at most one pixel to the runs
(40_segmenter.md R108). -/
theorem segStep_rowInv {P : Params} (hP : P.listed = true) (p : Colour) (r : RowState)
    (h : RowInv P r) (hsum : (runsOf r.rb).sum < wMax) :
    RowInv P (segStep P p r) ∧ (runsOf (segStep P p r).rb).sum ≤ (runsOf r.rb).sum + 1 := by
  by_cases hs : r.stage = .full
  · have e : segStep P p r = r := by unfold segStep; rw [if_pos hs]
    rw [e]
    exact ⟨h, Nat.le_succ _⟩
  · obtain ⟨ws, hf, hle, hpos⟩ := follows_of_rowInv hP r h hs
    have hf' := segStep_follows hP ws r p hf (by omega)
    refine ⟨rowInv_of_follows hP _ _ hf' (runStep_pos ws p hpos), ?_⟩
    have h1 := runsOf_sum_of_follows _ _ hf'
    have h2 := runStep_sum_le ws p
    omega

end Sys2Proof.Machine
end

