-- ==== Sys2Proof/Laws/RowDriver.lean ====
section
/-! SUPPORT. The lookups, the row outcome and the row count, each said once. -/

namespace Sys2Proof.Machine

open Sys2Proof

/-! ### Lookups -/

theorem lookupAll_some {α : Type} (f : Nat → Option α) (l : List Nat) (h : ∀ x ∈ l, f x ≠ none) :
    lookupAll f l = some (l.filterMap f) := by
  induction l with
  | nil => rfl
  | cons a l ih =>
    have hl := ih (fun x hx => h x (by simp [hx]))
    cases hf : f a with
    | none => exact absurd hf (h a (by simp))
    | some e => simp [lookupAll, hf, hl]

theorem lookupAll_none {α : Type} (f : Nat → Option α) (l : List Nat) (h : ∃ x ∈ l, f x = none) :
    lookupAll f l = none := by
  induction l with
  | nil => simp at h
  | cons a l ih =>
    simp only [lookupAll]
    cases hf : f a with
    | none => rfl
    | some e =>
      have hl : lookupAll f l = none := ih (by
        obtain ⟨x, hx, hn⟩ := h
        rcases List.mem_cons.mp hx with rfl | hx
        · rw [hf] at hn; cases hn
        · exact ⟨x, hx, hn⟩)
      rw [hl]

/-- A list search by a key that appears once finds exactly the row with that key. -/
theorem find?_key_iff {α β : Type} [BEq β] [LawfulBEq β] (key : α → β) (l : List α)
    (h : (l.map key).Nodup) (k : β) (a : α) :
    l.find? (fun e => key e == k) = some a ↔ a ∈ l ∧ key a = k := by
  induction l with
  | nil => simp
  | cons b l ih =>
    rw [List.map_cons, List.nodup_cons] at h
    rw [List.find?_cons]
    by_cases hb : key b = k
    · rw [show (key b == k) = true by simp [hb]]
      constructor
      · intro he
        obtain rfl := Option.some.inj he
        exact ⟨by simp, hb⟩
      · rintro ⟨hm, hk⟩
        rcases List.mem_cons.mp hm with rfl | hm
        · rfl
        · exact absurd (List.mem_map.mpr ⟨a, hm, hk.trans hb.symm⟩) h.1
    · rw [show (key b == k) = false by simp [hb]]
      rw [ih h.2]
      constructor
      · rintro ⟨hm, hk⟩; exact ⟨by simp [hm], hk⟩
      · rintro ⟨hm, hk⟩
        rcases List.mem_cons.mp hm with rfl | hm
        · exact absurd hk hb
        · exact ⟨hm, hk⟩

/-! ### The groups of a code -/

theorem quartets_length (l : List Nat) (n : Nat) (h : l.length = 4 * n) :
    (quartets l).length = n := by
  induction n generalizing l with
  | zero =>
    obtain rfl : l = [] := List.length_eq_zero_iff.mp h
    rfl
  | succ n ih =>
    match l, h with
    | _ :: _ :: _ :: _ :: l, h =>
      rw [quartets, List.length_cons, ih l (by simp only [List.length_cons] at h; omega)]
    | [], h => simp at h
    | [_], h => simp at h; omega
    | [_, _], h => simp at h; omega
    | [_, _, _], h => simp at h; omega

theorem patternCodes_length {P : Params} (h : P.listed = true) (G : Nat) (rb : RunBuffer) :
    (patternCodes P G (groupRuns P rb .lc)).length = 6 ∧
      (patternCodes P G (groupRuns P rb .rc)).length = 6 := by
  constructor <;>
    exact (List.length_map _).trans (quartets_length _ 6 (groupRuns_length h _ _))

/-! ### The row outcome -/

theorem digitWord_head (x : Digit) (l : List Digit) : (digitWord (x :: l))[0] = x := by
  simp [digitWord]

theorem validate_eq_ok {o : RowOutcome} {d : DigitWord} {p : ParityWord}
    (h : validate o = .ok d p) : o = .ok d p ∧ checksumValid d = true := by
  cases o with
  | ok d' p' =>
    simp only [validate] at h
    split at h
    · injection h with h1 h2
      subst h1 h2
      exact ⟨rfl, ‹_›⟩
    · cases h
  | fail c => cases h

theorem identify_eq_ok {P : Params} {l r : List Nat} {d : DigitWord} {p : ParityWord}
    (h : identify P l r = .ok d p) : lookupParity P p = some d[0] := by
  unfold identify at h
  split at h
  · cases h
  · split at h
    · cases h
    · simp only at h
      split at h
      · cases h
      · rename_i hl
        injection h with h1 h2
        subst h1 h2
        rw [List.cons_append, digitWord_head]
        exact hl

/-- An OK row was not too long, filled all five groups, and its number is valid. -/
theorem rowOutcome_eq_ok {P : Params} {r : RowState} {d : DigitWord} {p : ParityWord}
    (h : rowOutcome P r = .ok d p) :
    r.ovf = false ∧ r.stage = .full ∧ checksumValid d = true ∧ lookupParity P p = some d[0] := by
  unfold rowOutcome at h
  split at h
  · cases h
  · split at h
    · cases h
    · rename_i h1 h2
      obtain ⟨a, b⟩ := validate_eq_ok h
      exact ⟨by simpa using h1, by simpa using h2, b, identify_eq_ok a⟩

theorem rowFail_status_ne (c : RowFail) : c.status ≠ .none ∧ c.status ≠ .ok := by
  cases c <;> decide

end Sys2Proof.Machine
end

