-- ==== Sys2Proof/Laws/FunctionLevel.lean ====
section
/-! SUPPORT. The function-level Fill and Segment (40_segmenter.md R102, R103) in terms of the runs of
a row. -/

namespace Sys2Proof.Machine

open Sys2Proof

/-! ### The runs of a row -/

theorem runStep_same (w : Nat) (ws : List Nat) :
    runStep (w :: ws) (nthColour ws.length) = (w + 1) :: ws := by
  simp [runStep]

theorem nthColour_succ_ne (j : Nat) : nthColour (j + 1) ≠ nthColour j := by
  rw [nthColour_succ]; exact other_ne _

theorem runStep_new (ws : List Nat) (p : Colour) (h : p = nthColour ws.length) :
    runStep ws p = 1 :: ws := by
  subst h
  cases ws with
  | nil => simp [runStep, nthColour]
  | cons w ws =>
    have h : nthColour (w :: ws).length ≠ nthColour ws.length := nthColour_succ_ne _
    simp only [runStep, if_neg h]

/-- The runs before the current one are closed: more pixels leave them as they are. -/
theorem foldl_runStep_closed (s : List Colour) (w : Nat) (ws : List Nat) :
    (s.foldl runStep (w :: ws)).reverse.take ws.length = ws.reverse := by
  induction s generalizing w ws with
  | nil => simp
  | cons p s ih =>
    rw [List.foldl_cons]
    by_cases h : p = nthColour ws.length
    · rw [show runStep (w :: ws) p = (w + 1) :: ws by simp [runStep, h]]
      exact ih _ _
    · rw [show runStep (w :: ws) p = 1 :: w :: ws by simp [runStep, h]]
      have h2 := congrArg (List.take ws.length) (ih 1 (w :: ws))
      simp only [List.take_take, List.length_cons, Nat.min_eq_left (Nat.le_succ _)] at h2
      rw [h2, List.reverse_cons, List.take_append_of_le_length (by simp)]
      simp

/-! ### Fill -/

theorem bumpAt_length (runs : List Nat) (k : Nat) : (bumpAt runs k).length = runs.length := by
  simp [bumpAt]

theorem bumpAt_getD (runs : List Nat) (k i : Nat) (hk : k < runs.length) :
    (bumpAt runs k).getD i 0 = if i = k then runs.getD i 0 + 1 else runs.getD i 0 := by
  unfold bumpAt
  by_cases h : i = k
  · subst h
    simp [List.getD_eq_getElem?_getD, hk]
  · have h' : k ≠ i := fun e => h e.symm
    simp [List.getD_eq_getElem?_getD, h, h']

/-- Fill's second loop follows the runs of the row: it either fills its group and stops at the
closing pixel, or exhausts the scanline (40_segmenter.md R102). -/
theorem collect_cases (n b i k w : Nat) (ws runs : List Nat) (ps : List Colour)
    (hk : k < n) (hj : ws.length = b + k) (hlen : runs.length = n)
    (hruns : ∀ i, i < n → runs.getD i 0 = (w :: ws).reverse.getD (b + i) 0) :
    ((collect n i k (nthColour (b + k)) runs ps).filled = false ∧
      (ps.foldl runStep (w :: ws)).length ≤ b + n) ∨
    ((collect n i k (nthColour (b + k)) runs ps).filled = true ∧
      ∃ pre rest, ps = pre ++ rest ∧
        (collect n i k (nthColour (b + k)) runs ps).next = i + pre.length ∧
        (pre.foldl runStep (w :: ws)).length = b + n ∧
        (collect n i k (nthColour (b + k)) runs ps).runs =
          (pre.foldl runStep (w :: ws)).reverse.drop b ∧
        rest.head? = some (nthColour (b + n))) := by
  induction ps generalizing i k w ws runs with
  | nil =>
    left
    refine ⟨rfl, ?_⟩
    simp only [List.foldl_nil, List.length_cons]
    omega
  | cons p ps ih =>
    unfold collect
    by_cases hp : p = nthColour (b + k)
    · have hstep : runStep (w :: ws) p = (w + 1) :: ws := by simp [runStep, hj, hp]
      rw [if_neg (by simpa using hp), List.foldl_cons, hstep]
      have h := ih (i + 1) k (w + 1) ws (bumpAt runs k) hk hj (by rw [bumpAt_length, hlen]) (by
        intro x hx
        rw [bumpAt_getD _ _ _ (by omega), getD_reverse_cons_succ, hruns x hx, hj]
        by_cases hxk : x = k
        · simp [hxk]
        · rw [if_neg hxk, if_neg (by omega)])
      rcases h with ⟨h1, h2⟩ | ⟨h1, pre, rest, h2, h3, h4, h5, h6⟩
      · exact .inl ⟨h1, h2⟩
      · refine .inr ⟨h1, p :: pre, rest, by rw [h2]; rfl, ?_, ?_, ?_, h6⟩
        · rw [h3]; simp; omega
        · rw [List.foldl_cons, hstep]; exact h4
        · rw [List.foldl_cons, hstep]; exact h5
    · rw [if_pos hp]
      have hpn : p = nthColour (b + k + 1) := by
        rw [nthColour_succ]; exact (ne_iff_eq_other _ _).mp hp
      have hstep : runStep (w :: ws) p = 1 :: w :: ws := by simp [runStep, hj, hp]
      by_cases hn : k + 1 = n
      · rw [if_pos hn]
        refine .inr ⟨rfl, [], p :: ps, rfl, rfl, ?_, ?_, ?_⟩
        · simp; omega
        · apply List.ext_getElem
          · simp [hlen]; omega
          · intro x h1 h2
            have h1' : x < n := by simpa [hlen] using h1
            have hx := hruns x h1'
            rw [List.getD_eq_getElem _ _ (by simpa using h1),
              List.getD_eq_getElem _ _ (by simp; omega)] at hx
            simpa [List.getElem_drop] using hx
        · simp [hpn, ← hn, Nat.add_assoc]
      · rw [if_neg hn, List.foldl_cons, hstep]
        have hcol : (nthColour (b + k)).other = nthColour (b + (k + 1)) := by
          rw [← Nat.add_assoc, nthColour_succ]
        rw [hcol]
        have h := ih (i + 1) (k + 1) 1 (w :: ws) (bumpAt runs (k + 1)) (by omega)
          (by simp [hj]; omega) (by rw [bumpAt_length, hlen]) (by
            intro x hx
            rw [bumpAt_getD _ _ _ (by omega), getD_reverse_cons_one, hruns x hx]
            by_cases hxk : x = k + 1
            · subst hxk
              rw [if_pos rfl, if_pos (by simp [hj]; omega)]
            · rw [if_neg hxk, if_neg (by simp [hj]; omega)])
        rcases h with ⟨h1, h2⟩ | ⟨h1, pre, rest, h2, h3, h4, h5, h6⟩
        · exact .inl ⟨h1, h2⟩
        · refine .inr ⟨h1, p :: pre, rest, by rw [h2]; rfl, ?_, ?_, ?_, h6⟩
          · rw [h3]; simp; omega
          · rw [List.foldl_cons, hstep]; exact h4
          · rw [List.foldl_cons, hstep]; exact h5

/-- Fill's second loop on the pixel that begins its group. -/
theorem collect_start (n b i : Nat) (ws : List Nat) (ps : List Colour) (hn : 0 < n)
    (hb : ws.length = b) :
    collect n i 0 (nthColour b) (List.replicate n 0) (nthColour b :: ps) =
      collect n (i + 1) 0 (nthColour (b + 0)) (bumpAt (List.replicate n 0) 0) ps ∧
    ∀ x, x < n → (bumpAt (List.replicate n 0) 0).getD x 0 = (1 :: ws).reverse.getD (b + x) 0 := by
  refine ⟨by simp [collect], ?_⟩
  intro x hx
  rw [bumpAt_getD _ _ _ (by simpa using hn), getD_reverse_cons_one, hb]
  have h0 : (List.replicate n 0).getD x 0 = 0 := by
    rw [List.getD_eq_getElem _ _ (by simpa using hx)]; simp
  have h1 : ws.reverse.getD (b + x) 0 = 0 := List.getD_eq_default _ _ (by simp; omega)
  rw [h0, h1]
  by_cases h : x = 0
  · simp [h]
  · rw [if_neg h, if_neg (by omega)]

theorem locate_white (c : Colour) (i : Nat) (ps : List Colour) :
    ∃ w rest, ps = List.replicate w c.other ++ rest ∧ (rest = [] ∨ rest.head? = some c) ∧
      locate c i ps = (i + w, rest) := by
  induction ps generalizing i with
  | nil => exact ⟨0, [], rfl, .inl rfl, rfl⟩
  | cons p ps ih =>
    by_cases hp : p = c
    · exact ⟨0, p :: ps, rfl, .inr (by simp [hp]), by simp [locate, hp]⟩
    · obtain ⟨w, rest, h1, h2, h3⟩ := ih (i + 1)
      refine ⟨w + 1, rest, ?_, h2, ?_⟩
      · rw [h1, (ne_iff_eq_other _ _).mp hp]; rfl
      · rw [locate, if_pos hp, h3]; congr 1; omega

theorem foldl_runStep_white (w : Nat) :
    (List.replicate w Colour.white).foldl runStep [] = [] := by
  induction w with
  | zero => rfl
  | succ w ih => rw [List.replicate_succ, List.foldl_cons]; simpa [runStep] using ih

/-- One call of Fill in the chain of Segment (40_segmenter.md R103, R104): it starts where the
previous call left off, on the pixel that begins its group, or, for stage 0, before it. -/
theorem fill_cases (t : Stage) (ht : t ≠ .full) (s pre rest : List Colour) (hs : s = pre ++ rest)
    (hlen : (pre.foldl runStep []).length = t.base)
    (hhead : pre = [] ∧ t = .lg ∨ rest.head? = some t.start) :
    ((fill s pre.length t.start t.size).filled = false ∧
      (runsOfRow s).length ≤ t.base + t.size) ∨
    ((fill s pre.length t.start t.size).filled = true ∧
      ∃ pre' rest', s = pre' ++ rest' ∧
        (fill s pre.length t.start t.size).next = pre'.length ∧
        (pre'.foldl runStep []).length = t.base + t.size ∧
        (fill s pre.length t.start t.size).runs = (pre'.foldl runStep []).reverse.drop t.base ∧
        rest'.head? = some (nthColour (t.base + t.size))) := by
  have hsize : 0 < t.size := by cases t <;> first | decide | exact absurd rfl ht
  -- the pixels up to the one that begins the group
  obtain ⟨w, rest1, hr, hr1, hloc⟩ := locate_white t.start pre.length rest
  have hskip : ((List.replicate w t.start.other).foldl runStep (pre.foldl runStep [])) =
      pre.foldl runStep [] := by
    rcases hhead with ⟨rfl, rfl⟩ | hh
    · exact foldl_runStep_white w
    · cases w with
      | zero => rfl
      | succ w =>
        rw [hr, List.replicate_succ] at hh
        exact absurd (by simpa using hh) (other_ne t.start)
  have hfill : fill s pre.length t.start t.size =
      if pre.length + w = s.length then ⟨s.length, List.replicate t.size 0, false⟩
      else collect t.size (pre.length + w) 0 t.start (List.replicate t.size 0) rest1 := by
    unfold fill
    have h1 : min pre.length s.length = pre.length := by rw [hs]; simp
    have h2 : s.drop pre.length = rest := by rw [hs]; simp
    rw [h1, h2, hloc]
  have hslen : s.length = pre.length + w + rest1.length := by rw [hs, hr]; simp; omega
  rw [hfill]
  rcases hr1 with rfl | hr1
  · left
    rw [if_pos (by rw [hslen]; simp)]
    refine ⟨rfl, ?_⟩
    have : runsOfRow s = pre.foldl runStep [] := by
      unfold runsOfRow
      rw [hs, hr, List.append_nil, List.foldl_append, hskip]
    rw [this, hlen]; omega
  · obtain ⟨ps, rfl⟩ : ∃ ps, rest1 = t.start :: ps := by
      cases rest1 with
      | nil => simp at hr1
      | cons p ps => exact ⟨ps, by simpa using hr1⟩
    rw [if_neg (by rw [hslen]; simp)]
    have hsc := start_eq_nthColour t
    have hcs := collect_start t.size t.base (pre.length + w) (pre.foldl runStep []) ps hsize hlen
    rw [← hsc] at hcs
    obtain ⟨hc1, hc2⟩ := hcs
    rw [hc1]
    have hc := collect_cases t.size t.base (pre.length + w + 1) 0 1 (pre.foldl runStep [])
      (bumpAt (List.replicate t.size 0) 0) ps hsize hlen (by simp [bumpAt_length]) hc2
    have hone : runStep (pre.foldl runStep []) t.start = 1 :: pre.foldl runStep [] :=
      runStep_new _ _ (by rw [hlen]; exact hsc)
    have hfold : ∀ q, ((pre ++ List.replicate w t.start.other ++ (t.start :: q)).foldl runStep []) =
        q.foldl runStep (1 :: pre.foldl runStep []) := by
      intro q
      rw [List.foldl_append, List.foldl_append, hskip, List.foldl_cons, hone]
    have hs' : s = pre ++ List.replicate w t.start.other ++ (t.start :: ps) := by
      rw [hs, hr, List.append_assoc]
    rcases hc with ⟨h1, h2⟩ | ⟨h1, p1, r1, h2, h3, h4, h5, h6⟩
    · left
      refine ⟨h1, ?_⟩
      unfold runsOfRow
      rw [hs', hfold]
      exact h2
    · right
      refine ⟨h1, pre ++ List.replicate w t.start.other ++ (t.start :: p1), r1, ?_, ?_, ?_, ?_, h6⟩
      · rw [hs', h2]; simp
      · rw [h3]; simp; omega
      · rw [hfold]; exact h4
      · rw [hfold]; exact h5

/-- A closed group of a prefix is the same group of the whole row. -/
theorem closed_group (s pre rest : List Colour) (n : Nat) (hs : s = pre ++ rest)
    (hlen : (pre.foldl runStep []).length = n) (hhead : rest.head? = some (nthColour n)) :
    (runsOfRow s).reverse.take n = (pre.foldl runStep []).reverse ∧ n < (runsOfRow s).length := by
  obtain ⟨ps, rfl⟩ : ∃ ps, rest = nthColour n :: ps := by
    cases rest with
    | nil => simp at hhead
    | cons p ps => exact ⟨ps, by simpa using hhead⟩
  unfold runsOfRow
  rw [hs, List.foldl_append, List.foldl_cons, runStep_new _ _ (by rw [hlen])]
  constructor
  · have := foldl_runStep_closed ps 1 (pre.foldl runStep [])
    rwa [hlen] at this
  · have := foldl_runStep_length_le ps (1 :: pre.foldl runStep [])
    simp only [List.length_cons, hlen] at this
    omega

/-- The group of a stage in the runs of a row, in order. -/
def rowGroup (s : List Colour) (t : Stage) : List Nat :=
  ((runsOfRow s).reverse.drop t.base).take t.size

/-- Segment, stage by stage, from a stage whose earlier stages are all filled. -/
theorem fillStages_cases {P : Params} (hP : P.listed = true) (ts : List Stage) (t0 : Stage)
    (s pre rest : List Colour)
    (hchain : List.IsChain (fun a b => b.base = a.base + a.size) (t0 :: ts))
    (hnf : ∀ t ∈ t0 :: ts, t ≠ .full) (hs : s = pre ++ rest)
    (hlen : (pre.foldl runStep []).length = t0.base)
    (hhead : pre = [] ∧ t0 = .lg ∨ rest.head? = some t0.start) :
    let last := (t0 :: ts).getLast (by simp)
    ((fillStages P s pre.length (t0 :: ts)).all (·.filled) = true ↔
        last.base + last.size < (runsOfRow s).length) ∧
    ((fillStages P s pre.length (t0 :: ts)).all (·.filled) = true →
        (fillStages P s pre.length (t0 :: ts)).map (·.runs) = (t0 :: ts).map (rowGroup s)) := by
  induction ts generalizing t0 pre rest with
  | nil =>
    rcases fill_cases t0 (hnf t0 (by simp)) s pre rest hs hlen hhead with
      ⟨h1, h2⟩ | ⟨h1, p1, r1, h2, h3, h4, h5, h6⟩
    · simp [fillStages, size_eq hP, h1, h2]
    · obtain ⟨hg, hl⟩ := closed_group s p1 r1 _ h2 h4 h6
      simp only [fillStages, size_eq hP, List.all_cons, h1, List.all_nil, Bool.and_self,
        List.getLast_singleton,
        true_iff, List.map_cons, List.map_nil, forall_const]
      refine ⟨hl, ?_⟩
      rw [h5, ← hg, rowGroup, List.drop_take]
      congr 2
      omega
  | cons t1 ts ih =>
    obtain ⟨hc1, hc2⟩ := List.isChain_cons_cons.mp hchain
    have hmono : t0.base + t0.size ≤
        ((t1 :: ts).getLast (by simp)).base + ((t1 :: ts).getLast (by simp)).size := by
      rw [← hc1]
      clear ih hchain hnf hs hlen hhead hc1
      induction ts generalizing t1 with
      | nil => simp
      | cons t2 ts ih2 =>
        obtain ⟨hd1, hd2⟩ := List.isChain_cons_cons.mp hc2
        have := ih2 t2 hd2
        rw [List.getLast_cons (by simp)]
        omega
    rw [fillStages, size_eq hP]
    simp only [List.getLast_cons (List.cons_ne_nil t1 ts)]
    rcases fill_cases t0 (hnf t0 (by simp)) s pre rest hs hlen hhead with
      ⟨h1, h2⟩ | ⟨h1, p1, r1, h2, h3, h4, h5, h6⟩
    · constructor
      · simp only [List.all_cons, h1, Bool.false_and, Bool.false_eq_true, false_iff, not_lt]
        omega
      · simp [h1]
    · obtain ⟨hg, hl⟩ := closed_group s p1 r1 _ h2 h4 h6
      have hrec := ih t1 p1 r1 hc2 (fun t ht => hnf t (by simp [ht])) h2
        (by rw [h4, hc1]) (.inr (by rw [h6, start_eq_nthColour, hc1]))
      simp only at hrec
      simp only [List.all_cons, h1, Bool.true_and, h3, List.map_cons]
      refine ⟨hrec.1, fun ha => ?_⟩
      rw [hrec.2 ha, h5, ← hg, rowGroup, List.drop_take]
      congr 2
      simp

theorem groups_chain :
    List.IsChain (fun a b : Stage => b.base = a.base + a.size) Stage.groups := by
  decide

/-- Segment in terms of the runs of the row: it succeeds iff the row has a 60th run, and its groups
are the first 59 runs (40_segmenter.md R103, R105 to R107). -/
theorem segment_runs {P : Params} (hP : P.listed = true) (s : List Colour) :
    (segment P s).1 = decide (60 ≤ (runsOfRow s).length) ∧
    ((segment P s).1 = true → (segment P s).2 = Stage.groups.map (rowGroup s)) := by
  have h := fillStages_cases hP [.lc, .mg, .rc, .rg] .lg s [] s groups_chain (by decide) rfl rfl
    (.inl ⟨rfl, rfl⟩)
  simp only [List.length_nil] at h
  have hlast : (([Stage.lg, .lc, .mg, .rc, .rg] : List Stage).getLast (by simp)).base +
      (([Stage.lg, .lc, .mg, .rc, .rg] : List Stage).getLast (by simp)).size = 59 := by decide
  rw [hlast] at h
  constructor
  · rw [Bool.eq_iff_iff, decide_eq_true_iff]
    exact h.1
  · exact h.2

end Sys2Proof.Machine
end

