-- ==== Sys2Proof/Laws/Rows.lean ====
section
/-! SUPPORT. A row is its leading white pixels and its runs (40_segmenter.md R105): both directions. -/

namespace Sys2Proof.Machine

open Sys2Proof

theorem nthColour_zero : nthColour 0 = .black := rfl

/-- The colour of the n-th of alternating runs that begin with c. -/
def colourAt (c : Colour) (n : Nat) : Colour := if n % 2 = 0 then c else c.other

theorem colourAt_succ (c : Colour) (n : Nat) : colourAt c (n + 1) = colourAt c.other n := by
  unfold colourAt
  rcases Nat.mod_two_eq_zero_or_one n with h | h
  · have : (n + 1) % 2 = 1 := by omega
    simp [h, this]
  · have : (n + 1) % 2 = 0 := by omega
    simp [h, this]

theorem colourAt_black (n : Nat) : colourAt .black n = nthColour n := rfl

theorem alternating_append (c : Colour) (us vs : List Nat) :
    alternating c (us ++ vs) = alternating c us ++ alternating (colourAt c us.length) vs := by
  induction us generalizing c with
  | nil => rfl
  | cons u us ih =>
    rw [List.cons_append, alternating, ih, alternating, List.append_assoc, List.length_cons,
      colourAt_succ]

theorem alternating_length (c : Colour) (ws : List Nat) : (alternating c ws).length = ws.sum := by
  induction ws generalizing c with
  | nil => rfl
  | cons w ws ih => simp [alternating, ih]

/-- A run of at least one pixel of the next run's colour. -/
theorem foldl_runStep_run (ws : List Nat) (w : Nat) (h : 1 ≤ w) :
    (List.replicate w (nthColour ws.length)).foldl runStep ws = w :: ws := by
  obtain ⟨n, rfl⟩ : ∃ n, w = n + 1 := ⟨w - 1, by omega⟩
  rw [List.replicate_succ, List.foldl_cons, runStep_new ws _ rfl]
  have key : ∀ n v, (List.replicate n (nthColour ws.length)).foldl runStep (v :: ws) =
      (v + n) :: ws := by
    intro n
    induction n with
    | zero => intro v; rfl
    | succ n ih =>
      intro v
      rw [List.replicate_succ, List.foldl_cons, runStep_same, ih, Nat.add_right_comm]
      rfl
  rw [key, Nat.add_comm]

/-- The runs of alternating runs are those runs. -/
theorem foldl_runStep_alternating (us ws : List Nat) (h : ∀ w ∈ us, 1 ≤ w) :
    (alternating (nthColour ws.length) us).foldl runStep ws = us.reverse ++ ws := by
  induction us generalizing ws with
  | nil => rfl
  | cons u us ih =>
    rw [alternating, List.foldl_append, foldl_runStep_run ws u (h u (by simp)), ← nthColour_succ,
      show ws.length + 1 = (u :: ws).length from rfl, ih (u :: ws) (fun w hw => h w (by simp [hw]))]
    simp

/-- White pixels, then runs that begin with black, then anything: what the runs of the whole are
until the anything begins. -/
theorem runsOfRow_rendered (f : Nat) (us : List Nat) (rest : List Colour) (h : ∀ w ∈ us, 1 ≤ w) :
    runsOfRow (List.replicate f .white ++ alternating .black us ++ rest) =
      rest.foldl runStep us.reverse := by
  unfold runsOfRow
  rw [List.foldl_append, List.foldl_append, foldl_runStep_white,
    show alternating .black us = alternating (nthColour ([] : List Nat).length) us from rfl,
    foldl_runStep_alternating us [] h, List.append_nil]

/-- Every row is its leading white pixels and then its runs. -/
theorem row_eq_runs (s : List Colour) :
    ∃ f, s = List.replicate f .white ++ alternating .black (runsOfRow s).reverse := by
  induction s using List.reverseRecOn with
  | nil => exact ⟨0, rfl⟩
  | append_singleton s p ih =>
    obtain ⟨f, hf⟩ := ih
    have hr : runsOfRow (s ++ [p]) = runStep (runsOfRow s) p := by
      simp [runsOfRow, List.foldl_append]
    rw [hr]
    generalize hw : runsOfRow s = ws at hf ⊢
    cases ws with
    | nil =>
      simp only [List.reverse_nil, alternating, List.append_nil] at hf
      cases p
      · exact ⟨f + 1, by rw [hf]; simp [runStep, alternating, List.replicate_succ']⟩
      · exact ⟨f, by rw [hf]; simp [runStep, alternating]⟩
    | cons w ws =>
      refine ⟨f, ?_⟩
      by_cases hp : p = nthColour ws.length
      · subst hp
        rw [runStep_same, hf, List.reverse_cons, List.reverse_cons, alternating_append,
          alternating_append, List.append_assoc, List.append_assoc]
        simp [alternating, colourAt_black, List.replicate_succ']
      · have hpn : p = nthColour (ws.length + 1) := by
          rw [nthColour_succ]; exact (ne_iff_eq_other _ _).mp hp
        rw [runStep_new _ _ (by simpa using hpn), hf,
          show (1 :: w :: ws).reverse = (w :: ws).reverse ++ [1] from List.reverse_cons,
          alternating_append .black (w :: ws).reverse [1], ← List.append_assoc]
        simp [alternating, colourAt_black, hpn]

/-- The runs of a row are positive. -/
theorem runsOfRow_pos (s : List Colour) : ∀ w ∈ runsOfRow s, 1 ≤ w :=
  foldl_runStep_pos s [] (by simp)

/-- More pixels leave the first n runs of a row as they are, once the next has begun. -/
theorem foldl_runStep_take (s : List Colour) (ws : List Nat) (n : Nat) (h : n < ws.length) :
    (s.foldl runStep ws).reverse.take n = ws.reverse.take n := by
  cases ws with
  | nil => simp at h
  | cons w ws =>
    have hn : n ≤ ws.length := by simpa [Nat.lt_succ_iff] using h
    have h1 := congrArg (List.take n) (foldl_runStep_closed s w ws)
    rw [List.take_take, Nat.min_eq_left hn] at h1
    rw [h1, List.reverse_cons, List.take_append_of_le_length (by simpa using hn)]

/-! ### Segment -/

theorem segment_iff {P : Params} (hP : P.listed = true) (s : List Colour) (gs : List (List Nat)) :
    segment P s = (true, gs) ↔
      60 ≤ (runsOfRow s).length ∧ gs = Stage.groups.map (rowGroup s) := by
  obtain ⟨h1, h2⟩ := segment_runs hP s
  constructor
  · intro h
    have e1 : (segment P s).1 = true := by rw [h]
    exact ⟨by rw [h1] at e1; simpa using e1, by rw [← h2 e1, h]⟩
  · rintro ⟨h, rfl⟩
    have e1 : (segment P s).1 = true := by rw [h1]; simpa using h
    rw [← h2 e1, ← e1]

/-- The five groups of a list of runs, in stage order. -/
def chunks (R : List Nat) : List (List Nat) :=
  [R.take 3, (R.drop 3).take 24, (R.drop 27).take 5, (R.drop 32).take 24, (R.drop 56).take 3]

theorem rowGroups_eq_chunks (s : List Colour) :
    Stage.groups.map (rowGroup s) = chunks (runsOfRow s).reverse := by
  simp [Stage.groups, Stage.base, Stage.size, rowGroup, chunks]

theorem chunks_flatten (R : List Nat) : (chunks R).flatten = R.take 59 := by
  simp only [chunks, List.flatten_cons, List.flatten_nil, List.append_nil]
  have e : R.take 59 = R.take 3 ++ ((R.drop 3).take 24 ++ ((R.drop 27).take 5 ++
      ((R.drop 32).take 24 ++ (R.drop 56).take 3))) := by
    rw [show (59 : Nat) = 3 + (24 + (5 + (24 + 3))) from rfl, List.take_add, List.take_add,
      List.take_add, List.take_add]
    simp [List.drop_drop]
  exact e.symm

/-- Five groups of the stages' sizes are the chunks of any runs that begin with them. -/
theorem chunks_unique (gs : List (List Nat)) (R : List Nat)
    (h : gs.map List.length = [3, 24, 5, 24, 3]) (hR : R.take 59 = gs.flatten) : chunks R = gs := by
  obtain ⟨a, b, c, d, e, rfl⟩ : ∃ a b c d e, gs = [a, b, c, d, e] := by
    rcases gs with _ | ⟨a, _ | ⟨b, _ | ⟨c, _ | ⟨d, _ | ⟨e, _ | ⟨f, gs⟩⟩⟩⟩⟩⟩ <;> simp at h
    exact ⟨a, b, c, d, e, rfl⟩
  simp only [List.map_cons, List.map_nil, List.cons.injEq, and_true] at h
  obtain ⟨ha, hb, hc, hd, he⟩ := h
  have hR' : R = a ++ (b ++ (c ++ (d ++ (e ++ R.drop 59)))) := by
    conv_lhs => rw [← List.take_append_drop 59 R, hR]
    simp
  generalize R.drop 59 = X at hR'
  subst hR'
  unfold chunks
  have t1 : ∀ Y : List Nat, (a ++ Y).take 3 = a := fun Y => by rw [← ha]; simp
  have t2 : ∀ Y : List Nat, ((a ++ (b ++ Y)).drop 3).take 24 = b := fun Y => by
    rw [← ha, ← hb]; simp
  have t3 : ∀ Y : List Nat, ((a ++ (b ++ (c ++ Y))).drop 27).take 5 = c := fun Y => by
    rw [show 27 = a.length + b.length by omega, ← hc, ← List.drop_drop]; simp
  have t4 : ∀ Y : List Nat, ((a ++ (b ++ (c ++ (d ++ Y)))).drop 32).take 24 = d := fun Y => by
    rw [show 32 = a.length + (b.length + c.length) by omega, ← hd, ← List.drop_drop,
      ← List.drop_drop]
    simp
  have t5 : ∀ Y : List Nat, ((a ++ (b ++ (c ++ (d ++ (e ++ Y))))).drop 56).take 3 = e := fun Y => by
    rw [show 56 = a.length + (b.length + (c.length + d.length)) by omega, ← he,
      ← List.drop_drop, ← List.drop_drop, ← List.drop_drop]
    simp
  rw [t1, t2, t3, t4, t5]

/-- Segment of white pixels, 59 runs and a white closing pixel, whatever follows. -/
theorem segment_rendered {P : Params} (hP : P.listed = true) (f : Nat) (us : List Nat)
    (rest : List Colour) (hl : us.length = 59)
    (h : ∀ w ∈ us, 1 ≤ w) :
    segment P (List.replicate f .white ++ alternating .black us ++ .white :: rest) =
      (true, chunks us) := by
  rw [segment_iff hP, rowGroups_eq_chunks, runsOfRow_rendered f us _ h, List.foldl_cons, runStep_new]
  · have h1 := foldl_runStep_length_le rest (1 :: us.reverse)
    simp only [List.length_cons, List.length_reverse, hl] at h1
    refine ⟨h1, ?_⟩
    have h2 := foldl_runStep_take rest (1 :: us.reverse) 59 (by simp [hl])
    rw [List.reverse_cons, List.reverse_reverse, List.take_append_of_le_length (by omega),
      List.take_of_length_le (le_of_eq hl)] at h2
    refine (chunks_unique (chunks us) _ ?_ ?_).symm
    · simp [chunks, hl]
    · rw [h2, chunks_flatten, List.take_of_length_le (le_of_eq hl)]
  · rw [List.length_reverse, hl]
    rfl

end Sys2Proof.Machine
end

