-- ==== Sys2Proof/Laws/Frames.lean ====
section
/-! SUPPORT. A row of commands as one state change: its pixels, and its evaluation at EOL
(45_row_driver.md R188; 40_segmenter.md R109). -/

namespace Sys2Proof.Machine

open Sys2Proof

/-! ### The pixels of a row -/

/-- The row state with another column count. -/
def withCol (r : RowState) (c : Count) : RowState := { r with col := c }

/-- The segmenter neither reads nor writes COL (40_segmenter.md R108). -/
theorem segStep_withCol (P : Params) (p : Colour) (r : RowState) (c : Count) :
    segStep P p (withCol r c) = withCol (segStep P p r) c := by
  unfold segStep closeStage withCol
  simp only [startRun]
  (repeat' split) <;> rfl

theorem segSteps_withCol (P : Params) (row : List Colour) (r : RowState) (c : Count) :
    segSteps P row (withCol r c) = withCol (segSteps P row r) c := by
  induction row generalizing r with
  | nil => rfl
  | cons p row ih =>
    show segSteps P row (segStep P p (withCol r c)) = _
    rw [segStep_withCol, ih]
    rfl

theorem segSteps_ovf (P : Params) (row : List Colour) (r : RowState) :
    (segSteps P row r).ovf = r.ovf := by
  induction row generalizing r with
  | nil => rfl
  | cons p row ih => exact (ih _).trans (segStep_ovf P p r)

theorem commitOf_pixelInstr (d : Bool) (s : State) :
    commitOf (pixelInstr d) s = pixCommit (pixelColour s.config d) s := by
  cases d <;> rfl

theorem commitOf_pixelCommand (s : State) (hP : s.config.listed = true) (p : Colour) :
    commitOf (pixelCommand s.config p) s = pixCommit p s := by
  rw [pixelCommand, commitOf_pixelInstr, pixelColour_pixelBit hP]

/-- The pixels of a row that stays within WMAX, in an open frame: COL counts them and the segmenter
takes them one by one. -/
theorem commitsOf_pixels (row : List Colour) (s : State) (hP : s.config.listed = true)
    (hf : s.frame.frameDone = false) (hd : s.frame.decoded = false)
    (hl : s.row.col.toNat + row.length ≤ 65535) :
    commitsOf (pixelCommands s.config row) s =
      { s with
        row := withCol (segSteps s.config row s.row) (s.row.col + BitVec.ofNat 16 row.length) } := by
  induction row generalizing s with
  | nil =>
    show s = _
    have e : s.row.col + BitVec.ofNat 16 ([] : List Colour).length = s.row.col := by simp
    rw [e]
    rfl
  | cons p row ih =>
    rw [List.length_cons] at hl
    have h1 : pixCommit p s = { s with row := segStep s.config p s.row.countPixel } := by
      unfold pixCommit
      rw [if_neg (by simp [hf]), if_neg (by simp [hd]), if_neg (by
        have e : wMax = 65535 := rfl
        rw [e]; omega)]
    have hc : (s.row.col + 1#16).toNat = s.row.col.toNat + 1 := by
      have h1 : (1#16 : BitVec 16).toNat = 1 := rfl
      rw [BitVec.toNat_add, h1]
      omega
    rw [pixelCommands, List.map_cons, commitsOf_cons, commitOf_pixelCommand s hP, h1]
    have h2 := ih { s with row := segStep s.config p s.row.countPixel } hP hf hd (by
      simp only [segStep_col, countPixel_col, hc]; omega)
    rw [pixelCommands] at h2
    rw [h2]
    have e1 : s.row.countPixel = withCol s.row (s.row.col + 1#16) := rfl
    have e2 : segSteps s.config (p :: row) s.row = segSteps s.config row (segStep s.config p s.row) := rfl
    have e3 : s.row.col + 1#16 + BitVec.ofNat 16 row.length =
        s.row.col + BitVec.ofNat 16 (p :: row).length := by
      rw [BitVec.add_assoc, List.length_cons, Nat.add_comm, BitVec.ofNat_add]
    rw [e1, segStep_withCol, segSteps_withCol, e2]
    show ({ s with row := withCol _ (s.row.col + 1#16 + BitVec.ofNat 16 row.length) } : State) = _
    rw [e3]
    rfl

/-! ### The row's outcome -/

theorem segSteps_full_iff {P : Params} (hP : P.listed = true) (s : List Colour) (hs : s.length ≤ wMax) :
    (segSteps P s RowState.reset).stage = .full ↔ 60 ≤ (runsOfRow s).length := by
  have hf := segSteps_follows hP s [] RowState.reset follows_reset (by simpa using hs)
  obtain ⟨_, h | ⟨j, hlen, hj, hst, _⟩ | ⟨hlen, hst, _⟩⟩ := hf
  · have h0 : runsOfRow s = [] := h.1
    rw [h.2.1, h0]
    simp
  · have hlen' : (runsOfRow s).length = j + 1 := hlen
    rw [hst, hlen']
    have hnf := (stageOf_bounds j hj).2.2
    constructor
    · intro h; exact absurd h hnf
    · omega
  · have hlen' : 59 < (runsOfRow s).length := hlen
    rw [hst]
    simp
    omega

theorem groupRuns_segSteps {P : Params} (hP : P.listed = true) (s : List Colour) (t : Stage)
    (hs : s.length ≤ wMax)
    (h : 60 ≤ (runsOfRow s).length) :
    groupRuns P (segSteps P s RowState.reset).rb t = rowGroup s t := by
  have hf := segSteps_follows hP s [] RowState.reset follows_reset (by simpa using hs)
  have hr : runsOf (segSteps P s RowState.reset).rb = (runsOfRow s).reverse.take 59 := by
    rw [runsOf_of_follows _ _ hf]
    exact List.take_append_of_le_length (by rw [List.length_reverse]; exact le_trans (by omega) h)
  unfold rowGroup groupRuns
  rw [size_eq hP, base_eq hP, hr, List.drop_take, List.take_take]
  congr 1
  have h59 : t.base + t.size ≤ 59 := by cases t <;> simp [Stage.base, Stage.size]
  omega

theorem decodeRow_eq {P : Params} (hP : P.listed = true) (s : List Colour) :
    decodeRow P s =
      if 60 ≤ (runsOfRow s).length then
        decodeGroups P (rowGroup s .lg) (rowGroup s .lc) (rowGroup s .mg) (rowGroup s .rc)
          (rowGroup s .rg)
      else .fail .structFail := by
  split
  · rename_i h
    have hseg := (segment_iff hP s _).mpr ⟨h, rfl⟩
    unfold decodeRow
    rw [hseg]
    rfl
  · rename_i h
    have h1 := (segment_runs hP s).1
    rw [decide_eq_false h] at h1
    unfold decodeRow
    generalize segment P s = g at h1
    obtain ⟨b, gs⟩ := g
    simp only at h1
    subst h1
    rfl

/-- The outcome of a row segmented pixel by pixel is that of DecodeRow (45_row_driver.md R180, R188). -/
theorem rowOutcome_segSteps {P : Params} (hP : P.listed = true) (s : List Colour) (c : Count)
    (hs : s.length ≤ wMax) :
    rowOutcome P (withCol (segSteps P s RowState.reset) c) = decodeRow P s := by
  have ho : (withCol (segSteps P s RowState.reset) c).ovf = false := segSteps_ovf P s RowState.reset
  have hst : (withCol (segSteps P s RowState.reset) c).stage = (segSteps P s RowState.reset).stage := rfl
  have hrb : (withCol (segSteps P s RowState.reset) c).rb = (segSteps P s RowState.reset).rb := rfl
  rw [decodeRow_eq hP, rowOutcome, ho, hst, hrb]
  by_cases h : 60 ≤ (runsOfRow s).length
  · rw [if_pos h, if_neg (by simp),
      if_neg (by rw [ne_eq, not_not]; exact (segSteps_full_iff hP s hs).mpr h)]
    simp only [groupRuns_segSteps hP s _ hs h]
  · rw [if_neg h, if_neg (by simp), if_pos (fun e => h ((segSteps_full_iff hP s hs).mp e))]

/-! ### A row of commands -/

/-- A row and its EOL in an open, undecoded frame at a row's start: DecodeRow's outcome is recorded and
the row state is clear again. -/
theorem commitsOf_row (row : List Colour) (s : State) (hP : s.config.listed = true)
    (hf : s.frame.frameDone = false)
    (hd : s.frame.decoded = false) (hr : s.row = RowState.reset) (hl : row.length ≤ 65535) :
    commitsOf (rowCommands s.config row) s =
      { s with frame := s.frame.record s.config (decodeRow s.config row) } := by
  rw [rowCommands, commitsOf_append, commitsOf_pixels row s hP hf hd (by rw [hr]; simpa using hl)]
  simp only [commitsOf_cons, commitsOf_nil, commitOf, eolCommit, hf, hd, Bool.false_eq_true, if_false,
    evaluate, rowClear, hr]
  rw [rowOutcome_segSteps hP row _ hl]

theorem pixCommit_decoded (p : Colour) (s : State) (hf : s.frame.frameDone = false)
    (hd : s.frame.decoded = true) : pixCommit p s = s := by
  simp [pixCommit, hf, hd]

/-- A row and its EOL after DECODED = 1 are ignored (46_commands.md R201, R204). -/
theorem commitsOf_row_decoded (row : List Colour) (s : State) (hP : s.config.listed = true)
    (hf : s.frame.frameDone = false)
    (hd : s.frame.decoded = true) : commitsOf (rowCommands s.config row) s = s := by
  have hp : commitsOf (pixelCommands s.config row) s = s := by
    induction row with
    | nil => rfl
    | cons p row ih =>
      rw [pixelCommands, List.map_cons, commitsOf_cons, commitOf_pixelCommand s hP,
        pixCommit_decoded p s hf hd]
      exact ih
  rw [rowCommands, commitsOf_append, hp]
  simp [commitOf, eolCommit, hf, hd]

end Sys2Proof.Machine
end

