-- ==== Sys2Proof/Laws/PerInstr.lean ====
section
/-! SUPPORT. Statements made of each command as syntax, one lemma per constructor. -/

namespace Sys2Proof.Laws.Encoding

open Sys2Proof

/-- The command is well formed, its word decodes to it and to nothing else, and the word's number is
read back from the opcode table's numbering (30_encoding.md R70, R72, R73). -/
def Statement (i : Instr) : Prop :=
  i.wf = true ∧ (∀ c : CommandWord, decode c = i ↔ c = encode i) ∧
    decodeTableWord 3 (encode i).toNat = some i

theorem pix0 : Statement .pix0 := ⟨rfl, by decide, rfl⟩
theorem pix1 : Statement .pix1 := ⟨rfl, by decide, rfl⟩
theorem eol : Statement .eol := ⟨rfl, by decide, rfl⟩
theorem rsv3 : Statement .rsv3 := ⟨rfl, by decide, rfl⟩
theorem sof : Statement .sof := ⟨rfl, by decide, rfl⟩
theorem rsv5 : Statement .rsv5 := ⟨rfl, by decide, rfl⟩
theorem eof : Statement .eof := ⟨rfl, by decide, rfl⟩
theorem rsv7 : Statement .rsv7 := ⟨rfl, by decide, rfl⟩

end Sys2Proof.Laws.Encoding
end

