-- ==== Sys2Proof/Laws/Quantizer.lean ====
section
/-! SUPPORT. The quantizer's branches, and the digits as a list. -/

namespace Sys2Proof.Machine

open Sys2Proof

/-- Everything one pair can come to (42_quantizer.md R132 to R135). -/
theorem qPair_cases (tb : TieBreak) (na nb nn G : Nat) :
    ((na < G ∨ nb < G) ∧ na ≤ nb ∧ qPair tb na nb nn G = (1, sumLessOne na nb G)) ∨
    ((na < G ∨ nb < G) ∧ nb < na ∧ qPair tb na nb nn G = (sumLessOne na nb G, 1)) ∨
    (G ≤ na ∧ G ≤ nb ∧ na % G + nb % G < G ∧ qPair tb na nb nn G = (na / G, nb / G)) ∨
    (G ≤ na ∧ G ≤ nb ∧ G ≤ na % G + nb % G ∧ nb % G ≤ na % G ∧
      qPair tb na nb nn G = (na / G + 1, nb / G)) ∨
    (G ≤ na ∧ G ≤ nb ∧ G ≤ na % G + nb % G ∧ na % G ≤ nb % G ∧
      qPair tb na nb nn G = (na / G, nb / G + 1)) := by
  unfold qPair
  split
  · rename_i h
    simp only [belowOne]
    split
    · exact .inl ⟨h, ‹_›, rfl⟩
    · exact .inr (.inl ⟨h, by omega, rfl⟩)
  · rename_i h
    have h1 : G ≤ na := by omega
    have h2 : G ≤ nb := by omega
    simp only [carryBranch]
    split
    · rename_i h3
      split
      · exact .inr (.inr (.inr (.inl ⟨h1, h2, h3, by omega, rfl⟩)))
      · split
        · exact .inr (.inr (.inr (.inr ⟨h1, h2, h3, by omega, rfl⟩)))
        · cases tb
          · simp only [tieBreak]
            split
            · exact .inr (.inr (.inr (.inr ⟨h1, h2, h3, by omega, rfl⟩)))
            · exact .inr (.inr (.inr (.inl ⟨h1, h2, h3, by omega, rfl⟩)))
          · exact .inr (.inr (.inr (.inl ⟨h1, h2, h3, by omega, rfl⟩)))
    · exact .inr (.inr (.inl ⟨h1, h2, by omega, rfl⟩))

/-- The thirteen digits as a list. -/
theorem digits_toList (d : DigitWord) :
    d.toList = [d[0], d[1], d[2], d[3], d[4], d[5], d[6], d[7], d[8], d[9], d[10], d[11],
      d[12]] := by
  apply List.ext_getElem
  · simp
  · intro i h1 h2
    simp only [List.length_cons, List.length_nil] at h2
    interval_cases i <;> simp

end Sys2Proof.Machine
end

