-- ==== Sys2Proof/Laws/RegView.lean ====
section
/-! SUPPORT. The ROW_STATUS field of the STATUS word, as a field of its concatenation
(10_state.md R42). -/

namespace Sys2Proof.Machine

open Sys2Proof

/-- Bits 7 to 4 of a word laid out as STATUS is. -/
theorem statusLayout_rowStatus (rowCount : BitVec 16) (code : BitVec 4) (b3 b2 b1 b0 : BitVec 1) :
    BitVec.extractLsb' 4 4 (rowCount ++ 0#8 ++ code ++ b3 ++ b2 ++ b1 ++ b0) = code := by
  apply BitVec.eq_of_getLsbD_eq
  intro i hi
  rw [BitVec.getLsbD_extractLsb']
  simp only [BitVec.getLsbD_append, hi]
  interval_cases i <;> simp

theorem regView_rowStatus (s : State) :
    (regView s 0#3).extractLsb' 4 4 = s.frame.rowStatus.code :=
  statusLayout_rowStatus _ _ _ _ _ _

end Sys2Proof.Machine
end

