-- ==== Sys2Proof/Tests/Slice0.lean ====
section
/-! SUPPORT. Small tests, their expected results taken from the spec's own examples and vectors
(95_test_vectors.md), and for every obligation a state and operands that meet its hypotheses. -/

namespace Sys2Proof.Tests

open Sys2Proof Sys2Proof.Machine

/-! ### Helpers -/

/-- Whether an outcome is a next state with the property. -/
def nextAnd (o : Host.Outcome State Fault Refusal) (p : State → Bool) : Bool :=
  match o with
  | .next t => p t
  | .fault _ => false
  | .refused _ => false

/-- Whether an outcome is the fault. -/
def faultsWith (o : Host.Outcome State Fault Refusal) (f : Fault) : Bool :=
  match o with
  | .next _ => false
  | .fault g => decide (f = g)
  | .refused _ => false

/-- Whether an outcome is the refusal. -/
def refusesWith (o : Host.Outcome State Fault Refusal) (r : Refusal) : Bool :=
  match o with
  | .next _ => false
  | .fault _ => false
  | .refused q => decide (r = q)

/-- A result that was refused. -/
def rejects {α : Type} (r : Except AsmReject α) (e : AsmReject) : Bool :=
  match r with
  | .ok _ => false
  | .error f => decide (e = f)

/-- The row state of a row of the given 59 runs, closed, with its column count. -/
def fullRow (ws : List Nat) (col : Nat) : RowState :=
  { RowState.reset with
    stage := .full, search := false, cur := .white, col := BitVec.ofNat 16 col,
    rb := Vector.ofFn fun i => BitVec.ofNat 16 (ws.getD i.val 0) }

/-- The 59 widths of program P1, 95_test_vectors.md (4006381333931, m = 1). -/
def widthsP1 : List Nat :=
  [1, 1, 1] ++ [3, 2, 1, 1, 1, 1, 2, 3, 1, 1, 1, 4] ++ [1, 4, 1, 1, 3, 1, 2, 1, 1, 2, 2, 2] ++
  [1, 1, 1, 1, 1] ++ [1, 4, 1, 1, 1, 4, 1, 1, 1, 4, 1, 1] ++ [3, 1, 1, 2, 1, 4, 1, 1, 2, 2, 2, 1] ++
  [1, 1, 1]

/-- The widths of program P2's row 1 (0000000123456): the check digit is wrong. -/
def widthsBadCheck : List Nat :=
  [1, 1, 1] ++ [3, 2, 1, 1, 3, 2, 1, 1, 3, 2, 1, 1] ++ [3, 2, 1, 1, 3, 2, 1, 1, 3, 2, 1, 1] ++
  [1, 1, 1, 1, 1] ++ [2, 2, 2, 1, 2, 1, 2, 2, 1, 4, 1, 1] ++ [1, 1, 3, 2, 1, 2, 3, 1, 1, 1, 1, 4] ++
  [1, 1, 1]

/-- P1's widths with left digits 2 and 3 in the other alphabet (digits 0 and 6 as L): LLLLGG. -/
def widthsBadParity : List Nat :=
  [1, 1, 1] ++ [3, 2, 1, 1, 3, 2, 1, 1, 1, 1, 1, 4] ++ [1, 4, 1, 1, 3, 1, 2, 1, 1, 2, 2, 2] ++
  [1, 1, 1, 1, 1] ++ [1, 4, 1, 1, 1, 4, 1, 1, 1, 4, 1, 1] ++ [3, 1, 1, 2, 1, 4, 1, 1, 2, 2, 2, 1] ++
  [1, 1, 1]

/-- The 59 runs of program P4's row, 95_test_vectors.md (4046381333937, m = 4, one quartet changed). -/
def widthsP4 : List Nat :=
  [4, 4, 4] ++ [12, 8, 4, 4, 10, 10, 7, 1, 4, 4, 4, 16] ++ [4, 16, 4, 4, 12, 4, 8, 4, 4, 8, 8, 8] ++
  [4, 4, 4, 4, 4] ++ [4, 16, 4, 4, 4, 16, 4, 4, 4, 16, 4, 4] ++
  [12, 4, 4, 8, 4, 16, 4, 4, 4, 12, 4, 8] ++ [4, 4, 4]

def withRow (r : RowState) : State := { State.reset with row := r }
def withFrame (f : FrameState) : State := { State.reset with frame := f }

/-- P1's row before its EOL. -/
def rowP1 : State := withRow (fullRow widthsP1 98)

/-- The frame after P1's EOL. -/
def decodedFrame : FrameState :=
  { FrameState.reset with
    decoded := true, rowStatus := .ok, rowCount := 1#16,
    digits := #v[4, 0, 0, 6, 3, 8, 1, 3, 3, 3, 9, 3, 1], parity := 0x13#6 }

def decodedState : State := withFrame decodedFrame
def doneState : State := withFrame { FrameState.reset with frameDone := true }

/-- A row of COL white pixels, still locating. -/
def quietRow (col : Nat) : RowState := { RowState.reset with col := BitVec.ofNat 16 col }

/-- A configuration the spec admits beside the hardware's own: TIE_BREAK = FIRST, LOWER_CLAMP = true and
a latency of 2 (93 I3, I5, I7). -/
def otherBuild : Params :=
  { hardware with tieBreak := .first, lowerClamp := true, evalLatency := 2 }

/-- A state built with that latency. -/
def withLatency (s : State) (n : Nat) : State :=
  { s with config := { s.config with evalLatency := n } }

/-- The host presents a word at the coming edge. -/
def presenting (s : State) (c : CommandWord) : State :=
  { s with host := [⟨false, true, c, 0#3⟩] }

/-! ### Well-formedness: each check refuses an ill-formed term -/

/-- R153, property 1: the component 0 of 0331. -/
def badComponent : Params := { hardware with tableR := [⟨331, 0⟩] }
/-- R153, property 2: 1111 sums to 4. -/
def badSum : Params := { hardware with tableR := [⟨1111, 0⟩] }
/-- R153, property 3: an L key that is also a G key. -/
def badLeftKeys : Params := { hardware with tableLG := [⟨3211, 0, .L⟩, ⟨3211, 1, .G⟩] }
/-- R153, property 4, in TABLE_R. -/
def badRightKeys : Params := { hardware with tableR := [⟨3211, 0⟩, ⟨3211, 1⟩] }
/-- R153, property 4, in TABLE_PAR. -/
def badParityKeys : Params := { hardware with tablePar := [⟨0#6, 0⟩, ⟨0#6, 1⟩] }

theorem test_wf_commands : ∀ i : Instr, i.wf = true := by intro i; cases i <;> decide
theorem test_wf_hardware : hardware.wf = true := by decide
theorem test_wf_other_build : otherBuild.wf = true := by decide
/-- Each parameter of one listed value (00_scope.md R5), with another value. -/
theorem test_listed_refuses_each :
    [{ hardware with guardPositions := 12 }, { hardware with sizes := #v[3, 24, 5, 24, 4] },
      { hardware with clampMax := 5 }, { hardware with rowCntBits := 15 },
      { hardware with black := false }, { hardware with white := true }].all
      (fun P => !Params.listed P && refusesWith (boot P) .unlistedParameters) = true := by decide
theorem test_boot_starts_in_reset_state :
    nextAnd (boot otherBuild) (fun t => decide (t = State.resetWith otherBuild)) = true := by decide
theorem test_wf_refuses_component : badComponent.patternKeys.all keyComponentsOk = false := by decide
theorem test_wf_refuses_sum : badSum.patternKeys.all keySumOk = false := by decide
theorem test_wf_refuses_left_keys : badLeftKeys.leftKeysDistinct = false := by decide
theorem test_wf_refuses_right_keys : badRightKeys.rightKeysDistinct = false := by decide
theorem test_wf_refuses_parity_keys : badParityKeys.parityKeysDistinct = false := by decide
theorem test_boot_refuses_each :
    [badComponent, badSum, badLeftKeys, badRightKeys, badParityKeys].all
      (fun P => refusesWith (boot P) .illFormedTables) = true := by decide

/-! ### Decoding: every word of the opcode map, bit by bit (30_encoding.md R72) -/

theorem test_decode_pix0 : decode 0b000#3 = .pix0 := by decide
theorem test_decode_pix1 : decode 0b001#3 = .pix1 := by decide
theorem test_decode_eol : decode 0b010#3 = .eol := by decide
theorem test_decode_rsv3 : decode 0b011#3 = .rsv3 := by decide
theorem test_decode_sof : decode 0b100#3 = .sof := by decide
theorem test_decode_rsv5 : decode 0b101#3 = .rsv5 := by decide
theorem test_decode_eof : decode 0b110#3 = .eof := by decide
theorem test_decode_rsv7 : decode 0b111#3 = .rsv7 := by decide
theorem test_decode_rejects_eight : decodeTableWord 3 8 = none := by decide
theorem test_decode_table_word : decodeTableWord 8 6 = some .eof := by decide

/-! ### The assembler (30_encoding.md R75 to R78) -/

theorem test_asm_run : expandLine (.run true 3) = .ok [0b001#3, 0b001#3, 0b001#3] := by decide
theorem test_asm_mods : expandLine (.mods true 2 [1, 2]) =
    .ok [0b001#3, 0b001#3, 0b000#3, 0b000#3, 0b000#3, 0b000#3] := by decide
/-- k = 0 (assumption log 11). -/
theorem test_asm_mods_without_widths : expandLine (.mods true 2 []) = .ok [] := by decide
theorem test_asm_row_is_eol : expandLine .row = .ok [0b010#3] := by decide
theorem test_asm_word_refuses_eight : rejects (expandLine (.word 8)) .wordOutOfRange = true := by
  decide
theorem test_asm_mods_refuses_zero :
    (rejects (expandLine (.mods true 0 [1])) .zeroModuleWidth &&
      rejects (expandLine (.mods true 1 [1, 0])) .zeroModuleWidth) = true := by decide
theorem test_asm_text :
    assembleText ['r', 'u', 'n', ' ', '0', ',', '2', ' ', ';', 'x', '\n', 'E', 'O', 'L'] =
      .ok [0b000#3, 0b000#3, 0b010#3] := by decide

/-! ### Commands, one step each -/

/-- CMD-2, 46_commands.md R202's example. -/
theorem test_pix0_quiet : nextAnd (exec .pix0 State.reset) (fun t =>
    decide (t.row = { RowState.reset with col := 1#16 })) = true := by decide

/-- CMD-24 and CMD-25: the 65535th pixel is counted and the 65536th sets OVF. -/
theorem test_pix0_at_wmax :
    (nextAnd (exec .pix0 (withRow (quietRow 65534))) (fun t =>
        decide (t.row.col = 65535#16 ∧ t.row.ovf = false)) &&
      nextAnd (exec .pix0 (withRow (quietRow 65535))) (fun t =>
        decide (t.row.col = 65535#16 ∧ t.row.ovf = true))) = true := by decide

/-- CMD-3, 46_commands.md R203's example, from the state after PIX0. -/
theorem test_pix1_starts_guard : nextAnd (exec .pix1 (withRow (quietRow 1))) (fun t =>
    decide (t.row.col = 2#16 ∧ t.row.stage = .lg ∧ t.row.search = false ∧ t.row.k = 0#5 ∧
      t.row.cur = .black ∧ t.row.rb[0] = 1#16 ∧ t.row.rb[1] = 0#16)) = true := by decide

/-- CMD-8: a pixel after EOF. -/
theorem test_pix1_after_eof : nextAnd (exec .pix1 doneState) (fun t =>
    decide (regView t 0#3 = 0x00000006#32 ∧ t.row.col = 0#16)) = true := by decide

/-- CMD-4: EOL with no pixels is a structural failure, counted. -/
theorem test_eol_empty_row : nextAnd (exec .eol State.reset) (fun t =>
    decide (regView t 0#3 = 0x00010020#32)) = true := by decide

/-- ROW-1: EOL after P1's 98 pixels, every register. -/
theorem test_eol_decodes : nextAnd (exec .eol rowP1) (fun t =>
    decide (regView t 0#3 = 0x00010011#32 ∧ regView t 2#3 = 0x00040063#32 ∧
      regView t 1#3 = 0x81333931#32 ∧ regView t 4#3 = 0x3A4#32 ∧ regView t 3#3 = 0xCEEFADAB#32 ∧
      regView t 5#3 = 0x13#32)) = true := by decide

/-- CMD-12: EOF evaluates the open row, counted once. -/
theorem test_eof_evaluates : nextAnd (exec .eof rowP1) (fun t =>
    decide (regView t 0#3 = 0x00010013#32 ∧ t.row = RowState.reset)) = true := by decide

/-- CMD-7: a second EOF. -/
theorem test_eof_twice : nextAnd (exec .eof doneState) (fun t =>
    decide (regView t 0#3 = 0x00000006#32)) = true := by decide

/-- CMD-10 and CMD-15: SOF clears a finished frame and an open row. -/
theorem test_sof_clears : (nextAnd (exec .sof doneState) (fun t => decide (t = State.reset)) &&
    nextAnd (exec .sof rowP1) (fun t => decide (t = State.reset))) = true := by decide

/-- CMD-17. -/
theorem test_rsv3 : nextAnd (exec .rsv3 State.reset) (fun t =>
    decide (regView t 0#3 = 0x00000004#32)) = true := by decide

/-- CMD-20: the row in progress is not disturbed. -/
theorem test_rsv5_keeps_row : nextAnd (exec .rsv5 rowP1) (fun t =>
    decide (regView t 0#3 = 0x00000004#32 ∧ t.row = rowP1.row)) = true := by decide

/-- CMD-21. -/
theorem test_rsv7_after_eof : nextAnd (exec .rsv7 doneState) (fun t =>
    decide (regView t 0#3 = 0x00000006#32)) = true := by decide

/-- CMD-29: ROW_COUNT saturates. -/
theorem test_row_count_saturates :
    nextAnd (exec .eol (withFrame { FrameState.reset with
      rowStatus := .structFail, rowCount := 65535#16 })) (fun t =>
        decide (regView t 0#3 = 0xFFFF0020#32)) = true := by decide

/-! ### Edges (46_commands.md R200; RST-1 to RST-3) -/

/-- RST-3, edge t: EOL accepted with EVAL_LATENCY = 2. -/
theorem test_edge_accepts_eol : nextAnd (step (withLatency (presenting State.reset 0b010#3) 2))
    (fun t => decide (t.pending = some ⟨.eol, 1⟩ ∧
      regView t 0#3 = 0x00000008#32 ∧ t.inReady = false)) = true := by decide

/-- RST-3, edges t+1 and t+2. -/
theorem test_edge_counts_down_and_commits :
    (nextAnd (step { State.reset with pending := some ⟨.eol, 1⟩ }) (fun t =>
        decide (t.pending = some ⟨.eol, 0⟩)) &&
      nextAnd (step { State.reset with pending := some ⟨.eol, 0⟩ }) (fun t =>
        decide (regView t 0#3 = 0x00010020#32 ∧ t.pending = none ∧ t.inReady = true))) = true := by
  decide

/-- RST-2: reset at the next edge, and the EOL never commits. -/
theorem test_edge_reset_drops_pending :
    nextAnd (step { State.reset with
      pending := some ⟨.eol, 2⟩, host := [⟨true, true, 0b010#3, 0#3⟩] }) (fun t =>
        decide (t = State.reset)) = true := by decide

/-- 70 R254, 93 I4: nothing runs before the first reset edge. -/
theorem test_edge_before_reset :
    (faultsWith (step (presenting (powerUp State.reset) 0b010#3)) .commandBeforeReset &&
      faultsWith (exec .pix0 (powerUp State.reset)) .commandBeforeReset) = true := by decide

/-- The ports at power-up: the fault of 70 R254 in a cycle with `rst = 0`, and in one with `rst = 1` the
fault of the read beside the levels R48 gives. A read in a reset cycle later on gives the reset state's
word (20 R51). -/
theorem test_port_before_first_reset :
    portOut (powerUp decodedState) = .error .readBeforeReset ∧
    portOut (powerUp { decodedState with host := [⟨true, false, 0#3, 3#3⟩] }) =
      .ok ⟨false, .error .readBeforeReset, false, false, false⟩ ∧
    portOut { decodedState with host := [⟨true, false, 0#3, 3#3⟩] } =
      .ok ⟨false, .ok 0#32, false, false, false⟩ := ⟨rfl, rfl, rfl⟩

/-- The word of each command, presented by `withFetchWord`, is committed by the very next step. -/
theorem test_fetch_word_runs_each :
    (nextAnd (step (State.reset.withFetchWord 3 1)) (fun t => decide (t.row.rb[0] = 1#16)) &&
      nextAnd (step (State.reset.withFetchWord 3 2)) (fun t =>
        decide (t.frame.rowStatus = .structFail)) &&
      nextAnd (step (State.reset.withFetchWord 3 6)) (fun t => t.frame.frameDone) &&
      nextAnd (step (State.reset.withFetchWord 3 7)) (fun t => t.frame.cmdErr)) = true := by decide

/-! ### The segmenter, the quantizer, the tables and the checksum -/

/-- SEG-1 to SEG-3. -/
theorem test_fill :
    fill [.white, .white, .black, .white, .black, .white] 0 .black 3 = ⟨5, [1, 1, 1], true⟩ ∧
    fill [.white, .white, .black, .white, .black] 0 .black 3 = ⟨5, [1, 1, 1], false⟩ ∧
    fill [.white, .white, .white] 0 .black 3 = ⟨3, [0, 0, 0], false⟩ := by decide

/-- SEG-11: the closing pixel of stage 0 is the first of stage 1. -/
theorem test_seg_step_closes_stage :
    segSteps hardware [.white, .white, .black, .white, .black, .white] RowState.reset =
      { RowState.reset with
        stage := .lc, search := false, cur := .white,
        rb := Vector.ofFn fun i => if i.val < 4 then 1#16 else 0#16 } := by decide

/-- QNT-3, QNT-4, QNT-6, QNT-13, QNT-16 and QNT-18. -/
theorem test_quantize :
    quantize hardware ⟨5, 5, 2, 2⟩ 22 = ⟨3, 2, 1, 1⟩ ∧
    quantize hardware ⟨10, 10, 7, 1⟩ 44 = ⟨2, 3, 1, 1⟩ ∧
    quantize hardware ⟨1, 1, 4, 4⟩ 22 = ⟨1, 0, 2, 2⟩ ∧
    quantize hardware ⟨3, 2, 2, 3⟩ 12 = ⟨2, 2, 2, 2⟩ ∧
    quantize hardware ⟨2, 3, 5, 4⟩ 24 = ⟨1, 1, 2, 2⟩ ∧
    quantize hardware ⟨12, 2, 6, 8⟩ 44 = ⟨2, 1, 1, 2⟩ := by decide

/-- QNT-4 under TIE_BREAK = FIRST, QNT-6 under LOWER_CLAMP = true, and QNT-8's clamp. -/
theorem test_quantize_parameters :
    quantize { hardware with tieBreak := .first } ⟨10, 10, 7, 1⟩ 44 = ⟨3, 2, 1, 1⟩ ∧
    quantize { hardware with lowerClamp := true } ⟨1, 1, 4, 4⟩ 22 = ⟨1, 1, 2, 2⟩ ∧
    quantize hardware ⟨9, 1, 1, 1⟩ 11 = ⟨4, 1, 1, 1⟩ := by decide

/-- Program P4: its row (m = 4, 392 pixels) decodes under NEIGHBOUR and is a PARITY_FAIL under FIRST, so
a commit reads the parameters of the state it is given. STATUS is read
after EOF. -/
theorem test_commit_reads_tie_break :
    (nextAnd (exec .eof (withRow (fullRow widthsP4 392))) (fun t =>
        decide (regView t 0#3 = 0x00010013#32)) &&
      nextAnd (exec .eof { withRow (fullRow widthsP4 392) with
        config := { hardware with tieBreak := .first } }) (fun t =>
          decide (regView t 0#3 = 0x00010042#32))) = true := by decide

/-- LUT-1 to LUT-10. -/
theorem test_lookups :
    lookupLeft hardware 3211 = some (0, .L) ∧ lookupLeft hardware 2311 = some (4, .G) ∧
    lookupLeft hardware 1211 = none ∧ lookupRight hardware 1114 = some 6 ∧
    lookupRight hardware 4111 = none ∧ lookupParity hardware 0b000000#6 = some 0 ∧
    lookupParity hardware 0b010011#6 = some 4 ∧ lookupParity hardware 0b000011#6 = none ∧
    lookupParity hardware 0b111111#6 = none ∧ lookupLeft hardware 1022 = none := by decide

/-- CHK-1, CHK-3, CHK-6, CHK-8. -/
theorem test_checksum :
    checksum #v[4, 0, 0, 6, 3, 8, 1, 3, 3, 3, 9, 3, 1] = 90 ∧
    checksum #v[0, 0, 0, 0, 0, 0, 0, 1, 2, 3, 4, 5, 6] = 39 ∧
    checksum #v[9, 9, 9, 9, 9, 9, 9, 9, 9, 9, 9, 9, 4] = 220 ∧
    checksum #v[4, 0, 4, 6, 3, 8, 1, 3, 3, 3, 9, 3, 7] = 100 := by decide

/-! ### Witnesses: for each obligation with hypotheses, and each of its clauses, data that meet them -/

theorem test_witness_inv_reset : Inv State.reset :=
  ⟨by decide, by decide, by decide, by decide, fun q h => (by cases h)⟩
theorem test_witness_inv_full : Inv rowP1 :=
  ⟨by decide, by decide, by decide, by decide, fun q h => (by cases h)⟩
theorem test_witness_inv_decoded : Inv decodedState :=
  ⟨by decide, by decide, by decide, by decide, fun q h => (by cases h)⟩
theorem test_witness_inv_done : Inv doneState :=
  ⟨by decide, by decide, by decide, by decide, fun q h => (by cases h)⟩
theorem test_witness_inv_pending :
    Inv { rowP1 with pending := some ⟨.eol, 3⟩, config := { otherBuild with evalLatency := 4 } } :=
  ⟨by decide, by decide, by decide, by decide, fun q h => (by cases h; rfl)⟩

/-- RunAndModsExpandToPixelRuns: the least module width and run width, and the listed parameters of two
builds, which every statement about a `Params` with the listed values is met by. -/
theorem test_witness_mods :
    hardware.listed = true ∧ otherBuild.listed = true ∧ 1 ≤ 1 ∧ ∀ w ∈ [1, 1], 1 ≤ w := by decide

/-- BootRefusesIllFormedTables: configurations that boot, one that breaks each property (with
test_boot_refuses_each), and, with good tables, one that is not listed. -/
theorem test_witness_boot :
    hardware.wf = true ∧ otherBuild.wf = true ∧
    (¬ ∀ key ∈ badComponent.tableR.map (·.code), 1 ≤ key / 1000) ∧
    (¬ ∀ key ∈ badSum.tableR.map (·.code),
      key / 1000 + key / 100 % 10 + key / 10 % 10 + key % 10 = 7) ∧
    ¬ (badLeftKeys.tableLG.map (·.code)).Nodup ∧ ¬ (badRightKeys.tableR.map (·.code)).Nodup ∧
    ¬ (badParityKeys.tablePar.map (·.word)).Nodup ∧
    ({ hardware with clampMax := 5 } : Params).tablesOk = true := by decide

/-- ConfigurationIsReadOnly: a command and an edge that reach a next state, in another build. -/
theorem test_witness_configuration :
    (nextAnd (exec .eol (State.resetWith otherBuild)) (fun t => decide (t.config = otherBuild)) &&
      nextAnd (step (State.resetWith otherBuild)) (fun t => decide (t.config = otherBuild))) =
        true := by decide

/-- ReservedWordsSetOnlyCmdErr, EveryCommandCompletes: a state of each kind. -/
theorem test_witness_live : rowP1.resetSeen = true ∧ (powerUp rowP1).resetSeen = false := by decide

/-- PixelCommandsCommit: the four conditions, the last two at the edge of the column count. -/
theorem test_witness_pixel_commands :
    (doneState.resetSeen = true ∧ doneState.config.listed = true ∧ doneState.frame.frameDone = true) ∧
    (decodedState.resetSeen = true ∧ decodedState.frame.frameDone = false ∧
      decodedState.frame.decoded = true) ∧
    ((withRow (quietRow 65535)).frame.frameDone = false ∧
      (withRow (quietRow 65535)).frame.decoded = false ∧
      (withRow (quietRow 65535)).row.col.toNat = 65535) ∧
    ((withRow (quietRow 65534)).frame.frameDone = false ∧
      (withRow (quietRow 65534)).frame.decoded = false ∧
      (withRow (quietRow 65534)).row.col.toNat ≠ 65535) := by decide

/-- PixelCornerCases: both clauses, with the invariant of test_witness_inv_reset and
test_witness_inv_full. -/
theorem test_witness_pixel_corners :
    (State.reset.resetSeen = true ∧ State.reset.frame.frameDone = false ∧
      State.reset.frame.decoded = false ∧ State.reset.row.col.toNat ≠ 65535 ∧
      State.reset.row.stage = .lg ∧ State.reset.row.search = true) ∧
    (rowP1.resetSeen = true ∧ rowP1.frame.frameDone = false ∧ rowP1.frame.decoded = false ∧
      rowP1.row.col.toNat ≠ 65535 ∧ rowP1.row.stage = .full) := by decide

/-- EolCommits, EofCommits, ResultsAreWrittenOnlyByAnOkRow: an OK row and a failing one, each open and
undecoded, beside the closed row of the reset state. -/
theorem test_witness_evaluation :
    rowOutcome State.reset.config rowP1.row =
      .ok #v[4, 0, 0, 6, 3, 8, 1, 3, 3, 3, 9, 3, 1] 0b010011#6 ∧
    0 < rowP1.row.col.toNat ∧
    rowOutcome State.reset.config (quietRow 1) = .fail .structFail ∧ 0 < (quietRow 1).col.toNat ∧
    State.reset.row.col.toNat = 0 := by decide

/-- SofRestoresTheResetState: a presented SOF with nothing pending, and one in a busy window. -/
theorem test_witness_sof :
    (Idle doneState ∧ decode 0b100#3 = .sof) ∧
    (({ rowP1 with pending := some ⟨.eol, 0⟩ } : State).resetSeen = true ∧
      ({ rowP1 with pending := some ⟨.eol, 0⟩ } : State).pending = some ⟨.eol, 0⟩) := by decide

/-- RowOutcomePriority: each of the six outcomes has its row (the vectors CMD-28, SEG-9, SEG-7,
LUT-8, ROW-3, ROW-1). -/
theorem test_witness_row_outcomes :
    rowOutcome State.reset.config (fullRow widthsP1 65535).setOvf = .fail .rowTooLong ∧
    rowOutcome State.reset.config (quietRow 120) = .fail .structFail ∧
    rowOutcome State.reset.config (fullRow (List.replicate 59 1) 60) = .fail .patternFail ∧
    rowOutcome State.reset.config (fullRow widthsBadParity 98) = .fail .parityFail ∧
    rowOutcome State.reset.config (fullRow widthsBadCheck 101) = .fail .checksumFail ∧
    rowOutcome State.reset.config (fullRow widthsP1 98) =
      .ok #v[4, 0, 0, 6, 3, 8, 1, 3, 3, 3, 9, 3, 1] 0b010011#6 := by decide

/-- RowStatusCodes: the vectors CMD-28, SEG-9, SEG-7, LUT-8, ROW-3 and ROW-1 through EOL, and one through
EOF, give the codes 6, 2, 3, 4, 5 and 1 in STATUS[7:4] (10_state.md R25). -/
theorem test_row_status_codes :
    [((fullRow widthsP1 65535).setOvf, 6#4), (quietRow 120, 2#4),
      (fullRow (List.replicate 59 1) 60, 3#4), (fullRow widthsBadParity 98, 4#4),
      (fullRow widthsBadCheck 101, 5#4), (fullRow widthsP1 98, 1#4)].all (fun e =>
        nextAnd (exec .eol (withRow e.1)) (fun t =>
          decide ((regView t 0#3).extractLsb' 4 4 = e.2)) &&
        nextAnd (exec .eof (withRow e.1)) (fun t =>
          decide ((regView t 0#3).extractLsb' 4 4 = e.2))) = true := by decide

/-- RowStatusCodes: an evaluating command of each kind, the three that evaluate nothing (after EOF, after
DECODED, and EOF with no row open), and an edge that resets. -/
theorem test_witness_row_status :
    (rowP1.frame.frameDone = false ∧ rowP1.frame.decoded = false ∧ 0 < rowP1.row.col.toNat ∧
      rowP1.resetSeen = true) ∧
    nextAnd (exec .eol doneState) (fun _ => true) = true ∧
    nextAnd (exec .eof decodedState) (fun _ => true) = true ∧
    (State.reset.row.col.toNat = 0 ∧ nextAnd (exec .eof State.reset) (fun _ => true) = true) ∧
    ({ rowP1 with host := [⟨true, false, 0#3, 0#3⟩] } : State).portIn.rst = true := by decide

/-- CmdErrIsStickyAndHasFourCauses, RowCountCountsEvaluatedRows, ColCountsPixelsAndNeverWraps: commands
of each kind reach a next state. -/
theorem test_witness_next_states :
    (nextAnd (exec .rsv5 rowP1) (fun _ => true) && nextAnd (exec .pix0 doneState) (fun _ => true) &&
      nextAnd (exec .eol rowP1) (fun _ => true) && nextAnd (exec .sof rowP1) (fun _ => true) &&
      nextAnd (exec .pix1 (withRow (quietRow 65535))) (fun _ => true) ) = true := by decide

/-- ColCountsPixelsAndNeverWraps: a pixel just below WMAX and at it, a discarded one, a reserved word, and
EOL, EOF and SOF in states of the invariant (test_witness_inv_full, test_witness_inv_done). -/
theorem test_witness_col :
    ((withRow (quietRow 65534)).row.col.toNat < 65535 ∧
      nextAnd (exec .pix0 (withRow (quietRow 65534))) (fun _ => true) = true) ∧
    (withRow (quietRow 65535)).row.col.toNat = 65535 ∧
    nextAnd (exec .pix1 decodedState) (fun _ => true) = true ∧
    nextAnd (exec .rsv7 rowP1) (fun _ => true) = true ∧
    nextAnd (exec .eol rowP1) (fun _ => true) = true ∧
    nextAnd (exec .eof doneState) (fun _ => true) = true ∧
    nextAnd (exec .sof rowP1) (fun _ => true) = true := by decide

/-- CmdErrIsStickyAndHasFourCauses, ResetWinsOverEverything: an edge with `rst = 1`, and a second one
after it. -/
theorem test_witness_reset_edges :
    let s := { rowP1 with
      pending := some ⟨.eol, 1⟩, host := [⟨true, true, 0#3, 0#3⟩, ⟨true, false, 0#3, 1#3⟩] }
    s.portIn.rst = true ∧
      nextAnd (step s) (fun t => t.portIn.rst) = true := by decide

/-- CmdErrIsStickyAndHasFourCauses: CMD_ERR is set and the edge does not reset. -/
theorem test_witness_cmd_err :
    PendingInv State.reset ∧
      (let s := presenting (withFrame FrameState.reset.setCmdErr) 0b100#3
       s.portIn.rst = false ∧ s.frame.cmdErr = true ∧
         nextAnd (step s) (fun t => !t.frame.cmdErr) = true) :=
  ⟨fun q h => (by cases h), by decide⟩

/-- DecodedResultIsFinal, NotDecodedIsPermanent: a decoded frame, a not-decoded one, and an EOF that
enters the latter. -/
theorem test_witness_terminal_states :
    (decodedState.resetSeen = true ∧ decodedState.frame.decoded = true ∧
      ∀ c ∈ [Instr.pix1, .eol, .eof, .pix0, .rsv3], c ≠ .sof) ∧
    (doneState.resetSeen = true ∧ NotDecoded doneState) ∧
    (State.reset.frame.frameDone = false ∧
      nextAnd (exec .eof State.reset) (fun t => decide (NotDecoded t)) = true) := by decide

/-- StepRunsTheDecodedCommand: an undelayed word, EOL at latency 0, EOF at latency 1, a fetched word. -/
theorem test_witness_step_runs :
    (Idle (presenting rowP1 0b001#3) ∧ (presenting rowP1 0b001#3).portIn.rst = false ∧
      (presenting rowP1 0b001#3).portIn.inValid = true ∧
      isLong (decode (presenting rowP1 0b001#3).portIn.inCmd) = false) ∧
    (isLong (decode (presenting rowP1 0b010#3).portIn.inCmd) = true ∧
      (presenting rowP1 0b010#3).config.evalLatency = 0) ∧
    (let s := withLatency (presenting rowP1 0b110#3) 1
     Idle s ∧ s.portIn.inValid = true ∧ isLong (decode s.portIn.inCmd) = true ∧
       0 < s.config.evalLatency) ∧
    decodeTableWord 3 7 = some .rsv7 := by decide

/-- EdgeIdlesOrCountsDown: an idle edge, a countdown and a completion. -/
theorem test_witness_edge_kinds :
    (rowP1.resetSeen = true ∧ rowP1.portIn.rst = false ∧ rowP1.pending = none ∧
      rowP1.portIn.inValid = false) ∧
    ({ rowP1 with pending := some ⟨.eol, 0 + 1⟩ } : State).pending = some ⟨.eol, 0 + 1⟩ ∧
    ({ rowP1 with pending := some ⟨.eof, 0⟩ } : State).pending = some ⟨.eof, 0⟩ := by decide

/-- LongCommandCommitsAfterTheLatency: latency 0, and latency 2 with commands presented in the busy
window. -/
theorem test_witness_long_command :
    (let s := presenting rowP1 0b010#3
     Idle s ∧ s.portIn.inValid = true ∧ decode s.portIn.inCmd = .eol ∧ isLong .eol = true ∧
       ∀ p ∈ s.host.take (s.config.evalLatency + 1), p.rst = false) ∧
    (let s := { withLatency rowP1 2 with
       host := [⟨false, true, 0b110#3, 0#3⟩, ⟨false, true, 0b001#3, 0#3⟩, PortIn.idle] }
     Idle s ∧ s.portIn.inValid = true ∧ decode s.portIn.inCmd = .eof ∧ isLong .eof = true ∧
       ∀ p ∈ s.host.take (s.config.evalLatency + 1), p.rst = false) := by decide

/-- NothingRunsBeforeTheFirstReset: the three kinds of edge at power-up. -/
theorem test_witness_power_up :
    (powerUp (presenting State.reset 0b001#3)).resetSeen = false ∧
    (powerUp (presenting State.reset 0b001#3)).portIn.inValid = true ∧
    (powerUp (presenting State.reset 0b001#3)).portIn.rst = false ∧
    (powerUp State.reset).portIn.inValid = false ∧ (powerUp State.reset).portIn.rst = false ∧
    (powerUp { State.reset with host := [⟨true, true, 0#3, 0#3⟩] }).portIn.rst = true := by decide

/-- EdgesFollowTheAcceptedCommands: EOL is accepted, a pixel in its busy window is dropped, the next
pixel is accepted, and an EOF is still pending at the end. -/
theorem test_witness_edges :
    let s := { withLatency State.reset 1 with
      host := [⟨false, true, 0b010#3, 0#3⟩, ⟨false, true, 0b000#3, 0#3⟩,
        ⟨false, true, 0b001#3, 0#3⟩, ⟨false, true, 0b110#3, 0#3⟩] }
    Idle s ∧ (∀ p ∈ s.host, p.rst = false) ∧
      acceptedFrom s.config.evalLatency 0 s.host = [.eol, .pix1, .eof] := by decide

/-- EndStateIsIndependentOfTheLatency: a stream at latency 2, and the same at latency 0. -/
theorem test_witness_present_stream :
    let s := { withLatency State.reset 2 with host := presentStream 2 [.pix1, .eol, .eof] }
    let s' := { State.reset with host := presentStream 0 [.pix1, .eol, .eof] }
    (Idle s ∧ s.host = presentStream s.config.evalLatency [.pix1, .eol, .eof] ∧
      s.host.length = 7) ∧
    (Idle s' ∧ s'.host = presentStream s'.config.evalLatency [.pix1, .eol, .eof]) ∧
    SameButLatency s.config s'.config ∧ s.frame = s'.frame ∧ s.row = s'.row := by
  decide

/-- EveryStepKeepsTheInvariant: a live state with a row in progress, and the step it takes. -/
theorem test_witness_live_inv :
    LiveInv { rowP1 with pending := some ⟨.eol, 0⟩ } ∧
      ∃ t, step { rowP1 with pending := some ⟨.eol, 0⟩ } = .next t :=
  ⟨⟨by decide, fun _ => ⟨by decide, by decide, by decide, by decide, fun q h => (by cases h; rfl)⟩⟩,
    _, rfl⟩

/-- StatedInvariantsHoldBetweenCommits, DecodedNumbersAreValid, BlockComputesDecodeFrame,
RowIndependence: states with the reset state's contents, and a stream that decodes nothing. -/
theorem test_witness_in_reset_state :
    (Built State.reset ∧ InResetState State.reset) ∧
      (Built (State.resetWith otherBuild) ∧ InResetState (State.resetWith otherBuild)) ∧
      nextAnd (commitAll [.pix1, .eol] State.reset) (fun t => t.frame.rowStatus == .structFail) =
        true := by decide

set_option maxRecDepth 20000 in
/-- DecodedNumbersAreValid: a stream that decodes (program P1's row without its quiet zone, and EOL). -/
theorem test_witness_decoded_stream :
    nextAnd (commitAll (rowCommands hardware (render #v[4, 0, 0, 6, 3, 8, 1, 3, 3, 3, 9, 3, 1] 1 0 1))
      State.reset) (fun t => t.frame.decoded) = true := by rfl

/-- SameStreamSameResult: two frames, each undecoded at a row's start, with different contents, in blocks
of different latency. -/
theorem test_witness_two_frames :
    let s := withLatency
      (withFrame { FrameState.reset with rowStatus := .structFail, rowCount := 1#16 }) 3
    SameButLatency State.reset.config s.config ∧ Inv State.reset ∧ Inv s ∧ s.resetSeen = true ∧
      s.frame.frameDone = false ∧ s.frame.decoded = false ∧ s.row = RowState.reset :=
  ⟨rfl, test_witness_inv_reset,
    ⟨by decide, by decide, by decide, by decide, fun q h => (by cases h)⟩, rfl, rfl, rfl, rfl⟩

/-- SegStepAgreesWithSegment, ShortRowsFailStructurally, PixelsAfterTheSymbolAreIgnored: SEG-7's row
segments, and SEG-8's, one pixel shorter, does not. -/
theorem test_witness_segment :
    (segment hardware (alternating .black (List.replicate 60 1))).1 = true ∧
    (alternating .black (List.replicate 60 1)).length ≤ 65535 ∧
    (segment hardware (alternating .black (List.replicate 59 1))).1 = false ∧
    (alternating .black (List.replicate 59 1)).length < 60 := by decide

/-- NextStageStartsOnItsColour: SEG-7's row, from stage 0 to stage 1 and from stage 3 to stage 4. -/
theorem test_witness_next_stage :
    let fs := fillStages hardware (alternating .black (List.replicate 60 1)) 0 Stage.groups
    fs.map (·.filled) = [true, true, true, true, true] ∧ fs.map (·.next) = [3, 27, 32, 56, 59] ∧
      Stage.groups[0 + 1]? = some .lc ∧ Stage.groups[3 + 1]? = some .rg := by decide

/-- GuardSumIsBounded: the full row of program P1, whose invariant is test_witness_inv_full, and its G
(MW-1), with the listed parameters. -/
theorem test_witness_guard_sum :
    rowP1.row.stage = .full ∧ rowP1.config.listed = true ∧
    guardSum (groupRuns hardware rowP1.row.rb .lg) (groupRuns hardware rowP1.row.rb .mg)
      (groupRuns hardware rowP1.row.rb .rg) = 11 := by decide

/-- CodesComeFromTheQuartets: P1's first left code and last right code (95_test_vectors.md ROW-1). -/
theorem test_pattern_codes :
    (patternCodes hardware 11 (groupRuns hardware rowP1.row.rb .lc))[0]? = some 3211 ∧
    (patternCodes hardware 11 (groupRuns hardware rowP1.row.rb .rc))[5]? = some 2221 := by decide

/-- ExactRatioForms, PairKeepsItsTruncatedSum: sums of a pair on both sides of G = 24, and the ratio
just below 1 (22/24, QNT-16) as the first and as the second of its pair. -/
theorem test_witness_ratios :
    0 < 24 ∧ 0 < 11 + 0 ∧ 24 ≤ 11 + 13 ∧ 12 + 11 < 24 ∧ (22 < 24 ∧ 22 ≤ 33) ∧ 22 < 33 := by decide

/-- CarryAndTieBreak: each clause, with G = 33 (QNT-10, QNT-9, QNT-9 swapped, QNT-12). -/
theorem test_witness_carry :
    (33 ≤ 77 ∧ 33 ≤ 44 ∧ 77 % 33 + 44 % 33 < 33) ∧
    (33 ≤ 88 ∧ 88 % 33 + 44 % 33 ≥ 33 ∧ 88 % 33 > 44 % 33) ∧
    (44 % 33 + 88 % 33 ≥ 33 ∧ 88 % 33 > 44 % 33) ∧
    (55 % 33 + 88 % 33 ≥ 33 ∧ 55 % 33 = 88 % 33) := by decide

/-- ComponentsAreClamped: a quartet with a 0 component (QNT-6), under both values of LOWER_CLAMP. -/
theorem test_witness_zero_component :
    (quantize hardware ⟨1, 1, 4, 4⟩ 22).c1 = 0 ∧ (quantize hardware ⟨4, 4, 1, 1⟩ 22).c3 = 0 ∧
    hardware.lowerClamp = false ∧ ({ hardware with lowerClamp := true } : Params).lowerClamp = true := by
  decide

/-- ExactRatiosTruncate: QNT-7 (a ratio of 6), and the widths 1 and 4 at m = 1. -/
theorem test_witness_exact_ratios :
    (∀ r ∈ [6, 1, 1, 1], 11 * r % 11 = 0 ∧ 11 ≤ 11 * r) ∧
    (∀ w ∈ [1, 1, 4, 1], 1 ≤ w ∧ w ≤ 4) := by decide

/-- FoundCodesHaveSevenModules: a found code (LUT-1). -/
theorem test_witness_found_code :
    hardware.tablesOk = true ∧ lookupLeft hardware (patternCode ⟨3, 2, 1, 1⟩) ≠ none ∧
    lookupRight hardware (patternCode ⟨1, 1, 1, 4⟩) ≠ none := by decide

/-- CheckDigitIsUniqueAndDetectsErrors: a valid number with a different digit at both ends. -/
theorem test_witness_single_error :
    let d : DigitWord := #v[4, 0, 0, 6, 3, 8, 1, 3, 3, 3, 9, 3, 1]
    checksumValid d = true ∧ (5 : Digit) ≠ d[0] ∧ (0 : Digit) ≠ d[12] := by decide

/-- ValueRegistersHoldTheNumber: an undecoded state of the invariant; DigitRegistersHoldTheBcd: the
digits 5 and 12, and 0 and 4. -/
theorem test_witness_registers :
    rowP1.frame.decoded = false ∧ 5 ≤ (5 : Fin 13).val ∧ 5 ≤ (12 : Fin 13).val ∧
    (0 : Fin 13).val ≤ 4 ∧ (4 : Fin 13).val ≤ 4 := by decide

/-- ReadsShowOnlyTheFrameAndBusy: two different row states, and two different pending commands. -/
theorem test_witness_hidden_state :
    rowP1.frame = State.reset.frame ∧ rowP1.row ≠ State.reset.row ∧ rowP1.busy = State.reset.busy ∧
    ({ rowP1 with pending := some ⟨.eol, 1⟩ } : State).busy =
      ({ rowP1 with pending := some ⟨.eof, 0⟩ } : State).busy := by decide

/-- OutputsMirrorTheState: a cycle out of reset and one in it, before and after the first reset edge. -/
theorem test_witness_outputs :
    (decodedState.resetSeen = true ∧ decodedState.portIn.rst = false) ∧
    (let s := { decodedState with host := [⟨true, false, 0#3, 5#3⟩] }
     s.portIn.rst = true ∧ s.resetSeen = true ∧
       (powerUp s).portIn.rst = true ∧ (powerUp s).resetSeen = false) := by decide

/-- BlockComputesDecodeFrame, RowIndependence: a row that fails and (rendered) a row that decodes. -/
theorem test_witness_rows :
    decodeRow State.reset.config (List.replicate 3 .white) = .fail .structFail ∧
    decodeRow State.reset.config (render #v[4, 0, 0, 6, 3, 8, 1, 3, 3, 3, 9, 3, 1] 1 2 1) =
      .ok #v[4, 0, 0, 6, 3, 8, 1, 3, 3, 3, 9, 3, 1] 0b010011#6 := by decide

/-- NoiseFreeRenderingsDecode: the least rendering, one pixel a module and one white module after. -/
theorem test_witness_render :
    let d : DigitWord := #v[4, 0, 0, 6, 3, 8, 1, 3, 3, 3, 9, 3, 1]
    (Built (State.resetWith otherBuild) ∧ InResetState (State.resetWith otherBuild)) ∧
    (otherBuild.tableLG = hardware.tableLG ∧ otherBuild.tableR = hardware.tableR ∧
      otherBuild.tablePar = hardware.tablePar) ∧
    checksumValid d = true ∧ 1 ≤ 1 ∧ (render d 1 0 1).length ≤ 65535 := by
  decide

end Sys2Proof.Tests
end

/-! PROOFS. The state (10_state.md): the effect of a command as named cases, and the invariant. -/

namespace Sys2Proof.Machine

open Sys2Proof

/-! ### What a command does, as named cases -/

/-- The commands that evaluate the row: EOL, or EOF with COL > 0, in an open undecoded frame
(46_commands.md R204, R206). -/
def Evaluates (i : Instr) (s : State) : Prop :=
  s.frame.frameDone = false ∧ s.frame.decoded = false ∧ (i = .eol ∨ i = .eof ∧ 0 < s.row.col.toNat)

theorem Evaluates.undecoded {i : Instr} {s : State} (h : Evaluates i s) :
    s.frame.decoded = false := h.2.1

/-- Everything a completed command can have done, one constructor for each branch of
46_commands.md R201 to R209, with the branch's guard. -/
inductive CommitEffect (i : Instr) (s : State) : State → Prop
  | protocolError (h : i ∈ [Instr.rsv3, .rsv5, .rsv7] ∨
      s.frame.frameDone = true ∧ i ∈ [Instr.pix0, .pix1, .eol, .eof]) :
      CommitEffect i s (protocolError s)
  | discard (hi : i ∈ [Instr.pix0, .pix1, .eol]) (hf : s.frame.frameDone = false)
      (hd : s.frame.decoded = true) : CommitEffect i s s
  | overflow (d : Bool) (hi : i = pixelInstr d) (hf : s.frame.frameDone = false)
      (hd : s.frame.decoded = false) (hc : s.row.col.toNat = wMax) :
      CommitEffect i s { s with row := s.row.setOvf }
  | pixel (d : Bool) (hi : i = pixelInstr d) (hf : s.frame.frameDone = false)
      (hd : s.frame.decoded = false) (hc : s.row.col.toNat ≠ wMax) :
      CommitEffect i s
        { s with row := segStep s.config (pixelColour s.config d) s.row.countPixel }
  | endLine (hi : i = .eol) (he : Evaluates i s) : CommitEffect i s (evaluate s)
  | endFrame (hi : i = .eof) (he : Evaluates i s) : CommitEffect i s (closeFrame (evaluate s))
  | closeFrame (hi : i = .eof) (hf : s.frame.frameDone = false) (he : ¬ Evaluates i s) :
      CommitEffect i s (closeFrame s)
  | startFrame (hi : i = .sof) : CommitEffect i s (sofCommit s)

theorem pixelInstr_effect (d : Bool) (s : State) :
    CommitEffect (pixelInstr d) s (commitOf (pixelInstr d) s) := by
  rw [commitOf_pixelInstr, pixCommit]
  split
  case isTrue hf => exact .protocolError (.inr ⟨hf, by cases d <;> decide⟩)
  case isFalse hf =>
    rw [Bool.not_eq_true] at hf
    split
    case isTrue hd => exact .discard (by cases d <;> decide) hf hd
    case isFalse hd =>
      rw [Bool.not_eq_true] at hd
      split
      case isTrue hc => exact .overflow d rfl hf hd hc
      case isFalse hc => exact .pixel d rfl hf hd hc

theorem eol_effect (s : State) : CommitEffect .eol s (eolCommit s) := by
  rw [eolCommit]
  split
  case isTrue hf => exact .protocolError (.inr ⟨hf, by decide⟩)
  case isFalse hf =>
    rw [Bool.not_eq_true] at hf
    split
    case isTrue hd => exact .discard (by decide) hf hd
    case isFalse hd => exact .endLine rfl ⟨hf, by simpa using hd, .inl rfl⟩

theorem evaluates_eof_iff (s : State) (hf : s.frame.frameDone = false) :
    Evaluates .eof s ↔ (!s.frame.decoded && s.row.isOpen) = true := by
  simp [Evaluates, hf, RowState.isOpen]

theorem eof_effect (s : State) : CommitEffect .eof s (eofCommit s) := by
  rw [eofCommit, evaluateOpenRow]
  split
  case isTrue hf => exact .protocolError (.inr ⟨hf, by decide⟩)
  case isFalse hf =>
    rw [Bool.not_eq_true] at hf
    split
    case isTrue he => exact .endFrame rfl ((evaluates_eof_iff s hf).mpr he)
    case isFalse he => exact .closeFrame rfl hf (mt (evaluates_eof_iff s hf).mp he)

theorem commitOf_effect (i : Instr) (s : State) : CommitEffect i s (commitOf i s) := by
  cases i with
  | pix0 => exact pixelInstr_effect false s
  | pix1 => exact pixelInstr_effect true s
  | eol => exact eol_effect s
  | sof => exact .startFrame rfl
  | eof => exact eof_effect s
  | rsv3 => exact .protocolError (.inl (by decide))
  | rsv5 => exact .protocolError (.inl (by decide))
  | rsv7 => exact .protocolError (.inl (by decide))

/-- What a completed command did. -/
theorem exec_effect {i : Instr} {s t : State} (h : exec i s = .next t) : CommitEffect i s t := by
  obtain ⟨-, rfl⟩ := exec_eq_next h
  exact commitOf_effect i s

/-! ### The invariant, by parts -/

/-- What the invariant says of the row state alone: the segmenter's part, the pixels counted, and the
overflow (10_state.md R36). -/
def RowOk (P : Params) (r : RowState) : Prop :=
  RowInv P r ∧ (runsOf r.rb).sum ≤ r.col.toNat ∧ (r.ovf = true → r.col.toNat = wMax)

/-- What the invariant says of the frame state alone (10_state.md R21, R25 to R28, R36). -/
def FrameOk (P : Params) (f : FrameState) : Prop :=
  (f.decoded = true → f.rowStatus = .ok) ∧
  (f.decoded = false → f.digits = Vector.replicate 13 0 ∧ f.parity = 0#6) ∧ ResultInv P f

/-- The row and the frame state meet in one clause: after DECODED or FRAME_DONE the row state is
clear. -/
theorem inv_iff (s : State) :
    Inv s ↔ Built s ∧ RowOk s.config s.row ∧ FrameOk s.config s.frame ∧
      (s.frame.decoded = true ∨ s.frame.frameDone = true → s.row = RowState.reset) ∧
      PendingInv s := by
  have hcol : s.row.col.toNat ≤ wMax := Nat.le_of_lt_succ s.row.col.isLt
  constructor
  · rintro ⟨hb, ⟨hsearch, hfull, ⟨hsum, -⟩, hovf, hdec, hund, hdone⟩, hpos, hres, hpend⟩
    exact ⟨hb, ⟨⟨hsearch, hfull, hpos⟩, hsum, hovf⟩, ⟨fun h => (hdec h).1, hund, hres⟩,
      fun h => h.elim (fun h => (hdec h).2) hdone, hpend⟩
  · rintro ⟨hb, ⟨⟨hsearch, hfull, hpos⟩, hsum, hovf⟩, ⟨hok, hund, hres⟩, hclear, hpend⟩
    exact ⟨hb, ⟨hsearch, hfull, ⟨hsum, hcol⟩, hovf, fun h => ⟨hok h, hclear (.inl h)⟩, hund,
      fun h => hclear (.inr h)⟩, hpos, hres, hpend⟩

variable {P : Params}

theorem rowOk_reset (hP : P.listed = true) : RowOk P RowState.reset :=
  ⟨rowInv_of_follows hP [] _ follows_reset (by simp), by simp, by simp⟩

theorem rowOk_setOvf {r : RowState} (h : RowOk P r) (hc : r.col.toNat = wMax) :
    RowOk P r.setOvf := by
  obtain ⟨hinv, hsum, -⟩ := h
  exact ⟨hinv, hsum, fun _ => hc⟩

theorem countPixel_col_toNat {r : RowState} (hc : r.col.toNat ≠ wMax) :
    r.countPixel.col.toNat = r.col.toNat + 1 := by
  have hlt : r.col.toNat < 65536 := r.col.isLt
  simp only [wMax, wBits] at hc
  rw [countPixel_col, BitVec.toNat_add_of_lt]
  · rfl
  · simp; omega

/-- A counted pixel adds at most one to the runs and exactly one to COL. -/
theorem rowOk_segStep_countPixel (hP : P.listed = true) (p : Colour) {r : RowState}
    (h : RowOk P r) (hc : r.col.toNat ≠ wMax) : RowOk P (segStep P p r.countPixel) := by
  obtain ⟨hinv, hsum, hovf⟩ := h
  have hlt : r.col.toNat < wMax := lt_of_le_of_ne (Nat.le_of_lt_succ r.col.isLt) hc
  obtain ⟨hinv', hsum'⟩ := segStep_rowInv hP p r.countPixel hinv (lt_of_le_of_lt hsum hlt)
  rw [countPixel_rb] at hsum'
  refine ⟨hinv', ?_, fun ho => absurd (hovf (by simpa using ho)) hc⟩
  rw [segStep_col, countPixel_col_toNat hc]
  omega

theorem frameOk_reset : FrameOk P FrameState.reset := by
  simp [FrameOk, ResultInv]

theorem frameOk_setCmdErr {f : FrameState} (h : FrameOk P f) : FrameOk P f.setCmdErr := h

theorem frameOk_setFrameDone {f : FrameState} (h : FrameOk P f) : FrameOk P f.setFrameDone := h

/-- The record of a row in an undecoded frame: an OK row's number is valid, and a failing row leaves
the results at 0. -/
theorem frameOk_record (hP : P.listed = true) {f : FrameState} (h : FrameOk P f)
    (hd : f.decoded = false) (r : RowState) : FrameOk P (f.record P (rowOutcome P r)) := by
  obtain ⟨-, hund, -, -, -⟩ := h
  have hcount := nextRowCount_ne_zero hP f.rowCount
  cases ho : rowOutcome P r with
  | ok d p =>
    obtain ⟨-, -, hvalid, hlead⟩ := rowOutcome_eq_ok ho
    simp [FrameOk, ResultInv, hcount, hvalid, hlead]
  | fail c =>
    obtain ⟨hnone, hok⟩ := rowFail_status_ne c
    simp [FrameOk, ResultInv, hcount, hd, hund hd, hnone, hok]

/-! ### Every command and every edge keeps the invariant -/

theorem inv_rowClear {s : State} (hb : Built s) (hf : FrameOk s.config s.frame)
    (hp : PendingInv s) : Inv (rowClear s) :=
  (inv_iff _).mpr ⟨hb, rowOk_reset (wf_iff.mp hb).1, hf, fun _ => rfl, hp⟩

theorem inv_of_inResetState {s : State} (hb : Built s) (h : InResetState s) : Inv s := by
  obtain ⟨hf, hr, hp, -⟩ := h
  refine (inv_iff s).mpr ⟨hb, ?_, ?_, fun _ => hr, ?_⟩
  · rw [hr]; exact rowOk_reset (wf_iff.mp hb).1
  · rw [hf]; exact frameOk_reset
  · simp [PendingInv, hp]

theorem CommitEffect.inv {i : Instr} {s t : State} (h : CommitEffect i s t) (hs : Inv s) : Inv t := by
  obtain ⟨hb, hrow, hframe, hclear, hpend⟩ := (inv_iff s).mp hs
  have hP := (wf_iff.mp hb).1
  cases h with
  | protocolError => exact (inv_iff _).mpr ⟨hb, hrow, frameOk_setCmdErr hframe, hclear, hpend⟩
  | discard => exact hs
  | overflow d hi hf hd hc =>
    exact (inv_iff _).mpr ⟨hb, rowOk_setOvf hrow hc, hframe, by simp [hf, hd], hpend⟩
  | pixel d hi hf hd hc =>
    exact (inv_iff _).mpr
      ⟨hb, rowOk_segStep_countPixel hP _ hrow hc, hframe, by simp [hf, hd], hpend⟩
  | endLine hi he => exact inv_rowClear hb (frameOk_record hP hframe he.undecoded _) hpend
  | endFrame hi he =>
    exact inv_rowClear hb (frameOk_setFrameDone (frameOk_record hP hframe he.undecoded _)) hpend
  | closeFrame => exact inv_rowClear hb (frameOk_setFrameDone hframe) hpend
  | startFrame => exact inv_rowClear hb frameOk_reset hpend

theorem commitOf_inv (i : Instr) {s : State} (hs : Inv s) : Inv (commitOf i s) :=
  (commitOf_effect i s).inv hs

theorem commitsOf_inv (cs : List Instr) {s : State} (hs : Inv s) : Inv (commitsOf cs s) := by
  induction cs generalizing s with
  | nil => exact hs
  | cons c cs ih => exact ih (commitOf_inv c hs)

/-- The invariant reads of the command state only which command is pending. -/
theorem inv_setPending {s : State} (q : Option Pending) (hs : Inv s)
    (hq : ∀ p, q = some p → isLong p.cmd = true) : Inv { s with pending := q } := by
  obtain ⟨hb, hstated, hpos, hres, -⟩ := hs
  exact ⟨hb, hstated, hpos, hres, hq⟩

theorem inv_advanceHost {s : State} (hs : Inv s) : Inv (advanceHost s) := hs

theorem inResetState_resetState (s : State) : InResetState (resetState s) := ⟨rfl, rfl, rfl, rfl⟩

/-- Once the block holds values every edge keeps the invariant; before that only a reset edge gives it
values, and that edge establishes it. -/
theorem liveInv_step {s t : State} (hs : LiveInv s) (h : step s = .next t) : LiveInv t := by
  obtain ⟨hb, hinv⟩ := hs
  rcases step_cases s t h with ⟨-, rfl⟩ | ⟨-, hl, -, rfl⟩ | ⟨-, hl, hcase⟩
  · exact ⟨hb, fun _ => inv_of_inResetState hb (inResetState_resetState _)⟩
  · exact ⟨hb, hinv⟩
  · suffices Inv t from ⟨this.1, fun _ => this⟩
    have hadv := inv_advanceHost (hinv hl)
    obtain ⟨-, -, -, -, hpend⟩ := hinv hl
    rcases hcase with ⟨q, -, -, rfl⟩ | ⟨q, hq, -, rfl⟩ | ⟨-, -, rfl⟩ | ⟨-, -, hlong, -, rfl⟩ |
      ⟨-, -, -, rfl⟩
    · exact inv_setPending none (commitOf_inv q.cmd hadv) (by simp)
    · exact inv_setPending _ hadv (by simpa using hpend q hq)
    · exact hadv
    · exact inv_setPending _ hadv (by simpa using hlong)
    · exact commitOf_inv _ hadv

/-- Settles O30: a reset edge establishes the invariant, and each of the other edges is a commit, which
keeps it (`commitOf_inv`), or moves nothing but PENDING and the host's presentations. -/
theorem everyStepKeepsTheInvariant : Obligations.EveryStepKeepsTheInvariant :=
  fun _ _ => liveInv_step

/-- Settles O31: the reset state meets the whole invariant, and every commit of the stream keeps it. -/
theorem statedInvariantsHoldBetweenCommits : Obligations.StatedInvariantsHoldBetweenCommits := by
  intro cs s t hb hreset h
  have hinv := inv_of_inResetState hb hreset
  obtain ⟨-, -, -, hl⟩ := hreset
  rw [commitAll_next cs s hl] at h
  obtain rfl := Host.Outcome.next.inj h
  obtain ⟨-, hstated, -⟩ := commitsOf_inv cs hinv
  exact hstated

/-- Settles O29: the reset state is a reset state of an admitted configuration. -/
theorem resetStateMeetsTheInvariant : Obligations.ResetStateMeetsTheInvariant := by
  have hb : Built State.reset := wf_hardware
  have hinv := inv_of_inResetState hb ⟨rfl, rfl, rfl, rfl⟩
  exact ⟨⟨hb, fun _ => hinv⟩, hinv⟩

end Sys2Proof.Machine

/-! PROOFS. The register view and the output ports (10_state.md R41 to R48). -/

namespace Sys2Proof.Machine

open Sys2Proof

/-! ### Positional sums of the digits -/

/-- A positional sum to a base above 9, the digit at index 12 having weight 1, stays below the power
that its length spells. -/
theorem weightedSum_pow_lt (b : Nat) (hb : 10 ≤ b) (ds : List Digit) (k : Nat)
    (h : k + ds.length = 13) : weightedSum (fun i => b ^ (12 - i)) k ds < b ^ (13 - k) := by
  induction ds generalizing k with
  | nil => simpa [weightedSum] using pow_pos (show 0 < b by omega) (13 - k)
  | cons d ds ih =>
    rw [List.length_cons] at h
    have hrest := ih (k + 1) (by omega)
    have hd : (d.val + 1) * b ^ (12 - k) ≤ b * b ^ (12 - k) :=
      Nat.mul_le_mul_right _ (by omega)
    rw [show 13 - k = 12 - k + 1 by omega, Nat.pow_succ', weightedSum]
    rw [show 13 - (k + 1) = 12 - k by omega] at hrest
    nlinarith

/-- The digit at a position of such a sum. -/
theorem weightedSum_pow_digit (b : Nat) (hb : 10 ≤ b) (ds : List Digit) (k j : Nat)
    (h : k + ds.length = 13) (hj : j < ds.length) :
    weightedSum (fun i => b ^ (12 - i)) k ds / b ^ (12 - (k + j)) % b = (ds[j]).val := by
  induction ds generalizing k j with
  | nil => simp at hj
  | cons d ds ih =>
    rw [List.length_cons] at h hj
    cases j with
    | zero =>
      have hrest := weightedSum_pow_lt b hb ds (k + 1) (by omega)
      rw [show 13 - (k + 1) = 12 - k by omega] at hrest
      rw [weightedSum, Nat.add_zero k, Nat.mul_add_div (by positivity), Nat.div_eq_of_lt hrest,
        Nat.add_zero, Nat.mod_eq_of_lt (by omega), List.getElem_cons_zero]
    | succ j =>
      have hw : b ^ (12 - k) = b ^ (12 - (k + 1 + j)) * (b * b ^ j) := by
        rw [← Nat.pow_succ', ← Nat.pow_add]
        congr 1
        omega
      rw [weightedSum, show k + (j + 1) = k + 1 + j by omega, hw, Nat.mul_assoc,
        Nat.mul_add_div (by positivity), Nat.mul_assoc, Nat.mul_add_mod, List.getElem_cons_succ]
      exact ih (k + 1) j (by omega) (by omega)

/-- The weighted sum over a vector of digits, index by index. -/
theorem weightedSum_ofFn (w : Nat → Nat) (n k : Nat) (g : Fin n → Digit) :
    weightedSum w k (List.ofFn g) =
      ((List.finRange n).map fun i => (g i).val * w (k + i.val)).sum := by
  induction n generalizing k with
  | zero => rfl
  | succ n ih =>
    rw [List.ofFn_succ, weightedSum, ih, List.finRange_succ]
    simp [Nat.mul_comm, Nat.add_assoc, Nat.add_comm 1, Function.comp_def]

theorem weightedSum_toList (w : Nat → Nat) (d : DigitWord) :
    weightedSum w 0 d.toList =
      ((List.finRange 13).map fun i => (d[i]).val * w i.val).sum := by
  have h : d.toList = List.ofFn fun i : Fin 13 => d[i] := by
    rw [← Vector.toList_ofFn]
    exact congrArg Vector.toList Vector.ofFn_getElem.symm
  rw [h, weightedSum_ofFn]
  simp only [Nat.zero_add]

theorem digitsBcd_eq_base16 (d : DigitWord) :
    digitsBcd d = weightedSum (fun i => 16 ^ (12 - i)) 0 d.toList := by
  simp only [digitsBcd, Nat.pow_mul, Nat.reducePow]

theorem digitsBcd_lt (d : DigitWord) : digitsBcd d < 2 ^ 52 := by
  rw [digitsBcd_eq_base16]
  exact weightedSum_pow_lt 16 (by omega) d.toList 0 (by simp)

theorem digitsBcd_digit (d : DigitWord) (i : Fin 13) :
    digitsBcd d / 2 ^ (4 * (12 - i.val)) % 16 = (d[i]).val := by
  have h := weightedSum_pow_digit 16 (by omega) d.toList 0 i.val (by simp) (by simp)
  rw [← digitsBcd_eq_base16, Nat.zero_add] at h
  rw [Nat.pow_mul]
  simpa using h

theorem digitsValue_lt (d : DigitWord) : digitsValue d < 10 ^ 13 :=
  weightedSum_pow_lt 10 (by omega) d.toList 0 (by simp)

/-! ### The words of the register view -/

/-- The bits above the low 32 of a word, in a register of their own. -/
theorem toNat_extract_high {w : Nat} (x : BitVec (32 + w)) (hw : w ≤ 32) :
    ((x.extractLsb' 32 w).setWidth 32).toNat = x.toNat / 2 ^ 32 := by
  have hx : x.toNat / 2 ^ 32 < 2 ^ w :=
    Nat.div_lt_of_lt_mul (by rw [← Nat.pow_add]; exact x.isLt)
  rw [BitVec.toNat_setWidth_of_le hw, BitVec.extractLsb'_toNat, Nat.shiftRight_eq_div_pow,
    Nat.mod_eq_of_lt hx]

theorem bcdWord_toNat (f : FrameState) : (bcdWord f).toNat = digitsBcd f.digits := by
  rw [bcdWord, BitVec.toNat_ofNat, Nat.mod_eq_of_lt (digitsBcd_lt _)]

theorem valueWord_toNat (f : FrameState) : (valueWord f).toNat = digitsValue f.digits := by
  have h := digitsValue_lt f.digits
  rw [valueWord, BitVec.toNat_ofNat, Nat.mod_eq_of_lt (by omega)]

theorem regView_digitsLo_toNat (s : State) :
    (regView s 1#3).toNat = digitsBcd s.frame.digits % 2 ^ 32 := by
  rw [← bcdWord_toNat]
  exact BitVec.toNat_setWidth 32 _

theorem regView_digitsHi_toNat (s : State) :
    (regView s 2#3).toNat = digitsBcd s.frame.digits / 2 ^ 32 := by
  rw [← bcdWord_toNat]
  exact toNat_extract_high (w := 20) _ (by omega)

theorem regView_valueLo_toNat (s : State) :
    (regView s 3#3).toNat = digitsValue s.frame.digits % 2 ^ 32 := by
  rw [← valueWord_toNat]
  exact BitVec.toNat_setWidth 32 _

theorem regView_valueHi_toNat (s : State) :
    (regView s 4#3).toNat = digitsValue s.frame.digits / 2 ^ 32 := by
  rw [← valueWord_toNat]
  exact toNat_extract_high (w := 12) _ (by omega)

/-- The view is a function of the frame state and BUSY (10_state.md R40, R41). -/
theorem regView_congr {s t : State} (hf : s.frame = t.frame) (hb : s.busy = t.busy) (a : RegAddr) :
    regView s a = regView t a := by
  simp only [regView, statusWord, hf, hb]

/-- In every reset state each register reads 0 (10_state.md R49). -/
theorem regView_reset (a : RegAddr) : regView State.reset a = 0#32 := by
  revert a
  decide

/-- The fields of a word laid out as STATUS is, beside the one of `statusLayout_rowStatus`. The widths
must stay sums, as the concatenation has them, for the append lemmas to match. -/
theorem statusLayout_fields (rowCount : BitVec 16) (code : BitVec 4) (b3 b2 b1 b0 : Bool) :
    let word := rowCount ++ 0#8 ++ code ++ BitVec.ofBool b3 ++ BitVec.ofBool b2 ++
      BitVec.ofBool b1 ++ BitVec.ofBool b0
    word.getLsbD 0 = b0 ∧ word.getLsbD 1 = b1 ∧ word.getLsbD 2 = b2 ∧ word.getLsbD 3 = b3 ∧
      word.extractLsb' 8 8 = 0#8 ∧ word.extractLsb' 16 16 = rowCount := by
  refine ⟨?_, ?_, ?_, ?_, ?_, ?_⟩
  · simp [-Nat.reduceAdd, BitVec.getElem_append]
  · simp [-Nat.reduceAdd, BitVec.getElem_append]
  · simp [-Nat.reduceAdd, BitVec.getElem_append]
  · simp [-Nat.reduceAdd, BitVec.getElem_append]
  · simp [-Nat.reduceAdd, BitVec.extractLsb'_append_eq_of_le, BitVec.extractLsb'_append_eq_right]
  · simp [-Nat.reduceAdd, BitVec.extractLsb'_append_eq_of_le]

/-! ### What the registers and the ports show -/

/-- Settles O50: VALUE is below 10^13, so it fits its 44 bits, and addresses 4 and 3 are its quotient
and remainder by 2^32; in an undecoded state of the invariant every digit is 0. -/
theorem valueRegistersHoldTheNumber : Obligations.ValueRegistersHoldTheNumber := by
  refine ⟨regView_reset _, regView_reset _, fun s => ?_⟩
  have hsum := weightedSum_toList (fun i => 10 ^ (12 - i)) s.frame.digits
  have hlt := digitsValue_lt s.frame.digits
  have hcut := Nat.div_add_mod' (digitsValue s.frame.digits) (2 ^ 32)
  rw [← regView_valueHi_toNat, ← regView_valueLo_toNat] at hcut
  refine ⟨hcut.trans hsum, by omega, ?_, fun hinv hd => ?_⟩
  · rw [regView_valueHi_toNat]
    omega
  · obtain ⟨-, ⟨-, -, -, -, -, hund, -⟩, -⟩ := hinv
    have hzero : digitsValue s.frame.digits = 0 := by
      rw [(hund hd).1]
      decide
    constructor <;> apply BitVec.eq_of_toNat_eq
    · rw [regView_valueLo_toNat, hzero]; rfl
    · rw [regView_valueHi_toNat, hzero]; rfl

/-- Settles O51: BCD is the digits to the base 16, addresses 2 and 1 are its quotient and remainder by
2^32, and 2^32 is a power of 16, so each digit lies in one of them. -/
theorem digitRegistersHoldTheBcd : Obligations.DigitRegistersHoldTheBcd := by
  intro s
  have hsum := weightedSum_toList (fun i => 2 ^ (4 * (12 - i))) s.frame.digits
  have hlt := digitsBcd_lt s.frame.digits
  have hdigit := digitsBcd_digit s.frame.digits
  rw [regView_digitsHi_toNat, regView_digitsLo_toNat]
  refine ⟨(Nat.div_add_mod' _ _).trans hsum, fun i hi => ?_, fun i hi => ?_, by omega,
    regView_reset _, regView_reset _⟩
  · have hpow : 2 ^ 32 = 2 ^ (4 * (12 - i.val)) * (16 * 16 ^ (i.val - 5)) := by
      rw [← Nat.pow_succ', show (16 : Nat) = 2 ^ 4 by rfl, ← Nat.pow_mul, ← Nat.pow_add]
      congr 1
      omega
    rw [hpow, Nat.mod_mul_right_div_self, Nat.mod_mul_right_mod]
    exact hdigit i
  · rw [Nat.div_div_eq_div_mul, ← Nat.pow_add, show 32 + 4 * (4 - i.val) = 4 * (12 - i.val) by omega]
    exact hdigit i

/-- Settles O52: each field is a part of the concatenation that STATUS is. -/
theorem statusFields : Obligations.StatusFields := by
  refine ⟨fun s => ?_, regView_reset _⟩
  obtain ⟨hdec, hdone, herr, hbusy, hzero, hcount⟩ := statusLayout_fields s.frame.rowCount s.frame.rowStatus.code
    s.busy s.frame.cmdErr s.frame.frameDone s.frame.decoded
  exact ⟨hdec, hdone, herr, hbusy, regView_rowStatus s, hzero, hcount⟩

/-- Settles O53: address 5 is PARITY widened with zeros. -/
theorem parityAndReservedAddresses : Obligations.ParityAndReservedAddresses := by
  refine ⟨fun s => ⟨?_, ?_, rfl, rfl⟩, regView_reset _⟩ <;>
    rw [show regView s 5#3 = s.frame.parity.setWidth 32 from rfl]
  · simp [BitVec.extractLsb'_setWidth_of_le]
  · ext i hi
    simp

/-- Settles O54: the view is a function of the frame state and BUSY (`regView_congr`). -/
theorem readsShowOnlyTheFrameAndBusy : Obligations.ReadsShowOnlyTheFrameAndBusy := by
  intro s t a hf hb
  have hview := regView_congr hf hb a
  refine ⟨hview, fun hl => ?_⟩
  rw [regRead, regRead, hl, hview]

/-- Settles O5: a command and an edge change only other fields, and the view reads none of the
configuration. -/
theorem configurationIsReadOnly : Obligations.ConfigurationIsReadOnly := by
  refine ⟨fun i s t h => ?_, fun s t h => ?_, fun s P a => regView_congr rfl rfl a⟩
  · obtain ⟨-, rfl⟩ := exec_eq_next h
    exact commitOf_config i s
  · rcases step_cases s t h with ⟨-, rfl⟩ | ⟨-, -, -, rfl⟩ | ⟨-, -, ⟨q, -, -, rfl⟩ | ⟨q, -, -, rfl⟩ |
      ⟨-, -, rfl⟩ | ⟨-, -, -, -, rfl⟩ | ⟨-, -, -, rfl⟩⟩ <;> simp

/-- Settles O26: each element by evaluation, each register by `regView_reset`. -/
theorem resetValues : Obligations.ResetValues :=
  ⟨rfl, rfl, rfl, rfl, rfl, rfl, rfl, by decide, rfl, rfl, rfl, rfl, rfl, rfl, rfl, by decide,
    regView_reset⟩

theorem shownState_of_rst {s : State} (h : s.portIn.rst = true) :
    shownState s = { resetState s with resetSeen := s.resetSeen } := by
  rw [shownState, if_pos h]

theorem shownState_of_no_rst {s : State} (h : s.portIn.rst = false) : shownState s = s := by
  simp [shownState, h]

/-- In a cycle with reset the read port shows the reset state's word, or faults before the first reset
edge. -/
theorem readPort_of_rst {s : State} (h : s.portIn.rst = true) :
    readPort s =
      if s.resetSeen then .ok (regView State.reset s.portIn.rdAddr) else .error .readBeforeReset := by
  rw [readPort, shownState_of_rst h, regRead]
  have hview := regView_congr (s := { resetState s with resetSeen := s.resetSeen })
    (t := State.reset) rfl rfl s.portIn.rdAddr
  rw [hview]

/-- Settles O55: out of reset the ports show the state itself, in reset the reset state. -/
theorem outputsMirrorTheState : Obligations.OutputsMirrorTheState := by
  refine ⟨fun s hl hr => ?_, fun s hr => ?_⟩
  · simp [portOut, readPort, regRead, State.inReady, shownState_of_no_rst hr, hl, hr, State.busy]
  · refine ⟨⟨false, readPort s, false, false, false⟩, ?_, rfl, rfl, rfl, rfl, fun hl => ?_,
      fun hl => ?_⟩
    · simp [portOut, State.inReady, shownState_of_rst hr, hr, State.busy]
    · simp [readPort_of_rst hr, hl]
    · simp [readPort_of_rst hr, hl]

end Sys2Proof.Machine

/-! PROOFS. The results of a row, its outcome's class, COL, and the quartets (10_state.md R21 to R38). -/

namespace Sys2Proof.Machine

open Sys2Proof

/-! ### What a command does to the results -/

/-- Two frame states with the same DECODED, ROW_STATUS, ROW_COUNT, DIGITS and PARITY. -/
def SameResults (f g : FrameState) : Prop :=
  f.decoded = g.decoded ∧ f.rowStatus = g.rowStatus ∧ f.rowCount = g.rowCount ∧
    f.digits = g.digits ∧ f.parity = g.parity

theorem SameResults.refl (f : FrameState) : SameResults f f := ⟨rfl, rfl, rfl, rfl, rfl⟩

/-- An evaluating command records the row's outcome in the results. -/
theorem results_of_evaluates {i : Instr} {s : State} (he : Evaluates i s) :
    SameResults (commitOf i s).frame (s.frame.record s.config (rowOutcome s.config s.row)) := by
  obtain ⟨hf, hd, rfl | ⟨rfl, hc⟩⟩ := he
  · have h : commitOf .eol s = evaluate s := by simp [commitOf, eolCommit, hf, hd]
    rw [h]
    exact .refl _
  · have h : commitOf .eof s = closeFrame (evaluate s) := by
      simp [commitOf, eofCommit, evaluateOpenRow, RowState.isOpen, hf, hd, hc]
    rw [h]
    exact .refl _

/-- Every other command but SOF leaves the results. -/
theorem CommitEffect.results_of_not_evaluates {i : Instr} {s t : State} (h : CommitEffect i s t)
    (he : ¬ Evaluates i s) (hi : i ≠ .sof) : SameResults t.frame s.frame := by
  cases h with
  | protocolError => exact .refl _
  | discard => exact .refl _
  | overflow => exact .refl _
  | pixel => exact .refl _
  | endLine _ he' => exact absurd he' he
  | endFrame _ he' => exact absurd he' he
  | closeFrame => exact .refl _
  | startFrame hi' => exact absurd hi' hi

/-- Settles O16: the only command that writes the results is an evaluating one, and the record of a
failing row leaves DECODED, DIGITS and PARITY. -/
theorem resultsAreWrittenOnlyByAnOkRow : Obligations.ResultsAreWrittenOnlyByAnOkRow := by
  intro i s t h hi
  by_cases he : Evaluates i s
  · obtain ⟨-, rfl⟩ := exec_eq_next h
    obtain ⟨hdec, hstatus, -, hdigits, hparity⟩ := results_of_evaluates he
    rw [hdec, hstatus, hdigits, hparity]
    cases rowOutcome s.config s.row with
    | ok d p =>
      obtain ⟨hf, hd, hi⟩ := he
      exact .inr ⟨hi.imp id And.left, hf, hd, rfl, rfl, rfl⟩
    | fail c => exact .inl ⟨rfl, rfl, rfl⟩
  · obtain ⟨hdec, -, -, hdigits, hparity⟩ := (exec_effect h).results_of_not_evaluates he hi
    exact .inl ⟨hdec, hdigits, hparity⟩

/-- Settles O17: the record of a row counts it, and nothing else but SOF writes ROW_COUNT. -/
theorem rowCountCountsEvaluatedRows : Obligations.RowCountCountsEvaluatedRows := by
  intro i s t hP h
  refine ⟨fun he => ?_, fun he hi => ?_, fun hi => ?_⟩
  · obtain ⟨-, rfl⟩ := exec_eq_next h
    obtain ⟨-, -, hcount, -⟩ := results_of_evaluates he
    rw [hcount, record_rowCount, nextRowCount_toNat hP]
  · obtain ⟨-, -, hcount, -⟩ := (exec_effect h).results_of_not_evaluates he hi
    exact hcount
  · subst hi
    obtain ⟨-, rfl⟩ := exec_eq_next h
    rfl

/-! ### The outcome of a row, by its priority -/

/-- The class of an outcome (10_state.md R25). -/
def RowOutcome.status : RowOutcome → RowStatus
  | .ok _ _ => .ok
  | .fail c => c.status

theorem record_rowStatus (P : Params) (f : FrameState) (o : RowOutcome) :
    (f.record P o).rowStatus = o.status := by
  cases o <;> rfl

section Outcome

variable {P : Params} {r : RowState} {left right : List Nat}

theorem rowOutcome_of_ovf (h : r.ovf = true) : rowOutcome P r = .fail .rowTooLong := by
  rw [rowOutcome, if_pos h]

theorem rowOutcome_of_not_full (ho : r.ovf = false) (hs : r.stage ≠ .full) :
    rowOutcome P r = .fail .structFail := by
  simp [rowOutcome, ho, hs]

theorem rowOutcome_of_full (ho : r.ovf = false) (hs : r.stage = .full) :
    rowOutcome P r = decodeGroups P (groupRuns P r.rb .lg) (groupRuns P r.rb .lc)
      (groupRuns P r.rb .mg) (groupRuns P r.rb .rc) (groupRuns P r.rb .rg) := by
  simp [rowOutcome, ho, hs]

/-- Some pattern code of the row is not in its table (43_lookup.md R158). -/
def Absent (P : Params) (left right : List Nat) : Prop :=
  (∃ pc ∈ left, lookupLeft P pc = none) ∨ ∃ pc ∈ right, lookupRight P pc = none

/-- The parity letters the left codes give. -/
def foundLetters (P : Params) (left : List Nat) : List ParityLetter :=
  left.filterMap fun pc => (lookupLeft P pc).map (·.2)

/-- The digits the codes of both halves give. -/
def foundDigits (P : Params) (left right : List Nat) : List Digit :=
  left.filterMap (fun pc => (lookupLeft P pc).map (·.1)) ++ right.filterMap fun pc => lookupRight P pc

theorem identify_of_absent (h : Absent P left right) : identify P left right = .fail .patternFail := by
  unfold identify
  rcases h with h | h
  · rw [lookupAll_none _ _ h]
  · rw [lookupAll_none _ _ h]
    cases lookupAll (lookupLeft P) left <;> rfl

/-- When every code is found, only the parity word decides. -/
theorem identify_of_found (h : ¬ Absent P left right) :
    identify P left right =
      (lookupParity P (parityWord (foundLetters P left))).elim (.fail .parityFail) fun lead =>
        .ok (digitWord (lead :: foundDigits P left right)) (parityWord (foundLetters P left)) := by
  simp only [Absent, not_or, not_exists, not_and] at h
  obtain ⟨hl, hr⟩ := h
  rw [identify, lookupAll_some _ _ hl, lookupAll_some _ _ hr]
  simp only [List.map_filterMap, List.cons_append, foundLetters]
  cases lookupParity P (parityWord (left.filterMap _)) <;> rfl

/-- A found number is OK iff its checksum is divisible by 10 (44_checksum.md R172). -/
theorem validate_ok_status (d : DigitWord) (p : ParityWord) :
    (validate (.ok d p)).status = if checksum d % 10 = 0 then .ok else .checksumFail := by
  simp only [validate, checksumValid, beq_iff_eq]
  split <;> rfl

end Outcome

/-! ### ROW_STATUS -/

theorem code_eq_zero_iff (c : RowStatus) : c.code = 0#4 ↔ c = .none := by
  cases c <;> decide

theorem code_le_six (c : RowStatus) : c.code.toNat ≤ 6 := by
  cases c <;> decide

/-- After an evaluating command ROW_STATUS is the class of the row's outcome. -/
theorem rowStatus_of_evaluates {i : Instr} {s : State} (he : Evaluates i s) :
    (commitOf i s).frame.rowStatus = (rowOutcome s.config s.row).status := by
  obtain ⟨-, hstatus, -⟩ := results_of_evaluates he
  rw [hstatus, record_rowStatus]

/-- The five classes of a row that is not too long, with their conditions (10_state.md R25;
60_exceptions.md R229). -/
theorem decodeGroups_status (P : Params) (lg lc mg rc rg : List Nat) :
    let G := guardSum lg mg rg
    let left := patternCodes P G lc
    let right := patternCodes P G rc
    let status := (decodeGroups P lg lc mg rc rg).status
    (Absent P left right → status = .patternFail) ∧
    (¬ Absent P left right → lookupParity P (parityWord (foundLetters P left)) = none →
      status = .parityFail) ∧
    (¬ Absent P left right → ∀ lead,
      lookupParity P (parityWord (foundLetters P left)) = some lead →
      status = if checksum (digitWord (lead :: foundDigits P left right)) % 10 = 0 then .ok
        else .checksumFail) := by
  refine ⟨fun ha => ?_, fun ha hp => ?_, fun ha lead hp => ?_⟩
  · rw [decodeGroups, identify_of_absent ha]
    rfl
  · rw [decodeGroups, identify_of_found ha, hp]
    rfl
  · rw [decodeGroups, identify_of_found ha, hp]
    exact validate_ok_status _ _

/-- Settles O14: the field is the code of ROW_STATUS, which an evaluating command makes the class of the
row's outcome; that outcome goes by the priority of R229. -/
theorem rowStatusCodes : Obligations.RowStatusCodes := by
  simp only [Obligations.RowStatusCodes, regView_rowStatus]
  refine ⟨fun i s hl he => ?_, fun i s t h => ⟨fun he hi => ?_, fun hi => ?_⟩, fun s t hr h => ?_,
    fun s hs => ?_, fun s => code_le_six _, rfl, rfl, rfl, rfl, rfl, rfl, rfl⟩
  · refine ⟨commitOf i s, exec_next i s hl, ?_⟩
    rw [rowStatus_of_evaluates he]
    refine ⟨fun ho => ?_, fun ho hs => ?_, fun ho hs => ?_⟩
    · rw [rowOutcome_of_ovf ho]; rfl
    · rw [rowOutcome_of_not_full ho hs]; rfl
    · rw [rowOutcome_of_full ho hs]
      obtain ⟨hpattern, hparity, hsum⟩ := decodeGroups_status s.config (groupRuns s.config s.row.rb .lg)
        (groupRuns s.config s.row.rb .lc) (groupRuns s.config s.row.rb .mg)
        (groupRuns s.config s.row.rb .rc) (groupRuns s.config s.row.rb .rg)
      refine ⟨fun ha => ?_, fun ha hp => ?_, fun ha lead hp => ⟨fun hc => ?_, fun hc => ?_⟩⟩
      · rw [hpattern ha]; rfl
      · rw [hparity ha hp]; rfl
      · rw [(hsum ha lead hp).trans (if_neg hc)]; rfl
      · rw [(hsum ha lead hp).trans (if_pos hc)]; rfl
  · obtain ⟨-, hstatus, -⟩ := (exec_effect h).results_of_not_evaluates he hi
    rw [hstatus]
  · subst hi
    obtain ⟨-, rfl⟩ := exec_eq_next h
    rfl
  · rw [step_reset s hr] at h
    obtain rfl := Host.Outcome.next.inj h
    rfl
  · obtain ⟨-, -, -, ⟨hnone, -⟩, -⟩ := hs
    rw [code_eq_zero_iff, hnone]

/-! ### COL -/

theorem mem_pixels_iff (i : Instr) : i ∈ [Instr.pix0, .pix1] ↔ ∃ d, i = pixelInstr d := by
  cases i <;> decide

section Pixel

variable {s : State} (p : Colour)

theorem pixCommit_row_of_closed (h : s.frame.frameDone = true ∨ s.frame.decoded = true) :
    (pixCommit p s).row = s.row := by
  unfold pixCommit
  split
  case isTrue => rfl
  case isFalse hf => rw [if_pos (h.resolve_left hf)]

theorem pixCommit_of_open (hf : s.frame.frameDone = false) (hd : s.frame.decoded = false) :
    pixCommit p s = if s.row.col.toNat = wMax then { s with row := s.row.setOvf }
      else { s with row := segStep s.config p s.row.countPixel } := by
  simp [pixCommit, hf, hd]

end Pixel

theorem pixelInstr_not_framing (d : Bool) : pixelInstr d ∉ [Instr.eol, .eof, .sof] := by
  cases d <;> decide

theorem reserved_not_framing : ∀ i ∈ [Instr.rsv3, .rsv5, .rsv7], i ∉ [Instr.eol, .eof, .sof] := by
  decide

/-- EOL, EOF and SOF clear the row state, or, in a frame that is done or decoded, leave it. -/
theorem CommitEffect.framing_row {i : Instr} {s t : State} (h : CommitEffect i s t)
    (hi : i ∈ [Instr.eol, .eof, .sof]) :
    (s.frame.decoded = true ∨ s.frame.frameDone = true) ∧ t.row = s.row ∨
      t.row = RowState.reset := by
  cases h with
  | protocolError h =>
    rcases h with h | ⟨hf, -⟩
    · exact absurd hi (reserved_not_framing i h)
    · exact .inl ⟨.inr hf, rfl⟩
  | discard _ _ hd => exact .inl ⟨.inl hd, rfl⟩
  | overflow d hpix => exact absurd (hpix ▸ hi) (pixelInstr_not_framing d)
  | pixel d hpix => exact absurd (hpix ▸ hi) (pixelInstr_not_framing d)
  | endLine => exact .inr rfl
  | endFrame => exact .inr rfl
  | closeFrame => exact .inr rfl
  | startFrame => exact .inr rfl

theorem reserved_row {i : Instr} (hi : i ∈ [Instr.rsv3, .rsv5, .rsv7]) (s : State) :
    (commitOf i s).row = s.row := by
  simp only [List.mem_cons, List.not_mem_nil, or_false] at hi
  rcases hi with rfl | rfl | rfl <;> rfl

/-- Settles O18: a pixel moves COL only in an open undecoded frame, and the other commands leave the
row state or clear it. -/
theorem colCountsPixelsAndNeverWraps : Obligations.ColCountsPixelsAndNeverWraps := by
  refine ⟨fun i s t h => ?_, fun s t hr h => ?_⟩
  · have heffect := exec_effect h
    obtain ⟨-, rfl⟩ := exec_eq_next h
    refine ⟨fun hi hf hd => ?_, fun hi hclosed => ?_, fun hi => reserved_row hi s, fun hi => ?_⟩
    · obtain ⟨d, rfl⟩ := (mem_pixels_iff i).mp hi
      rw [commitOf_pixelInstr, pixCommit_of_open _ hf hd]
      refine ⟨fun hc => ?_, fun hc => ?_⟩
      · have hne : s.row.col.toNat ≠ wMax := Nat.ne_of_lt hc
        rw [if_neg hne]
        exact ⟨by rw [segStep_col, countPixel_col_toNat hne], by rw [segStep_ovf, countPixel_ovf]⟩
      · rw [if_pos (show s.row.col.toNat = wMax from hc)]
        rfl
    · obtain ⟨d, rfl⟩ := (mem_pixels_iff i).mp hi
      rw [commitOf_pixelInstr]
      exact pixCommit_row_of_closed _ hclosed
    · have hrow := heffect.framing_row hi
      refine ⟨hrow.imp And.right id, fun hs => ?_⟩
      obtain ⟨-, -, -, hclear, -⟩ := (inv_iff s).mp hs
      have hreset := hrow.elim (fun h => h.2.trans (hclear h.1)) id
      rw [hreset]
      exact ⟨rfl, rfl⟩
  · rw [step_reset s hr] at h
    obtain rfl := Host.Outcome.next.inj h
    exact ⟨rfl, rfl⟩

/-! ### The quartets of a group -/

/-- The j-th quartet of a list of runs is its elements 4j to 4j + 3. -/
theorem quartets_getElem? (l : List Nat) (j : Nat) (h : 4 * j + 3 < l.length) :
    (quartets l)[j]? = some ⟨l[4 * j], l[4 * j + 1], l[4 * j + 2], l[4 * j + 3]⟩ := by
  induction j generalizing l with
  | zero =>
    match l, h with
    | _ :: _ :: _ :: _ :: _, _ => rfl
  | succ j ih =>
    match l, h with
    | _ :: _ :: _ :: _ :: l, h => exact ih l (by simp only [List.length_cons] at h; omega)

theorem groupRuns_getElem {P : Params} (hP : P.listed = true) (rb : RunBuffer) (t : Stage) (i : Nat)
    (h : i < (groupRuns P rb t).length) (hb : t.base + i < 59) :
    (groupRuns P rb t)[i] = (rb[t.base + i]).toNat := by
  simp only [groupRuns, base_eq hP, List.getElem_take, List.getElem_drop, runsOf_getElem]

/-- The j-th pattern code of a group is that of its j-th quartet of RB. -/
theorem patternCodes_groupRuns_getElem? {P : Params} (hP : P.listed = true) (rb : RunBuffer) (G : Nat)
    (t : Stage) (j : Nat) (hj : 4 * j + 3 < t.size) (hb : t.base + 4 * j + 3 < 59) :
    (patternCodes P G (groupRuns P rb t))[j]? = some (patternCode (quantize P
      ⟨rb[t.base + 4 * j].toNat, rb[t.base + 4 * j + 1].toNat, rb[t.base + 4 * j + 2].toNat,
        rb[t.base + 4 * j + 3].toNat⟩ G)) := by
  rw [patternCodes, List.getElem?_map,
    quartets_getElem? _ j (by rw [groupRuns_length hP]; exact hj)]
  have hget := groupRuns_getElem hP rb t
  simp (disch := omega) only [hget, Option.map_some, Nat.add_assoc]

/-- Settles O39: a code group's codes are those of its quartets, and the groups begin at 3 and at 32
and hold 24 runs each. -/
theorem codesComeFromTheQuartets : Obligations.CodesComeFromTheQuartets := by
  intro P rb G j hj hP
  have hsize : 4 * j + 3 < 24 := by omega
  exact ⟨patternCodes_groupRuns_getElem? hP rb G .lc j hsize (by simp only [Stage.base]; omega),
    patternCodes_groupRuns_getElem? hP rb G .rc j hsize (by simp only [Stage.base]; omega),
    patternCodes_length hP G rb⟩

end Sys2Proof.Machine

/-! PROOFS. The opcode map and the assembler's pixel runs (30_encoding.md R70 to R77). -/

namespace Sys2Proof.Machine

open Sys2Proof

/-! ### Decoding and encoding are inverse -/

@[simp] theorem decode_encode (i : Instr) : decode (encode i) = i := by
  cases i <;> rfl

theorem encode_decode (c : CommandWord) : encode (decode c) = c := by
  revert c
  decide

/-- Settles O1: each word of the map is the code of its command. -/
theorem opcodeMapDecodes : Obligations.OpcodeMapDecodes :=
  ⟨decode_encode .pix0, decode_encode .pix1, decode_encode .eol, decode_encode .rsv3,
    decode_encode .sof, decode_encode .rsv5, decode_encode .eof, decode_encode .rsv7⟩

/-- Settles O2: `decode_encode` holds of every command, well formed or not. -/
theorem encodeDecodeRoundTrip : Obligations.EncodeDecodeRoundTrip :=
  ⟨fun i _ => decode_encode i, encode_decode⟩

/-! ### RUN and MODS expand to runs of pixel commands -/

theorem map_decode_runWords (b : Bool) (n : Nat) :
    (runWords b n).map decode = List.replicate n (pixelInstr b) := by
  rw [runWords, pixelWord, List.map_replicate, decode_encode]

/-- R77's conditions m ≥ 1 and wi ≥ 1 are all the assembler asks of a MODS line. -/
theorem expandLine_mods (b : Bool) {m : Nat} {ws : List Nat} (hm : 1 ≤ m) (hws : ∀ w ∈ ws, 1 ≤ w) :
    expandLine (.mods b m ws) = .ok (modsWords b m ws) := by
  have hzero : 0 ∉ ws := fun h => absurd (hws 0 h) (by decide)
  have haccepted : ¬ (m = 0 ∨ ws.contains 0) := by
    rw [List.contains_iff_mem]
    exact not_or.mpr ⟨by omega, hzero⟩
  exact if_neg haccepted

section Listed
variable {P : Params} (hP : P.listed = true)
include hP

/-- The command of the colour of bit b is the one of bit b. -/
theorem pixelCommand_pixelColour (b : Bool) : pixelCommand P (pixelColour P b) = pixelInstr b := by
  cases b with
  | false => rw [pixelColour_eq hP]; exact pixelCommand_white hP
  | true => rw [pixelColour_eq hP]; exact pixelCommand_black hP

/-- The opposite bit stands for the other colour. -/
theorem pixelColour_not (b : Bool) : pixelColour P (!b) = (pixelColour P b).other := by
  rw [pixelColour_eq hP, pixelColour_eq hP]
  cases b <;> rfl

/-- The words of MODS are the pixel commands of alternating runs of the widths times m. -/
theorem map_decode_modsWords (m : Nat) (ws : List Nat) (b : Bool) :
    (modsWords b m ws).map decode =
      pixelCommands P (alternating (pixelColour P b) (ws.map (· * m))) := by
  induction ws generalizing b with
  | nil => rfl
  | cons w ws ih =>
    rw [modsWords, List.map_append, map_decode_runWords, ih, pixelColour_not hP, List.map_cons,
      alternating, pixelCommands, pixelCommands, List.map_append, List.map_replicate,
      pixelCommand_pixelColour hP]

end Listed

/-- Settles O3: RUN by `map_decode_runWords`, MODS by induction on the widths
(`map_decode_modsWords`). -/
theorem runAndModsExpandToPixelRuns : Obligations.RunAndModsExpandToPixelRuns := by
  refine fun P hP => ⟨fun b n => ?_, fun b m ws hm hws => ?_⟩
  · have hrun := map_decode_runWords b n
    exact ⟨runWords b n, rfl, hrun, by rw [pixelCommand_pixelColour hP, hrun]⟩
  · exact ⟨modsWords b m ws, expandLine_mods b hm hws, map_decode_modsWords hP m ws b⟩

end Sys2Proof.Machine

/-! PROOFS. The segmenter (40_segmenter.md R100 to R110): the pixel-serial step, the shape of the rows
that segment, and where each stage starts. -/

namespace Sys2Proof.Machine

open Sys2Proof

/-! ### Success is a 60th run -/

theorem segment_success_iff {P : Params} (hP : P.listed = true) (s : List Colour) :
    (segment P s).1 = true ↔ 60 ≤ (runsOfRow s).length := by
  rw [(segment_runs hP s).1, decide_eq_true_iff]

/-- Settles O33: both sides succeed iff the row has a 60th run (`segSteps_full_iff`,
`segment_success_iff`), and then both hold its first 59 runs. -/
theorem segStepAgreesWithSegment : Obligations.SegStepAgreesWithSegment := by
  intro P s hP hs
  have hiff := segment_success_iff hP s
  refine ⟨(segSteps_full_iff hP s hs).trans hiff.symm, fun h => ?_⟩
  rw [(segment_runs hP s).2 h]
  exact List.map_congr_left fun t _ => (groupRuns_segSteps hP s t hs (hiff.mp h)).symm

/-! ### The shape of a row that segments -/

theorem reverse_runsOfRow_pos (s : List Colour) : ∀ w ∈ (runsOfRow s).reverse, 1 ≤ w :=
  fun w hw => runsOfRow_pos s w (List.mem_reverse.mp hw)

/-- A row with a 60th run is white pixels, its first 59 runs and a white pixel: run 59, counted from 0,
is a white one. -/
theorem row_eq_fiftyNineRuns (s : List Colour) (h : 60 ≤ (runsOfRow s).length) :
    ∃ f rest, s = List.replicate f .white ++ alternating .black ((runsOfRow s).reverse.take 59) ++
      .white :: rest := by
  obtain ⟨f, hf⟩ := row_eq_runs s
  obtain ⟨w, ws, hdrop⟩ : ∃ w ws, (runsOfRow s).reverse.drop 59 = w :: ws :=
    List.exists_cons_of_length_pos (by simp; omega)
  have hw : 1 ≤ w := reverse_runsOfRow_pos s w (List.mem_of_mem_drop (i := 59) (by simp [hdrop]))
  obtain ⟨n, rfl⟩ := Nat.exists_eq_add_of_le' hw
  have hlen : ((runsOfRow s).reverse.take 59).length = 59 := by simp; omega
  refine ⟨f, List.replicate n .white ++ alternating .black ws, ?_⟩
  conv_lhs => rw [hf, ← List.take_append_drop 59 (runsOfRow s).reverse, hdrop, alternating_append,
    hlen, ← List.append_assoc]
  rfl

theorem chunks_length {R : List Nat} (h : 59 ≤ R.length) :
    (chunks R).map List.length = [3, 24, 5, 24, 3] := by
  simp [chunks]
  omega

/-- Settles O34: forward by `row_eq_fiftyNineRuns`, the groups being the chunks of the first 59 runs;
backward by `segment_rendered`. -/
theorem segmentedRowsAreExactlyFiftyNineRuns : Obligations.SegmentedRowsAreExactlyFiftyNineRuns := by
  intro P s gs hP
  constructor
  · intro h
    obtain ⟨hlen, rfl⟩ := (segment_iff hP s gs).mp h
    rw [rowGroups_eq_chunks, chunks_flatten]
    refine ⟨chunks_length (by simp; omega), fun w hw => ?_, row_eq_fiftyNineRuns s hlen⟩
    exact reverse_runsOfRow_pos s w (List.mem_of_mem_take hw)
  · rintro ⟨hlen, hpos, f, rest, rfl⟩
    have hflat : gs.flatten.length = 59 := by rw [List.length_flatten, hlen]; rfl
    rw [segment_rendered hP f gs.flatten rest hflat hpos,
      chunks_unique gs gs.flatten hlen (List.take_of_length_le hflat.le)]

/-- A row that segments is white pixels, 59 runs and a white pixel, whatever follows: the converse of
`segment_rendered`. -/
theorem exists_runs_of_segment {P : Params} (hP : P.listed = true) {s : List Colour}
    (h : (segment P s).1 = true) :
    ∃ f us rest, us.length = 59 ∧ (∀ w ∈ us, 1 ≤ w) ∧
      s = List.replicate f .white ++ alternating .black us ++ .white :: rest := by
  have hlen := (segment_success_iff hP s).mp h
  obtain ⟨f, rest, hs⟩ := row_eq_fiftyNineRuns s hlen
  exact ⟨f, _, rest, by simp; omega,
    fun w hw => reverse_runsOfRow_pos s w (List.mem_of_mem_take hw), hs⟩

/-- The first black pixel comes no later than the first run. -/
theorem findIdx_black_le (f : Nat) (us : List Nat) (rest : List Colour) (hne : 0 < us.length)
    (hpos : ∀ w ∈ us, 1 ≤ w) :
    (List.replicate f Colour.white ++ alternating .black us ++ rest).findIdx (· == .black) ≤ f := by
  obtain ⟨w, us, rfl⟩ := List.exists_cons_of_length_pos hne
  obtain ⟨n, rfl⟩ := Nat.exists_eq_add_of_le' (hpos w (by simp))
  rw [alternating, List.replicate_succ, List.append_assoc, List.findIdx_append]
  split
  · next hlt => exact le_of_lt (by simpa using hlt)
  · simp [List.findIdx_cons]

/-- Settles O36: a row that segments holds 59 runs of at least one pixel and a closing pixel after its
leading white ones; the boundary row has exactly these. -/
theorem shortRowsFailStructurally : Obligations.ShortRowsFailStructurally := by
  intro P hP
  have hlong : ∀ s : List Colour, (segment P s).1 = true →
      s.findIdx (· == .black) + 60 ≤ s.length := by
    intro s h
    obtain ⟨f, us, rest, hlen, hpos, rfl⟩ := exists_runs_of_segment hP h
    have hsum : us.length ≤ us.sum := List.length_le_sum_of_one_le us hpos
    have hfirst := findIdx_black_le f us (.white :: rest) (by omega) hpos
    simp only [List.length_append, List.length_replicate, alternating_length, List.length_cons]
    omega
  refine ⟨hlong, ?_, by rw [alternating_length]; rfl, fun s hs => ?_⟩
  · have hruns := runsOfRow_rendered 0 (List.replicate 60 1) [] (by simp)
    rw [List.replicate_zero, List.nil_append, List.append_nil, List.foldl_nil] at hruns
    rw [segment_success_iff hP, hruns, List.length_reverse, List.length_replicate]
  · rw [decodeRow_eq hP, if_neg]
    rw [← segment_success_iff hP]
    intro h
    have hge := hlong s h
    omega

/-- Settles O37: appended pixels only lengthen the part of the row that `segment_rendered` leaves
free, and DecodeRow sees a row through Segment alone. -/
theorem pixelsAfterTheSymbolAreIgnored : Obligations.PixelsAfterTheSymbolAreIgnored := by
  intro P s extra hP h
  have hseg : segment P (s ++ extra) = segment P s := by
    obtain ⟨f, us, rest, hlen, hpos, rfl⟩ := exists_runs_of_segment hP h
    rw [List.append_assoc, List.cons_append, segment_rendered hP f us _ hlen hpos,
      segment_rendered hP f us _ hlen hpos]
  exact ⟨hseg, by rw [decodeRow, decodeRow, hseg]⟩

/-! ### Where a stage starts -/

/-- Index i is where a stage starts: the runs of the earlier stages lie before it, and its pixel has
the stage's start colour (40_segmenter.md R104). -/
def StartsOn (s : List Colour) (i : Nat) (t : Stage) : Prop :=
  (runsOfRow (s.take i)).length = t.base ∧ s[i]? = some t.start

/-- A call of Fill that starts at column 0 or where its stage starts, and fills its group, ends where
the next stage starts. -/
theorem startsOn_fill_next {s : List Colour} {i : Nat} {t t' : Stage} (ht : t ≠ .full)
    (hbase : t'.base = t.base + t.size) (hi : i = 0 ∧ t = .lg ∨ StartsOn s i t)
    (hfilled : (fill s i t.start t.size).filled = true) :
    StartsOn s (fill s i t.start t.size).next t' := by
  obtain ⟨htake, hruns, hhead⟩ : (s.take i).length = i ∧ (runsOfRow (s.take i)).length = t.base ∧
      (s.take i = [] ∧ t = .lg ∨ (s.drop i).head? = some t.start) := by
    rcases hi with ⟨rfl, rfl⟩ | ⟨hruns, hpix⟩
    · exact ⟨rfl, rfl, .inl ⟨rfl, rfl⟩⟩
    · have hlt := (List.getElem?_eq_some_iff.mp hpix).1
      exact ⟨List.length_take_of_le hlt.le, hruns, .inr (by rw [List.head?_drop, hpix])⟩
  have hcases := fill_cases t ht s (s.take i) (s.drop i) (List.take_append_drop i s).symm hruns hhead
  rw [htake] at hcases
  rcases hcases with ⟨hnot, _⟩ | ⟨_, pre, rest, hs, hnext, hpre, _, hrest⟩
  · rw [hfilled] at hnot
    cases hnot
  · rw [hnext, StartsOn, start_eq_nthColour, hbase, hs, List.take_left, ← hrest,
      List.getElem?_append_right le_rfl, Nat.sub_self, List.head?_eq_getElem?]
    exact ⟨hpre, rfl⟩

/-- In a chain of stages whose first starts at index i, the call after n filled ones begins where its
stage starts. -/
theorem fillStages_startsOn {P : Params} (hP : P.listed = true) {s : List Colour} {f : FillResult}
    {t : Stage} (n : Nat) {i : Nat} {t0 : Stage} {ts : List Stage}
    (hchain : List.IsChain (fun a b : Stage => b.base = a.base + a.size) (t0 :: ts))
    (hnf : ∀ t ∈ t0 :: ts, t ≠ .full) (hi : i = 0 ∧ t0 = .lg ∨ StartsOn s i t0)
    (hf : (fillStages P s i (t0 :: ts))[n]? = some f) (ht : (t0 :: ts)[n + 1]? = some t)
    (hfilled : ∀ m ≤ n, ∀ g, (fillStages P s i (t0 :: ts))[m]? = some g → g.filled = true) :
    StartsOn s f.next t := by
  induction n generalizing i t0 ts with
  | zero =>
    cases ts with
    | nil => cases ht
    | cons t1 ts =>
      obtain rfl := Option.some.inj ht
      obtain rfl := Option.some.inj hf
      have hfull := hfilled 0 le_rfl _ rfl
      rw [size_eq hP] at hfull ⊢
      exact startsOn_fill_next (hnf t0 (by simp)) (List.isChain_cons_cons.mp hchain).1 hi hfull
  | succ n ih =>
    cases ts with
    | nil => cases ht
    | cons t1 ts =>
      obtain ⟨hbase, hrest⟩ := List.isChain_cons_cons.mp hchain
      have hfull := hfilled 0 (Nat.zero_le _) _ rfl
      rw [size_eq hP] at hfull
      have hnext := startsOn_fill_next (hnf t0 (by simp)) hbase hi hfull
      rw [← size_eq hP] at hnext
      exact ih hrest (fun t h => hnf t (List.mem_cons_of_mem _ h)) (.inr hnext) hf ht
        fun m hm => hfilled (m + 1) (Nat.succ_le_succ hm)

theorem locate_of_getElem? {s : List Colour} {i : Nat} {c : Colour} (h : s[i]? = some c) :
    locate c i (s.drop i) = (i, s.drop i) := by
  obtain ⟨hi, rfl⟩ := List.getElem?_eq_some_iff.mp h
  rw [List.drop_eq_getElem_cons hi]
  simp [locate]

/-- Settles O35: `fillStages_startsOn` for the chain of Segment, which begins at column 0. -/
theorem nextStageStartsOnItsColour : Obligations.NextStageStartsOnItsColour := by
  intro P s n f t hP hf ht hfilled
  have hstart := fillStages_startsOn hP n groups_chain (by decide) (.inl ⟨rfl, rfl⟩) hf ht hfilled
  exact ⟨hstart.2, locate_of_getElem? hstart.2⟩

end Sys2Proof.Machine

/-! PROOFS. The module width and the exact ratio forms (41_module_width.md R120 to R126), and the
quantizer on whole ratios (42_quantizer.md R139). -/

namespace Sys2Proof.Machine

open Sys2Proof

/-! ### The groups of a run buffer -/

/-- Every run of a group is a run of RB, so none is 0 once all 59 have a pixel. -/
theorem groupRuns_pos (P : Params) {rb : RunBuffer} (hrb : ∀ i : Fin 59, 1 ≤ rb[i].toNat) (t : Stage) :
    ∀ w ∈ groupRuns P rb t, 1 ≤ w := by
  intro w hw
  obtain ⟨i, hi, rfl⟩ := List.mem_iff_getElem.mp (List.mem_of_mem_drop (List.mem_of_mem_take hw))
  rw [runsOf_getElem]
  exact hrb ⟨i, by rwa [runsOf_length] at hi⟩

section Listed
variable {P : Params} (hP : P.listed = true) (rb : RunBuffer)
include hP

/-- The five groups are the chunks of RB's runs. -/
theorem groupRuns_eq_chunks : Stage.groups.map (groupRuns P rb) = chunks (runsOf rb) := by
  simp only [Stage.groups, List.map, groupRuns, base_eq hP, size_eq hP]
  rfl

/-- The guard groups and the two code groups share out the runs. -/
theorem runsOf_sum :
    (runsOf rb).sum =
      guardSum (groupRuns P rb .lg) (groupRuns P rb .mg) (groupRuns P rb .rg) +
        (groupRuns P rb .lc).sum + (groupRuns P rb .rc).sum := by
  have hall : (runsOf rb).take 59 = runsOf rb := List.take_of_length_le (runsOf_length rb).le
  rw [← hall, ← chunks_flatten, ← groupRuns_eq_chunks hP]
  simp only [Stage.groups, List.map, List.sum_flatten, List.sum_cons, List.sum_nil, guardSum]
  omega

/-- A group written out: SIZE elements of RB from BASE on. -/
theorem groupRuns_eq_ofFn (t : Stage) (h : t.base + t.size ≤ 59) :
    groupRuns P rb t = List.ofFn fun i : Fin t.size => (rb[t.base + i.val]).toNat := by
  apply List.ext_getElem
  · rw [groupRuns_length hP, List.length_ofFn]
  · intro i hi _
    rw [groupRuns_length hP] at hi
    rw [groupRuns_getElem hP rb t i _ (by omega), List.getElem_ofFn]

/-- The eleven guard runs of 41_module_width.md R120. -/
theorem guardSum_groupRuns :
    guardSum (groupRuns P rb .lg) (groupRuns P rb .mg) (groupRuns P rb .rg) =
      (rb[0].toNat + rb[1].toNat + rb[2].toNat) +
      (rb[27].toNat + rb[28].toNat + rb[29].toNat + rb[30].toNat + rb[31].toNat) +
      (rb[56].toNat + rb[57].toNat + rb[58].toNat) := by
  have hlg := groupRuns_eq_ofFn hP rb .lg (by decide)
  have hmg := groupRuns_eq_ofFn hP rb .mg (by decide)
  have hrg := groupRuns_eq_ofFn hP rb .rg (by decide)
  simp only [Stage.size, Stage.base, List.ofFn_succ, List.ofFn_zero] at hlg hmg hrg
  rw [guardSum, hlg, hmg, hrg]
  simp [← Nat.add_assoc]

/-- Eleven guard runs of at least one pixel each. -/
theorem eleven_le_guardSum (hrb : ∀ i : Fin 59, 1 ≤ rb[i].toNat) :
    11 ≤ guardSum (groupRuns P rb .lg) (groupRuns P rb .mg) (groupRuns P rb .rg) := by
  have hsum (t : Stage) : t.size ≤ (groupRuns P rb t).sum := by
    rw [← groupRuns_length hP rb t]
    exact List.length_le_sum_of_one_le _ (groupRuns_pos P hrb t)
  have hlg : 3 ≤ _ := hsum .lg
  have hmg : 5 ≤ _ := hsum .mg
  have hrg : 3 ≤ _ := hsum .rg
  rw [guardSum]
  omega

end Listed

/-- Settles O38: the runs add up to at most COL, so the guard runs do, and in stage 5 none of the eleven
is 0. -/
theorem guardSumIsBounded : Obligations.GuardSumIsBounded := by
  refine ⟨fun P rb hP => guardSum_groupRuns hP rb, fun s hs hfull => ?_⟩
  obtain ⟨hb, ⟨-, hruns, ⟨hsum, hcol⟩, -⟩, -⟩ := hs
  have hP := (wf_iff.mp hb).1
  have hrb := hruns hfull
  refine ⟨fun t _ => groupRuns_pos _ hrb t, hsum, eleven_le_guardSum hP _ hrb, ?_⟩
  calc guardSum _ _ _
      ≤ (runsOf s.row.rb).sum := by
        rw [runsOf_sum hP, Nat.add_assoc]
        exact Nat.le_add_right _ _
    _ ≤ s.row.col.toNat := hsum
    _ ≤ 65535 := hcol

/-! ### The integer forms of the ratio operations -/

/-- Truncation toward zero (41_module_width.md R124), as the model computes it. -/
theorem truncate_sum_less_one {na nb G : Nat} (hG : 0 < G) (hpos : 0 < na + nb) :
    (if 0 ≤ (na : ℚ) / G + nb / G - 1 then ⌊(na : ℚ) / G + nb / G - 1⌋
      else ⌈(na : ℚ) / G + nb / G - 1⌉) = ((sumLessOne na nb G : Nat) : ℤ) := by
  have hG' : (0 : ℚ) < G := by exact_mod_cast hG
  have hx : (na : ℚ) / G + nb / G - 1 = (na + nb - G) / G := by field_simp
  have hnonneg : 0 ≤ ((na : ℚ) + nb - G) / G ↔ G ≤ na + nb := by
    rw [le_div_iff₀ hG', zero_mul, sub_nonneg]
    exact_mod_cast Iff.rfl
  rw [hx, sumLessOne]
  simp only [hnonneg, ge_iff_le]
  split
  case isTrue h =>
    rw [← Nat.cast_add, ← Nat.cast_sub h]
    exact Rat.floor_natCast_div_natCast _ _
  case isFalse h =>
    rw [Nat.cast_zero, Int.ceil_eq_zero_iff]
    have hlt : (0 : ℚ) < na + nb := by exact_mod_cast hpos
    refine ⟨?_, (not_le.mp (mt hnonneg.mp h)).le⟩
    rw [lt_div_iff₀ hG']
    linarith

/-- Settles O40: a quotient of naturals has the integer quotient as its floor and the remainder as its
fractional part, and the quotient of a sum carries iff the remainders reach G (`Nat.add_div`). -/
theorem exactRatioForms : Obligations.ExactRatioForms := by
  intro na nb G hG
  have hG' : (0 : ℚ) < G := by exact_mod_cast hG
  have hfloor (n : Nat) : ⌊(n : ℚ) / G⌋ = ((n / G : Nat) : ℤ) := Rat.floor_natCast_div_natCast n G
  have hfract (n : Nat) : (n : ℚ) / G - ⌊(n : ℚ) / G⌋ = ((n % G : Nat) : ℚ) / G :=
    Int.fract_div_natCast_eq_div_natCast_mod
  refine ⟨?_, hfloor na, ⟨hfract na, Nat.mod_lt na hG⟩, ?_, ?_, truncate_sum_less_one hG⟩
  · rw [div_lt_one hG', Nat.cast_lt]
  · rw [hfract, hfract, div_lt_div_iff_of_pos_right hG', Nat.cast_lt]
  · rw [← add_div, ← Nat.cast_add, hfloor, hfloor, hfloor, Nat.add_div hG]
    split
    case isTrue h => simp [h]
    case isFalse h => simp [h]

/-! ### Whole ratios -/

/-- Step 3 without a carry truncates both ratios (42_quantizer.md R134). -/
theorem qPair_of_no_carry (tb : TieBreak) {na nb G : Nat} (nn : Nat) (ha : G ≤ na) (hb : G ≤ nb)
    (h : na % G + nb % G < G) : qPair tb na nb nn G = (na / G, nb / G) := by
  rcases qPair_cases tb na nb nn G with ⟨hlt, -⟩ | ⟨hlt, -⟩ | ⟨-, -, -, hq⟩ | ⟨-, -, hge, -⟩ |
    ⟨-, -, hge, -⟩
  · omega
  · omega
  · exact hq
  · omega
  · omega

section Listed
variable {P : Params} (hP : P.listed = true)
include hP

/-- From 1 on LOWER_CLAMP makes no difference. -/
theorem clampComponent_of_pos {v : Nat} (hv : 1 ≤ v) : clampComponent P v = min v 4 := by
  obtain ⟨-, -, hclamp, -⟩ := listed_iff.mp hP
  have hmin : 1 ≤ min v 4 := le_min hv (by decide)
  rw [clampComponent, hclamp]
  split
  · exact max_eq_left hmin
  · rfl

theorem quantize_of_whole_ratios {q : Quartet} {G : Nat} (hG : 0 < G)
    (h : ∀ r ∈ [q.r0, q.r1, q.r2, q.r3], 11 * r % G = 0 ∧ G ≤ 11 * r) :
    quantize P q G = ⟨min (11 * q.r0 / G) 4, min (11 * q.r1 / G) 4, min (11 * q.r2 / G) 4,
      min (11 * q.r3 / G) 4⟩ := by
  have hclamp {r : Nat} (hr : G ≤ 11 * r) :
      clampComponent P (11 * r / G) = min (11 * r / G) 4 :=
    clampComponent_of_pos hP (Nat.div_pos hr hG)
  simp only [List.forall_mem_cons] at h
  obtain ⟨⟨hm0, hle0⟩, ⟨hm1, hle1⟩, ⟨hm2, hle2⟩, ⟨hm3, hle3⟩, -⟩ := h
  simp only [quantize, numerator_eq hP]
  rw [qPair_of_no_carry _ _ hle0 hle1 (by omega), qPair_of_no_carry _ _ hle2 hle3 (by omega),
    hclamp hle0, hclamp hle1, hclamp hle2, hclamp hle3]

/-- A run of w modules at m pixels per module has the ratio w (41_module_width.md R126). -/
theorem quantize_of_module_widths {q : Quartet} {m : Nat} (hm : 1 ≤ m)
    (h : ∀ w ∈ [q.r0, q.r1, q.r2, q.r3], 1 ≤ w ∧ w ≤ 4) :
    quantize P ⟨q.r0 * m, q.r1 * m, q.r2 * m, q.r3 * m⟩ (11 * m) = ⟨q.r0, q.r1, q.r2, q.r3⟩ := by
  have hG : 0 < 11 * m := by omega
  have hrun (w : Nat) : 11 * (w * m) = w * (11 * m) := by ring
  have hwhole {w : Nat} (hw : 1 ≤ w) : 11 * (w * m) % (11 * m) = 0 ∧ 11 * m ≤ 11 * (w * m) := by
    rw [hrun]
    exact ⟨Nat.mul_mod_left _ _, Nat.le_mul_of_pos_left _ hw⟩
  have hwidth {w : Nat} (hw : w ≤ 4) : min (11 * (w * m) / (11 * m)) 4 = w := by
    rw [hrun, Nat.mul_div_cancel _ hG, min_eq_left hw]
  simp only [List.forall_mem_cons] at h
  obtain ⟨⟨hlo0, hhi0⟩, ⟨hlo1, hhi1⟩, ⟨hlo2, hhi2⟩, ⟨hlo3, hhi3⟩, -⟩ := h
  rw [quantize_of_whole_ratios hP hG (by
    simp only [List.forall_mem_cons]
    exact ⟨hwhole hlo0, hwhole hlo1, hwhole hlo2, hwhole hlo3, by simp⟩)]
  simp only [hwidth hhi0, hwidth hhi1, hwidth hhi2, hwidth hhi3]

end Listed

/-- Settles O44: a whole ratio of at least 1 has remainder 0, so the pair does not carry, and the clamp
bounds it by 4 alone. -/
theorem exactRatiosTruncate : Obligations.ExactRatiosTruncate :=
  ⟨fun _ _ _ hP hG h => quantize_of_whole_ratios hP hG h,
    fun _ _ _ hP hm h => quantize_of_module_widths hP hm h⟩

end Sys2Proof.Machine

/-! PROOFS. The noise-free rendering (95_test_vectors.md SRC-4) is decoded: its runs segment, its
quartets quantize to the module widths, and the default tables give its digits and letters back. -/

namespace Sys2Proof.Machine

open Sys2Proof

/-! ### The runs of a code group -/

/-- A code is composed of its components (30_encoding.md R80). -/
theorem patternCode_components (code : Nat) :
    patternCode ⟨code / 1000, code / 100 % 10, code / 10 % 10, code % 10⟩ = code := by
  simp only [patternCode]
  omega

theorem one_le_of_mem_codeComponents {code : Nat} (h : keyComponentsOk code = true) :
    ∀ w ∈ codeComponents code, 1 ≤ w ∧ w ≤ 4 := by
  simpa [keyComponentsOk] using h

/-- What the rendering uses of a symbol alphabet: each symbol's widths are the components of a key that
looks up to it. -/
def Renders {α : Type} (widths : α → List Nat) (lookup : Nat → Option α) : Prop :=
  ∀ a, ∃ code, keyComponentsOk code = true ∧ widths a = codeComponents code ∧ lookup code = some a

section Alphabet
variable {α : Type} {widths : α → List Nat} {lookup : Nat → Option α} (h : Renders widths lookup)
include h

theorem Renders.widths_pos (as : List α) : ∀ w ∈ as.flatMap widths, 1 ≤ w := by
  intro w hw
  obtain ⟨a, -, hw⟩ := List.mem_flatMap.mp hw
  obtain ⟨code, hok, hwidths, -⟩ := h a
  rw [hwidths] at hw
  exact (one_le_of_mem_codeComponents hok w hw).1

theorem Renders.widths_length (as : List α) : (as.flatMap widths).length = 4 * as.length := by
  induction as with
  | nil => rfl
  | cons a as ih =>
    obtain ⟨code, -, hwidths, -⟩ := h a
    rw [List.flatMap_cons, List.length_append, ih, hwidths, List.length_cons, codeComponents]
    simp only [List.length_cons, List.length_nil]
    omega

/-- Rendered at m pixels per module, a group of symbols is read back. -/
theorem Renders.lookupAll_patternCodes {P : Params} (hP : P.listed = true) {m : Nat} (hm : 1 ≤ m)
    (as : List α) :
    lookupAll lookup (patternCodes P (11 * m) ((as.flatMap widths).map (· * m))) = some as := by
  induction as with
  | nil => rfl
  | cons a as ih =>
    obtain ⟨code, hok, hwidths, hlookup⟩ := h a
    have hcodes : patternCodes P (11 * m) (((a :: as).flatMap widths).map (· * m)) =
        code :: patternCodes P (11 * m) ((as.flatMap widths).map (· * m)) := by
      have hquant := quantize_of_module_widths hP (q := ⟨_, _, _, _⟩) hm
        (one_le_of_mem_codeComponents hok)
      rw [List.flatMap_cons, hwidths]
      simp only [codeComponents, List.cons_append, List.nil_append, List.map_cons, patternCodes,
        quartets, hquant, patternCode_components]
    rw [hcodes, lookupAll, hlookup, ih]

end Alphabet

/-! ### The default tables -/

theorem renders_left (P : Params) (h : P.tableLG = hardware.tableLG) :
    Renders (fun e => leftWidths e.1 e.2) (lookupLeft P) := by
  rintro ⟨d, l⟩
  have hentry : ∃ e ∈ hardware.tableLG, keyComponentsOk e.code = true ∧
      leftWidths d l = codeComponents e.code ∧ lookupLeft hardware e.code = some (d, l) := by
    revert d
    cases l <;> decide
  obtain ⟨e, -, hok, hwidths, hlookup⟩ := hentry
  refine ⟨e.code, hok, hwidths, ?_⟩
  rw [lookupLeft, h]
  exact hlookup

theorem renders_right (P : Params) (h : P.tableR = hardware.tableR) :
    Renders rightWidths (lookupRight P) := by
  intro d
  have hentry : ∃ e ∈ hardware.tableR, keyComponentsOk e.code = true ∧
      rightWidths d = codeComponents e.code ∧ lookupRight hardware e.code = some d := by
    revert d
    decide
  obtain ⟨e, -, hok, hwidths, hlookup⟩ := hentry
  refine ⟨e.code, hok, hwidths, ?_⟩
  rw [lookupRight, h]
  exact hlookup

theorem lookupParity_parityOf (P : Params) (h : P.tablePar = hardware.tablePar) (d : Digit) :
    lookupParity P (parityOf d) = some d := by
  have hword : lookupParity hardware (parityOf d) = some d := by
    revert d
    decide
  rw [lookupParity, h]
  exact hword

theorem parityWord_lettersOf (w : ParityWord) : parityWord (lettersOf w) = w := by
  revert w
  decide

/-! ### The symbol of a number -/

/-- The six left digits, each with the letter that the leading digit's parity word gives it. -/
def leftSymbols (d : DigitWord) : List (Digit × ParityLetter) :=
  ((d.toList.drop 1).take 6).zip (lettersOf (parityOf d[0]))

/-- The six right digits. -/
def rightSymbols (d : DigitWord) : List Digit := d.toList.drop 7

/-- The five groups of the symbol's module widths, in stage order. -/
def symbolGroups (d : DigitWord) : List (List Nat) :=
  [[1, 1, 1], (leftSymbols d).flatMap fun e => leftWidths e.1 e.2, [1, 1, 1, 1, 1],
    (rightSymbols d).flatMap rightWidths, [1, 1, 1]]

theorem symbolWidths_eq_flatten (d : DigitWord) : symbolWidths d = (symbolGroups d).flatten := by
  simp [symbolWidths, symbolGroups, leftSymbols, rightSymbols]

theorem symbolGroups_length (d : DigitWord) :
    (symbolGroups d).map List.length = [3, 24, 5, 24, 3] := by
  simp [symbolGroups, (renders_left hardware rfl).widths_length,
    (renders_right hardware rfl).widths_length, leftSymbols, rightSymbols, lettersOf]

theorem symbolWidths_length (d : DigitWord) : (symbolWidths d).length = 59 := by
  rw [symbolWidths_eq_flatten, List.length_flatten, symbolGroups_length]
  rfl

theorem symbolWidths_pos (d : DigitWord) : ∀ w ∈ symbolWidths d, 1 ≤ w := by
  have hleft := (renders_left hardware rfl).widths_pos (leftSymbols d)
  have hright := (renders_right hardware rfl).widths_pos (rightSymbols d)
  rw [symbolWidths_eq_flatten, List.forall_mem_flatten, symbolGroups]
  simp only [List.forall_mem_cons]
  exact ⟨by decide, hleft, by decide, hright, by decide, by simp⟩

/-- The letters of the symbol spell the parity word. -/
theorem parityWord_leftSymbols (d : DigitWord) :
    parityWord ((leftSymbols d).map (·.2)) = parityOf d[0] := by
  have h : (leftSymbols d).map Prod.snd = lettersOf (parityOf d[0]) :=
    List.map_snd_zip (by simp [lettersOf])
  rw [h, parityWord_lettersOf]

theorem digitWord_toList (d : DigitWord) : digitWord d.toList = d := by
  ext i hi
  simp [digitWord]

/-- The leading digit and the digits of both halves are the number. -/
theorem digitWord_symbols (d : DigitWord) :
    digitWord (d[0] :: (leftSymbols d).map (·.1) ++ rightSymbols d) = d := by
  have hleft : (leftSymbols d).map Prod.fst = (d.toList.drop 1).take 6 :=
    List.map_fst_zip (by simp [lettersOf])
  have hlist : d[0] :: (d.toList.drop 1).take 6 ++ d.toList.drop 7 = d.toList := by
    rw [digits_toList]
    rfl
  rw [hleft, rightSymbols, hlist, digitWord_toList]

section Decode
variable {P : Params} (hP : P.listed = true) (hL : P.tableLG = hardware.tableLG)
  (hR : P.tableR = hardware.tableR) (hPar : P.tablePar = hardware.tablePar)
include hP

/-- A rendering segments into the symbol's groups at m pixels per module. -/
theorem segment_render (d : DigitWord) {m qr : Nat} (ql : Nat) (hm : 1 ≤ m) (hqr : 1 ≤ qr) :
    segment P (render d m ql qr) = (true, (symbolGroups d).map (List.map (· * m))) := by
  obtain ⟨n, hn⟩ := Nat.exists_eq_add_of_le' (Nat.mul_le_mul hqr hm)
  have hpos : ∀ w ∈ (symbolWidths d).map (· * m), 1 ≤ w := by
    intro w hw
    obtain ⟨v, hv, rfl⟩ := List.mem_map.mp hw
    exact Nat.mul_le_mul (symbolWidths_pos d v hv) hm
  have hlen : ((symbolWidths d).map (· * m)).length = 59 := by
    rw [List.length_map, symbolWidths_length]
  have hgroups : ((symbolGroups d).map (List.map (· * m))).map List.length = [3, 24, 5, 24, 3] := by
    simpa [Function.comp_def] using symbolGroups_length d
  rw [render, hn, List.replicate_succ, segment_rendered hP _ _ _ hlen hpos,
    chunks_unique _ _ hgroups]
  rw [List.take_of_length_le hlen.le, symbolWidths_eq_flatten, List.map_flatten]

include hL hR hPar

/-- The codes of a rendering identify its number and its parity word. -/
theorem identify_symbolGroups (d : DigitWord) {m : Nat} (hm : 1 ≤ m) :
    identify P
        (patternCodes P (11 * m) (((leftSymbols d).flatMap fun e => leftWidths e.1 e.2).map (· * m)))
        (patternCodes P (11 * m) (((rightSymbols d).flatMap rightWidths).map (· * m))) =
      .ok d (parityOf d[0]) := by
  have hlead := lookupParity_parityOf P hPar d[0]
  rw [identify, (renders_left P hL).lookupAll_patternCodes hP hm,
    (renders_right P hR).lookupAll_patternCodes hP hm]
  simp only [parityWord_leftSymbols, hlead, digitWord_symbols]

theorem decodeRow_render {d : DigitWord} (hd : checksumValid d = true) {m qr : Nat} (ql : Nat)
    (hm : 1 ≤ m) (hqr : 1 ≤ qr) :
    decodeRow P (render d m ql qr) = .ok d (parityOf d[0]) := by
  have hG : guardSum ([1, 1, 1].map (· * m)) ([1, 1, 1, 1, 1].map (· * m)) ([1, 1, 1].map (· * m)) =
      11 * m := by
    simp [guardSum]
    omega
  rw [decodeRow, segment_render hP d ql hm hqr]
  simp only [symbolGroups, List.map_cons (f := List.map _), List.map_nil (f := List.map _)]
  rw [decodeGroups, hG, identify_symbolGroups hP hL hR hPar d hm, validate, if_pos hd]

end Decode

/-- Settles O59: DecodeRow by `decodeRow_render`, and the block records DecodeRow's outcome of its first
row (`commitsOf_row`). -/
theorem noiseFreeRenderingsDecode : Obligations.NoiseFreeRenderingsDecode := by
  intro d m ql qr s hb hreset hL hR hPar hd hm hqr hlen
  obtain ⟨hf, hr, -, hl⟩ := hreset
  have hP := (wf_iff.mp hb).1
  have hrow := decodeRow_render hP hL hR hPar hd ql hm hqr
  refine ⟨hrow, _, commitAll_next _ s hl, ?_⟩
  rw [commitsOf_row _ s hP (by rw [hf]; rfl) (by rw [hf]; rfl) hr hlen, hrow, hf]
  refine ⟨rfl, rfl, rfl, rfl, BitVec.eq_of_toNat_eq ?_⟩
  rw [record_rowCount, nextRowCount_toNat hP]
  rfl

end Sys2Proof.Machine

/-! PROOFS. The quantizer on any ratios: the truncated sum of a pair, its carry and tie break, and the
clamp (42_quantizer.md R133 to R138). -/

namespace Sys2Proof.Machine

open Sys2Proof

/-! ### The truncated sum less one -/

theorem sumLessOne_of_lt {na nb G : Nat} (h : na + nb < G) : sumLessOne na nb G = 0 :=
  if_neg (not_le.mpr h)

theorem sumLessOne_add_one {na nb G : Nat} (hG : 0 < G) (h : G ≤ na + nb) :
    sumLessOne na nb G + 1 = (na + nb) / G := by
  rw [sumLessOne, if_pos h]
  exact (Nat.div_eq_sub_div hG h).symm

theorem sumLessOne_eq_zero_iff {na nb G : Nat} (hG : 0 < G) :
    sumLessOne na nb G = 0 ↔ na + nb < 2 * G := by
  rw [sumLessOne]
  split
  case isTrue h =>
    rw [Nat.div_eq_zero_iff_lt hG]
    omega
  case isFalse h =>
    simp only [true_iff]
    omega

/-! ### The below-one branch -/

theorem qPair_of_first_below (tb : TieBreak) {na nb G : Nat} (nn : Nat) (h : na < G) (hle : na ≤ nb) :
    qPair tb na nb nn G = (1, sumLessOne na nb G) := by
  rw [qPair, if_pos (.inl h), belowOne, if_pos hle]

theorem qPair_of_second_below (tb : TieBreak) {na nb G : Nat} (nn : Nat) (h : nb < G) (hlt : nb < na) :
    qPair tb na nb nn G = (sumLessOne na nb G, 1) := by
  rw [qPair, if_pos (.inr h), belowOne, if_neg (not_le.mpr hlt)]

/-- A sum below one module leaves 1 for the smaller ratio and 0 for the other. -/
theorem qPair_of_sum_below (tb : TieBreak) {na nb G : Nat} (nn : Nat) (h : na + nb < G) :
    qPair tb na nb nn G = (1, 0) ∨ qPair tb na nb nn G = (0, 1) := by
  rcases le_or_gt na nb with hle | hlt
  · left
    rw [qPair_of_first_below tb nn (by omega) hle, sumLessOne_of_lt h]
  · right
    rw [qPair_of_second_below tb nn (by omega) hlt, sumLessOne_of_lt h]

/-- The other value of step 2 makes up the sum, and step 3 adds one exactly where the sum of the
remainders carries (`Nat.add_div`). -/
theorem qPair_sum (tb : TieBreak) {na nb G : Nat} (nn : Nat) (hG : 0 < G) (h : G ≤ na + nb) :
    (qPair tb na nb nn G).1 + (qPair tb na nb nn G).2 = (na + nb) / G := by
  have hbelow := sumLessOne_add_one hG h
  have hcarry := Nat.add_div (a := na) (b := nb) hG
  rcases qPair_cases tb na nb nn G with ⟨-, -, hq⟩ | ⟨-, -, hq⟩ | ⟨-, -, hlt, hq⟩ |
    ⟨-, -, hge, -, hq⟩ | ⟨-, -, hge, -, hq⟩
  · rw [hq, Nat.add_comm, hbelow]
  · rw [hq, hbelow]
  · rw [hq, hcarry, if_neg (not_le.mpr hlt), Nat.add_zero]
  · rw [hq, hcarry, if_pos hge, Nat.add_right_comm]
  · rw [hq, hcarry, if_pos hge, Nat.add_assoc]

/-- A value 0 comes only from step 2, and there only from a sum below two modules. -/
theorem qPair_eq_zero (tb : TieBreak) {na nb G : Nat} (nn : Nat) (hG : 0 < G)
    (h : (qPair tb na nb nn G).1 = 0 ∨ (qPair tb na nb nn G).2 = 0) :
    (na < G ∨ nb < G) ∧ na + nb < 2 * G := by
  have hpos {n : Nat} (hn : G ≤ n) : 0 < n / G := Nat.div_pos hn hG
  rw [← sumLessOne_eq_zero_iff hG]
  rcases qPair_cases tb na nb nn G with ⟨hlt, -, hq⟩ | ⟨hlt, -, hq⟩ | ⟨ha, hb, -, hq⟩ |
    ⟨ha, hb, -, -, hq⟩ | ⟨ha, hb, -, -, hq⟩ <;> rw [hq] at h
  · exact ⟨hlt, h.resolve_left one_ne_zero⟩
  · exact ⟨hlt, h.resolve_right one_ne_zero⟩
  · exact absurd h (not_or.mpr ⟨(hpos ha).ne', (hpos hb).ne'⟩)
  · exact absurd h (not_or.mpr ⟨Nat.succ_ne_zero _, (hpos hb).ne'⟩)
  · exact absurd h (not_or.mpr ⟨(hpos ha).ne', Nat.succ_ne_zero _⟩)

/-- Settles O41: `qPair_sum`, and the equations of the below-one branch. -/
theorem pairKeepsItsTruncatedSum : Obligations.PairKeepsItsTruncatedSum := by
  intro tb na nb nn G hG
  refine ⟨qPair_sum tb nn hG, qPair_of_sum_below tb nn, fun hlt hle => ?_, fun hlt hba => ?_⟩
  · rw [qPair_of_first_below tb nn hlt hle]
  · rw [qPair_of_second_below tb nn hlt hba]

/-! ### The clamp -/

section Listed
variable {P : Params} (hP : P.listed = true)
include hP

theorem clampComponent_eq (v : Nat) :
    clampComponent P v = if P.lowerClamp = true then max (min v 4) 1 else min v 4 := by
  obtain ⟨-, -, hclamp, -⟩ := listed_iff.mp hP
  rw [clampComponent, hclamp]

theorem clampComponent_le (v : Nat) : clampComponent P v ≤ 4 := (clampComponent_cases hP v).1

theorem one_le_clampComponent (hl : P.lowerClamp = true) (v : Nat) : 1 ≤ clampComponent P v :=
  (clampComponent_cases hP v).2.1 hl

theorem eq_zero_of_clampComponent {v : Nat} (h : clampComponent P v = 0) : v = 0 :=
  (clampComponent_cases hP v).2.2.1 h

/-- A clamped value of a pair is 0 only where the value itself is. -/
theorem qPair_of_clamped_zero (tb : TieBreak) {na nb G : Nat} (nn : Nat) (hG : 0 < G)
    (h : clampComponent P (qPair tb na nb nn G).1 = 0 ∨
      clampComponent P (qPair tb na nb nn G).2 = 0) :
    (na < G ∨ nb < G) ∧ na + nb < 2 * G :=
  qPair_eq_zero tb nn hG (h.imp (eq_zero_of_clampComponent hP) (eq_zero_of_clampComponent hP))

end Listed

/-- Settles O43: each component is a clamped value of its pair, and `qPair_eq_zero` says where a 0 comes
from. -/
theorem componentsAreClamped : Obligations.ComponentsAreClamped := by
  intro P q G hP hG
  have hle := clampComponent_le hP
  simp only [quantize, numerator_eq hP]
  refine ⟨⟨hle _, hle _, hle _, hle _⟩, fun hl => ?_, fun _ => ?_, fun _ => ?_⟩
  · have hpos := one_le_clampComponent hP hl
    exact ⟨hpos _, hpos _, hpos _, hpos _⟩
  · exact qPair_of_clamped_zero hP _ _ hG
  · exact qPair_of_clamped_zero hP _ _ hG

/-! ### The carry and the tie break -/

section Carry
variable (tb : TieBreak) {na nb G : Nat} (nn : Nat) (ha : G ≤ na) (hb : G ≤ nb)
  (hcarry : G ≤ na % G + nb % G)
include ha hb

/-- Step 3 is reached with both ratios at least 1 (42_quantizer.md R134). -/
theorem qPair_of_both_ge : qPair tb na nb nn G = carryBranch tb na nb nn G :=
  if_neg (not_or.mpr ⟨not_lt.mpr ha, not_lt.mpr hb⟩)

include hcarry

theorem qPair_of_first_larger (h : nb % G < na % G) :
    qPair tb na nb nn G = (na / G + 1, nb / G) := by
  rw [qPair_of_both_ge tb nn ha hb, carryBranch, if_pos hcarry, if_pos h]

theorem qPair_of_second_larger (h : na % G < nb % G) :
    qPair tb na nb nn G = (na / G, nb / G + 1) := by
  rw [qPair_of_both_ge tb nn ha hb, carryBranch, if_pos hcarry, if_neg h.not_gt, if_pos h]

theorem qPair_of_tie (h : na % G = nb % G) :
    qPair tb na nb nn G = tieBreak tb (na / G) (nb / G) (na % G) nn G := by
  rw [qPair_of_both_ge tb nn ha hb, carryBranch, if_pos hcarry, if_neg h.not_gt, if_neg h.not_lt]

end Carry

/-- A remainder does not exceed itself: with its own first run as the neighbour, a tied pair rounds
its first ratio up under either rule. -/
theorem tieBreak_self (tb : TieBreak) (ta t_b na G : Nat) :
    tieBreak tb ta t_b (na % G) na G = (ta + 1, t_b) := by
  cases tb with
  | neighbour => exact if_neg (lt_irrefl _)
  | first => rfl

/-- Settles O42: one equation of the pair per clause, and the quartet by `clampComponent_eq`. -/
theorem carryAndTieBreak : Obligations.CarryAndTieBreak := by
  refine ⟨fun tb na nb nn G _ ha hb => ⟨qPair_of_no_carry tb nn ha hb,
    qPair_of_first_larger tb nn ha hb, qPair_of_second_larger tb nn ha hb,
    fun hcarry htie => ⟨?_, ?_, ?_⟩⟩, fun P q G hP => ?_⟩
  · exact qPair_of_tie .neighbour nn ha hb hcarry htie
  · exact qPair_of_tie .first nn ha hb hcarry htie
  · rw [qPair_of_tie tb na ha hb hcarry htie, tieBreak_self]
  · simp only [quantize, numerator_eq hP, clampComponent_eq hP]

end Sys2Proof.Machine

/-! PROOFS. The symbol tables and their lookups (43_lookup.md R150 to R157): what a configuration that
keeps R153 has, what a lookup finds in it, and which configurations boot. -/

namespace Sys2Proof.Machine

open Sys2Proof

/-! ### What a lookup returns -/

/-- A list search by a key that appears once finds an entry's value iff the list holds the entry. -/
theorem find?_map_eq_some_iff_mem {α β γ : Type} [BEq β] [LawfulBEq β] (key : α → β) (val : α → γ)
    {l : List α} (h : (l.map key).Nodup) {k : β} {v : γ} {e : α}
    (he : ∀ a, key a = k ∧ val a = v ↔ a = e) :
    (l.find? fun a => key a == k).map val = some v ↔ e ∈ l := by
  simp only [Option.map_eq_some_iff, find?_key_iff key l h, and_assoc, he, exists_eq_right]

section Lookups
variable {P : Params}

theorem lookupLeft_eq_some_iff (h : (P.tableLG.map (·.code)).Nodup) (pc : Nat) (d : Digit)
    (l : ParityLetter) : lookupLeft P pc = some (d, l) ↔ ⟨pc, d, l⟩ ∈ P.tableLG :=
  find?_map_eq_some_iff_mem LeftEntry.code (fun e => (e.digit, e.letter)) h (by rintro ⟨⟩; simp)

theorem lookupRight_eq_some_iff (h : (P.tableR.map (·.code)).Nodup) (pc : Nat) (d : Digit) :
    lookupRight P pc = some d ↔ ⟨pc, d⟩ ∈ P.tableR :=
  find?_map_eq_some_iff_mem RightEntry.code RightEntry.digit h (by rintro ⟨⟩; simp)

theorem lookupParity_eq_some_iff (h : (P.tablePar.map (·.word)).Nodup) (w : ParityWord) (d : Digit) :
    lookupParity P w = some d ↔ ⟨w, d⟩ ∈ P.tablePar :=
  find?_map_eq_some_iff_mem ParityEntry.word ParityEntry.digit h (by rintro ⟨⟩; simp)

/-- A code is ABSENT iff it is not a key (43_lookup.md R155). -/
theorem lookupLeft_eq_none_iff (pc : Nat) :
    lookupLeft P pc = none ↔ pc ∉ P.tableLG.map (·.code) := by
  simp [lookupLeft]

theorem lookupRight_eq_none_iff (pc : Nat) :
    lookupRight P pc = none ↔ pc ∉ P.tableR.map (·.code) := by
  simp [lookupRight]

theorem lookupParity_eq_none_iff (w : ParityWord) :
    lookupParity P w = none ↔ w ∉ P.tablePar.map (·.word) := by
  simp [lookupParity]

/-- A code that is found on either side is a pattern key. -/
theorem mem_patternKeys_of_found {pc : Nat}
    (h : lookupLeft P pc ≠ none ∨ lookupRight P pc ≠ none) : pc ∈ P.patternKeys := by
  rw [Ne, Ne, lookupLeft_eq_none_iff, lookupRight_eq_none_iff, not_not, not_not] at h
  exact List.mem_append.mpr h

end Lookups

/-! ### The four properties of R153 -/

theorem keyComponentsOk_iff (code : Nat) :
    keyComponentsOk code = true ↔ ∀ c ∈ codeComponents code, 1 ≤ c ∧ c ≤ 4 := by
  simp [keyComponentsOk]

theorem codeComponents_sum (code : Nat) : (codeComponents code).sum =
    code / 1000 + code / 100 % 10 + code / 10 % 10 + code % 10 := by
  simp [codeComponents, add_assoc]

theorem keySumOk_iff (code : Nat) :
    keySumOk code = true ↔ code / 1000 + code / 100 % 10 + code / 10 % 10 + code % 10 = 7 := by
  rw [keySumOk, beq_iff_eq, codeComponents_sum]

/-- 43_lookup.md R153, spelled out. -/
theorem tablesOk_iff {P : Params} : P.tablesOk = true ↔
    (∀ key ∈ P.patternKeys, ∀ c ∈ codeComponents key, 1 ≤ c ∧ c ≤ 4) ∧
    (∀ key ∈ P.patternKeys, key / 1000 + key / 100 % 10 + key / 10 % 10 + key % 10 = 7) ∧
    (P.tableLG.map (·.code)).Nodup ∧ (P.tableR.map (·.code)).Nodup ∧
    (P.tablePar.map (·.word)).Nodup := by
  simp only [Params.tablesOk, Params.leftKeysDistinct, Params.rightKeysDistinct,
    Params.parityKeysDistinct, Bool.and_eq_true, List.all_eq_true, decide_eq_true_iff,
    keyComponentsOk_iff, keySumOk_iff, and_assoc]

/-- Settles O45: under R153 no key appears twice, so each lookup finds exactly the entries of its table;
the examples are evaluated. -/
theorem lookupsReturnTheTableEntry : Obligations.LookupsReturnTheTableEntry := by
  refine ⟨fun P hP => ?_, by decide⟩
  obtain ⟨-, -, hleft, hright, hparity⟩ := tablesOk_iff.mp hP
  exact ⟨lookupLeft_eq_some_iff hleft, lookupRight_eq_some_iff hright,
    lookupParity_eq_some_iff hparity⟩

/-! ### The components of a found code -/

/-- Components below 10 are read back from the code they compose (30_encoding.md R80). -/
theorem codeComponents_patternCode {c : Components} (h1 : c.c1 < 10) (h2 : c.c2 < 10)
    (h3 : c.c3 < 10) : codeComponents (patternCode c) = [c.c0, c.c1, c.c2, c.c3] := by
  simp only [codeComponents, patternCode, List.cons.injEq, and_true]
  omega

/-- Settles O47: a found code is a key, and R153 bounds the components and the sum of a key. -/
theorem foundCodesHaveSevenModules : Obligations.FoundCodesHaveSevenModules := by
  intro P c hP _ h1 h2 h3 hfound
  have hkey := mem_patternKeys_of_found hfound
  have hread : codeComponents (patternCode c) = [c.c0, c.c1, c.c2, c.c3] :=
    codeComponents_patternCode (by omega) (by omega) (by omega)
  obtain ⟨hcomponents, hsums, -⟩ := tablesOk_iff.mp hP
  have hpos := hcomponents _ hkey
  have hsum := hsums _ hkey
  rw [hread] at hpos
  rw [← codeComponents_sum, hread] at hsum
  simp only [List.forall_mem_cons] at hpos
  obtain ⟨⟨hp0, -⟩, ⟨hp1, -⟩, ⟨hp2, -⟩, ⟨hp3, -⟩, -⟩ := hpos
  exact ⟨hp0, hp1, hp2, hp3, by simpa [add_assoc] using hsum⟩

/-! ### Booting -/

theorem inResetState_resetWith (P : Params) : InResetState (State.resetWith P) := ⟨rfl, rfl, rfl, rfl⟩

section Boot
variable {P : Params}

theorem boot_of_not_tablesOk (h : P.tablesOk = false) : boot P = .refused .illFormedTables := by
  rw [boot, h]
  rfl

theorem boot_of_not_listed (h : P.tablesOk = true) (hl : P.listed = false) :
    boot P = .refused .unlistedParameters := by
  rw [boot, h, hl]
  rfl

theorem boot_of_wf (h : P.tablesOk = true) (hl : P.listed = true) :
    boot P = .next (State.resetWith P) := by
  rw [boot, h, hl]
  rfl

end Boot

/-- Settles O4: `tablesOk_iff` and `listed_iff` spell out the two tests of `boot`. -/
theorem bootRefusesIllFormedTables : Obligations.BootRefusesIllFormedTables := by
  intro P
  refine ⟨fun hbroken => ?_, fun hcomponents hsums hleft hothers => ?_, wf_hardware⟩
  · exact boot_of_not_tablesOk (Bool.eq_false_iff.mpr fun hok => hbroken (tablesOk_iff.mp hok))
  · have hok : P.tablesOk = true := tablesOk_iff.mpr ⟨hcomponents, hsums, hleft, hothers⟩
    refine ⟨fun hl => ?_, fun hl => ?_⟩
    · exact boot_of_not_listed hok (Bool.eq_false_iff.mpr fun h => hl (listed_iff.mp h))
    · exact ⟨_, boot_of_wf hok (listed_iff.mpr hl), inResetState_resetWith P, rfl,
        wf_iff.mpr ⟨listed_iff.mpr hl, hok⟩⟩

/-! ### The default tables in full -/

/-- Settles O46: the entries are evaluated, and a code or word that is no key is absent. -/
theorem defaultTablesInFull : Obligations.DefaultTablesInFull := by
  refine ⟨by decide, fun pc hL hG => ?_, fun pc hL => ?_, fun w hw => ?_⟩
  · exact (lookupLeft_eq_none_iff pc).mpr (List.mem_append.not.mpr (not_or.mpr ⟨hL, hG⟩))
  · exact (lookupRight_eq_none_iff pc).mpr hL
  · exact (lookupParity_eq_none_iff w).mpr hw

end Sys2Proof.Machine

/-! PROOFS. The checksum (44_checksum.md R170 to R176): its weights and bound, the check digit, and the
numbers that a run reports. -/

namespace Sys2Proof.Machine

open Sys2Proof

/-! ### The sum and its weights -/

/-- 44_checksum.md R171: the sum, position by position. -/
theorem checksum_eq (d : DigitWord) :
    checksum d = (d[0].val + d[2].val + d[4].val + d[6].val + d[8].val + d[10].val + d[12].val) +
      3 * (d[1].val + d[3].val + d[5].val + d[7].val + d[9].val + d[11].val) := by
  rw [checksum, digits_toList]
  simp only [weightedSum, checksumWeight, Nat.reduceAdd, Nat.reduceMod, one_ne_zero, ↓reduceIte]
  omega

theorem checksumValid_iff (d : DigitWord) : checksumValid d = true ↔ checksum d % 10 = 0 :=
  beq_iff_eq

/-- Settles O48: each of the digits is at most 9 (`checksum_eq`). -/
theorem checksumIsBounded : Obligations.ChecksumIsBounded := by
  intro d
  have hsum := checksum_eq d
  have hbound : checksum d ≤ 7 * 9 + 6 * 3 * 9 := by omega
  exact ⟨hsum, hbound, rfl, by omega⟩

/-! ### One digit changed -/

/-- Changing one digit of a weighted sum exchanges its term. -/
theorem weightedSum_set (w : Nat → Nat) (ds : List Digit) (k i : Nat) (x : Digit)
    (h : i < ds.length) :
    weightedSum w k (ds.set i x) + w (k + i) * ds[i].val =
      weightedSum w k ds + w (k + i) * x.val := by
  induction ds generalizing k i with
  | nil => simp at h
  | cons d ds ih =>
    cases i with
    | zero =>
      simp only [List.set_cons_zero, List.getElem_cons_zero, weightedSum, Nat.add_zero]
      omega
    | succ i =>
      have hrest := ih (k + 1) i (Nat.lt_of_succ_lt_succ h)
      rw [Nat.add_right_comm] at hrest
      simp only [List.set_cons_succ, List.getElem_cons_succ, weightedSum, ← Nat.add_assoc]
      omega

theorem checksum_set (d : DigitWord) (i : Fin 13) (x : Digit) :
    checksum (d.set i x) + checksumWeight i * d[i].val = checksum d + checksumWeight i * x.val := by
  have h := weightedSum_set checksumWeight d.toList 0 i x (by simp)
  simpa [checksum, Vector.toList_set] using h

/-- Position 12 has weight 1: the check digit adds itself to the sum of the others. -/
theorem checksum_set_checkDigit (d : DigitWord) (x : Digit) :
    checksum (d.set 12 x) = checksum (d.set 12 0) + x.val := by
  have h := checksum_set (d.set 12 0) 12 x
  simpa [checksumWeight] using h

/-- 1 and 3 are units modulo 10, so a term determines its digit. -/
theorem digit_eq_of_term_mod_ten (i : Nat) {x y : Digit}
    (h : checksumWeight i * x.val % 10 = checksumWeight i * y.val % 10) : x = y := by
  apply Fin.ext
  unfold checksumWeight at h
  split at h <;> omega

/-- Two valid numbers that differ at most in one digit are equal in it. -/
theorem eq_of_checksumValid_set {d : DigitWord} {i : Fin 13} {x : Digit}
    (hd : checksumValid d = true) (hx : checksumValid (d.set i x) = true) : x = d[i] := by
  rw [checksumValid_iff] at hd hx
  have h := checksum_set d i x
  exact digit_eq_of_term_mod_ten i (by omega)

/-- Settles O49: the check digit completes the sum of the others to a multiple of 10
(`checksum_set_checkDigit`), and a wrong digit's term differs modulo 10 (`eq_of_checksumValid_set`). -/
theorem checkDigitIsUniqueAndDetectsErrors : Obligations.CheckDigitIsUniqueAndDetectsErrors := by
  intro d
  refine ⟨fun x => ?_, fun hd i x hne => ?_, by decide⟩
  · rw [checksumValid_iff, checksum_set_checkDigit]
    omega
  · exact Bool.eq_false_iff.mpr fun hx => hne (eq_of_checksumValid_set hd hx)

/-! ### The numbers a run reports -/

/-- A stream of commands from the reset state's contents ends in the invariant, its configuration
unchanged. -/
theorem inv_of_commitAll {cs : List Instr} {s t : State} (hb : Built s) (hreset : InResetState s)
    (h : commitAll cs s = .next t) : Inv t ∧ t.config = s.config := by
  have hinv := commitsOf_inv cs (inv_of_inResetState hb hreset)
  obtain ⟨-, -, -, hl⟩ := hreset
  obtain ⟨-, -, hconfig, -⟩ := commitsOf_keeps cs s
  rw [commitAll_next cs s hl] at h
  obtain rfl := Host.Outcome.next.inj h
  exact ⟨hinv, hconfig⟩

/-- Settles O32: the invariant says it of every decoded number, for the configuration that the stream
began with. -/
theorem decodedNumbersAreValid : Obligations.DecodedNumbersAreValid := by
  intro cs s t hb hreset h hdecoded
  obtain ⟨⟨-, -, -, ⟨-, -, hnumber⟩, -⟩, hconfig⟩ := inv_of_commitAll hb hreset h
  obtain ⟨hvalid, hlead⟩ := hnumber hdecoded
  exact ⟨(checksumValid_iff _).mp hvalid, hconfig ▸ hlead⟩

end Sys2Proof.Machine

/-! PROOFS. The row driver (45_row_driver.md R182 to R188): a frame that is done, a row of any length, and
the rows of a frame. -/

namespace Sys2Proof.Machine

open Sys2Proof

/-! ### After FRAME_DONE -/

section Done

variable {s : State}

/-- Of the branches of a command, FRAME_DONE leaves the protocol error and SOF. -/
theorem CommitEffect.eq_protocolError {i : Instr} {t : State} (h : CommitEffect i s t)
    (hdone : s.frame.frameDone = true) (hi : i ≠ .sof) : t = Machine.protocolError s := by
  have hopen : s.frame.frameDone ≠ false := by simp [hdone]
  cases h with
  | protocolError => rfl
  | discard _ hf => exact absurd hf hopen
  | overflow _ _ hf => exact absurd hf hopen
  | pixel _ _ hf => exact absurd hf hopen
  | endLine _ he => exact absurd he.1 hopen
  | endFrame _ he => exact absurd he.1 hopen
  | closeFrame _ hf => exact absurd hf hopen
  | startFrame hsof => exact absurd hsof hi

theorem commitOf_of_frameDone {i : Instr} (hdone : s.frame.frameDone = true) (hi : i ≠ .sof) :
    commitOf i s = protocolError s :=
  (commitOf_effect i s).eq_protocolError hdone hi

/-- A second protocol error finds CMD_ERR set. -/
theorem commitsOf_protocolError {cs : List Instr} (hdone : s.frame.frameDone = true)
    (hcs : ∀ c ∈ cs, c ≠ .sof) : commitsOf cs (protocolError s) = protocolError s := by
  induction cs with
  | nil => rfl
  | cons c cs ih =>
    obtain ⟨hc, hcs⟩ := List.forall_mem_cons.mp hcs
    rw [commitsOf_cons, commitOf_of_frameDone (s := protocolError s) hdone hc]
    exact ih hcs

theorem commitOf_eof_of_open (hf : s.frame.frameDone = false) :
    commitOf .eof s = closeFrame (evaluateOpenRow s) := by
  simp [commitOf, eofCommit, hf]

theorem evaluateOpenRow_cmdErr : (evaluateOpenRow s).frame.cmdErr = s.frame.cmdErr := by
  rw [evaluateOpenRow]
  split
  · exact record_cmdErr _ _ _
  · rfl

end Done

/-- Settles O20: the first command sets CMD_ERR (`commitOf_of_frameDone`) and the others find it set
(`commitsOf_protocolError`). -/
theorem notDecodedIsPermanent : Obligations.NotDecodedIsPermanent := by
  refine ⟨fun cs s hl hnot hne hcs => ?_, fun s t hf h _ => ?_⟩
  · obtain ⟨hdone, -⟩ := hnot
    obtain ⟨c, cs, rfl⟩ := List.exists_cons_of_ne_nil hne
    obtain ⟨hc, hcs⟩ := List.forall_mem_cons.mp hcs
    rw [commitAll_next _ s hl, commitsOf_cons, commitOf_of_frameDone hdone hc,
      commitsOf_protocolError hdone hcs]
    rfl
  · obtain ⟨-, rfl⟩ := exec_eq_next h
    rw [commitOf_eof_of_open hf]
    exact evaluateOpenRow_cmdErr

/-! ### A row of any length -/

/-- An open, undecoded frame at a row's start. -/
structure AtRowStart (s : State) : Prop where
  notDone : s.frame.frameDone = false
  undecoded : s.frame.decoded = false
  clear : s.row = RowState.reset

/-- A pixel on the row state of an open, undecoded frame (46_commands.md R201). -/
def pixelStep (P : Params) (r : RowState) (p : Colour) : RowState :=
  if r.col.toNat = wMax then r.setOvf else segStep P p r.countPixel

/-- The outcome of a scanline sent from a row's start, whether or not it stays within WMAX. -/
def lineOutcome (P : Params) (row : List Colour) : RowOutcome :=
  rowOutcome P (row.foldl (pixelStep P) RowState.reset)

theorem lineOutcome_congr {P Q : Params} (h : SameButLatency P Q) (row : List Colour) :
    lineOutcome Q row = lineOutcome P row := by
  rw [show Q = { P with evalLatency := Q.evalLatency } from h]
  rfl

theorem commitsOf_pixels_of_open {s : State} (row : List Colour) (hP : s.config.listed = true)
    (hf : s.frame.frameDone = false) (hd : s.frame.decoded = false) :
    commitsOf (pixelCommands s.config row) s =
      { s with row := row.foldl (pixelStep s.config) s.row } := by
  induction row generalizing s with
  | nil => rfl
  | cons p row ih =>
    have hpixel : pixCommit p s = { s with row := pixelStep s.config s.row p } := by
      rw [pixCommit_of_open p hf hd, pixelStep]
      split <;> rfl
    rw [pixelCommands, List.map_cons, commitsOf_cons, commitOf_pixelCommand s hP, hpixel]
    exact ih (s := { s with row := pixelStep s.config s.row p }) hP hf hd

theorem commitsOf_line {s : State} (row : List Colour) (hP : s.config.listed = true)
    (hs : AtRowStart s) :
    commitsOf (rowCommands s.config row) s =
      { s with frame := s.frame.record s.config (lineOutcome s.config row) } := by
  obtain ⟨hf, hd, hr⟩ := hs
  rw [rowCommands, commitsOf_append, commitsOf_pixels_of_open row hP hf hd]
  simp [commitOf, eolCommit, hf, hd, evaluate, rowClear, lineOutcome, hr]

/-- The record of a row writes DIGITS and PARITY from the row's outcome, or leaves them. -/
theorem record_number_congr (P Q : Params) {f g : FrameState} (o : RowOutcome)
    (hdigits : f.digits = g.digits) (hparity : f.parity = g.parity) :
    (f.record P o).digits = (g.record Q o).digits ∧ (f.record P o).parity = (g.record Q o).parity := by
  cases o with
  | ok d p => exact ⟨rfl, rfl⟩
  | fail c => exact ⟨hdigits, hparity⟩

theorem commitAll_eq_next {cs : List Instr} {s t : State} (h : commitAll cs s = .next t) :
    t = commitsOf cs s := by
  induction cs generalizing s with
  | nil => exact (Host.Outcome.next.inj h).symm
  | cons c cs ih =>
    rw [commitAll] at h
    split at h
    case h_1 u hu =>
      obtain ⟨-, rfl⟩ := exec_eq_next hu
      exact ih h
    all_goals simp at h

/-- Settles O58: a stream by `commitsOf_congr`; a row records its `lineOutcome`, which depends on the pixels
and the parameters alone, over a DIGITS and a PARITY that are 0 in every undecoded frame. -/
theorem sameStreamSameResult : Obligations.SameStreamSameResult := by
  refine ⟨fun cs s1 s2 t1 t2 hc hf hr h1 h2 => ?_, fun row s1 s2 hc hs => ?_⟩
  · rw [commitAll_eq_next h1, commitAll_eq_next h2]
    exact commitsOf_congr cs s1 s2 hc hf hr
  · have hline : ∀ s ∈ [s1, s2],
        commitAll (rowCommands s.config row) s =
          .next { s with frame := s.frame.record s.config (lineOutcome s.config row) } ∧
        s.frame.digits = Vector.replicate 13 0 ∧ s.frame.parity = 0#6 := by
      intro s hmem
      obtain ⟨hinv, hl, hf, hd, hr⟩ := hs s hmem
      obtain ⟨hb, -, ⟨-, hund, -⟩, -, -⟩ := (inv_iff s).mp hinv
      rw [commitAll_next _ s hl, commitsOf_line row (wf_iff.mp hb).1 ⟨hf, hd, hr⟩]
      exact ⟨rfl, hund hd⟩
    obtain ⟨h1, hdigits1, hparity1⟩ := hline s1 (by simp)
    obtain ⟨h2, hdigits2, hparity2⟩ := hline s2 (by simp)
    refine ⟨_, _, h1, h2, ?_⟩
    rw [lineOutcome_congr hc]
    refine ⟨?_, record_number_congr _ _ _ (hdigits1.trans hdigits2.symm)
      (hparity1.trans hparity2.symm)⟩
    rw [record_rowStatus, record_rowStatus]

/-! ### DecodeFrame by its first decoding row -/

/-- No row of the list decodes. -/
def AllFail (P : Params) (rows : List (List Colour)) : Prop :=
  ∀ row ∈ rows, ∃ c, decodeRow P row = .fail c

section DecodeFrame

variable {P : Params}

theorem decodeFrameFrom_of_allFail {rows : List (List Colour)} (h : AllFail P rows) (k : Nat) :
    decodeFrameFrom P k rows = none := by
  induction rows generalizing k with
  | nil => rfl
  | cons row rows ih =>
    obtain ⟨⟨c, hc⟩, hrows⟩ := List.forall_mem_cons.mp h
    simp only [decodeFrameFrom, hc, ih hrows]

theorem decodeFrameFrom_of_first {before : List (List Colour)} (h : AllFail P before)
    {row : List Colour} {d : DigitWord} {p : ParityWord} (hrow : decodeRow P row = .ok d p)
    (after : List (List Colour)) (k : Nat) :
    decodeFrameFrom P k (before ++ row :: after) = some ⟨d, p, k + before.length⟩ := by
  induction before generalizing k with
  | nil => simp [decodeFrameFrom, hrow]
  | cons row' before ih =>
    obtain ⟨⟨c, hc⟩, hbefore⟩ := List.forall_mem_cons.mp h
    simp only [List.cons_append, decodeFrameFrom, hc, ih hbefore, List.length_cons]
    rw [Nat.add_assoc, Nat.add_comm 1]

/-- Either every row fails, or the rows split at the first one that decodes. -/
theorem allFail_or_first (P : Params) (rows : List (List Colour)) :
    AllFail P rows ∨ ∃ before row after d p,
      rows = before ++ row :: after ∧ AllFail P before ∧ decodeRow P row = .ok d p := by
  induction rows with
  | nil => exact .inl (by simp [AllFail])
  | cons row rows ih =>
    cases hrow : decodeRow P row with
    | ok d p => exact .inr ⟨[], row, rows, d, p, rfl, by simp [AllFail], hrow⟩
    | fail c =>
      rcases ih with hall | ⟨before, row', after, d, p, rfl, hbefore, hrow'⟩
      · exact .inl (List.forall_mem_cons.mpr ⟨⟨c, hrow⟩, hall⟩)
      · exact .inr ⟨row :: before, row', after, d, p, rfl,
          List.forall_mem_cons.mpr ⟨⟨c, hrow⟩, hbefore⟩, hrow'⟩

end DecodeFrame

/-! ### The rows of a frame in the block -/

/-- The records of rows that are all evaluated, one after another. -/
def recordAll (P : Params) (rows : List (List Colour)) (f : FrameState) : FrameState :=
  rows.foldl (fun f row => f.record P (decodeRow P row)) f

section RecordAll

variable {P : Params} {rows : List (List Colour)} (f : FrameState)

theorem recordAll_frameDone : (recordAll P rows f).frameDone = f.frameDone := by
  induction rows generalizing f with
  | nil => rfl
  | cons row rows ih => exact (ih _).trans (record_frameDone P f _)

theorem recordAll_rowCount (hP : P.listed = true) :
    (recordAll P rows f).rowCount.toNat = min (f.rowCount.toNat + rows.length) 65535 := by
  induction rows generalizing f with
  | nil =>
    have hlt : f.rowCount.toNat < 65536 := f.rowCount.isLt
    simp only [recordAll, List.foldl_nil, List.length_nil]
    omega
  | cons row rows ih =>
    refine (ih _).trans ?_
    rw [record_rowCount, nextRowCount_toNat hP, List.length_cons]
    omega

theorem recordAll_rowStatus_concat (row : List Colour) :
    (recordAll P (rows ++ [row]) f).rowStatus = (decodeRow P row).status := by
  rw [recordAll, List.foldl_append]
  exact record_rowStatus P _ _

/-- Failing rows leave the results at what they were. -/
theorem recordAll_of_allFail (h : AllFail P rows) :
    (recordAll P rows f).decoded = f.decoded ∧ (recordAll P rows f).digits = f.digits ∧
      (recordAll P rows f).parity = f.parity := by
  induction rows generalizing f with
  | nil => exact ⟨rfl, rfl, rfl⟩
  | cons row rows ih =>
    obtain ⟨⟨c, hc⟩, hrows⟩ := List.forall_mem_cons.mp h
    have hrest := ih (f.record P (decodeRow P row)) hrows
    rw [hc] at hrest
    rwa [recordAll, List.foldl_cons, hc]

end RecordAll

section Frame

variable {s : State} {rows before after : List (List Colour)} {row : List Colour}

theorem atRowStart_recordAll (hs : AtRowStart s) (h : AllFail s.config rows) :
    AtRowStart { s with frame := recordAll s.config rows s.frame } := by
  obtain ⟨hf, hd, hr⟩ := hs
  obtain ⟨hdecoded, -, -⟩ := recordAll_of_allFail s.frame h
  exact ⟨(recordAll_frameDone _).trans hf, hdecoded.trans hd, hr⟩

/-- At a row's start EOF has no row to evaluate. -/
theorem commitOf_eof_of_clear (hf : s.frame.frameDone = false) (hr : s.row = RowState.reset) :
    commitOf .eof s = closeFrame s := by
  rw [commitOf_eof_of_open hf]
  simp [evaluateOpenRow, RowState.isOpen, hr]

/-- As long as no row decodes, every row is evaluated. -/
theorem commitsOf_rows_of_allFail (hP : s.config.listed = true) (hs : AtRowStart s)
    (hlen : ∀ row ∈ rows, row.length ≤ 65535) (h : AllFail s.config rows) :
    commitsOf (rows.flatMap (rowCommands s.config)) s =
      { s with frame := recordAll s.config rows s.frame } := by
  induction rows generalizing s with
  | nil => rfl
  | cons row rows ih =>
    obtain ⟨hrow, hrows⟩ := List.forall_mem_cons.mp hlen
    obtain ⟨hfirst, hrest⟩ := List.forall_mem_cons.mp h
    have hs' : AtRowStart { s with frame := s.frame.record s.config (decodeRow s.config row) } :=
      atRowStart_recordAll (rows := [row]) hs (List.forall_mem_singleton.mpr hfirst)
    rw [List.flatMap_cons, commitsOf_append,
      commitsOf_row row s hP hs.notDone hs.undecoded hs.clear hrow]
    exact ih (s := { s with frame := s.frame.record s.config (decodeRow s.config row) })
      hP hs' hrows hrest

theorem commitsOf_rows_of_decoded (hP : s.config.listed = true) (hf : s.frame.frameDone = false)
    (hd : s.frame.decoded = true) : commitsOf (rows.flatMap (rowCommands s.config)) s = s := by
  induction rows with
  | nil => rfl
  | cons row rows ih =>
    rw [List.flatMap_cons, commitsOf_append, commitsOf_row_decoded row s hP hf hd, ih]

/-- A frame in which no row decodes. -/
theorem commitsOf_frame_of_allFail (hP : s.config.listed = true) (hs : AtRowStart s)
    (hlen : ∀ row ∈ rows, row.length ≤ 65535) (h : AllFail s.config rows) :
    commitsOf (frameCommands s.config rows) s =
      closeFrame { s with frame := recordAll s.config rows s.frame } := by
  rw [frameCommands, commitsOf_append, commitsOf_rows_of_allFail hP hs hlen h]
  obtain ⟨hf, -, hr⟩ := atRowStart_recordAll hs h
  exact commitOf_eof_of_clear hf hr

/-- From a row that decodes on, the block keeps its number and ignores the later rows. -/
theorem commitsOf_rows_of_ok (hP : s.config.listed = true) (hs : AtRowStart s)
    (hlen : row.length ≤ 65535) {d : DigitWord} {p : ParityWord}
    (hrow : decodeRow s.config row = .ok d p) :
    commitsOf ((row :: after).flatMap (rowCommands s.config)) s =
      { s with frame := s.frame.record s.config (.ok d p) } := by
  obtain ⟨hf, hd, hr⟩ := hs
  rw [List.flatMap_cons, commitsOf_append, commitsOf_row row s hP hf hd hr hlen, hrow]
  exact commitsOf_rows_of_decoded (s := { s with frame := s.frame.record s.config (.ok d p) }) hP hf rfl

/-- A frame whose first decoding row comes after failing ones. -/
theorem commitsOf_frame_of_first (hP : s.config.listed = true) (hs : AtRowStart s)
    (hlen : ∀ r ∈ before ++ row :: after, r.length ≤ 65535) (h : AllFail s.config before)
    {d : DigitWord} {p : ParityWord} (hrow : decodeRow s.config row = .ok d p) :
    commitsOf (frameCommands s.config (before ++ row :: after)) s =
      closeFrame { s with
        frame := (recordAll s.config before s.frame).record s.config (.ok d p) } := by
  obtain ⟨hbefore, hlen⟩ := List.forall_mem_append.mp hlen
  obtain ⟨hrowLen, -⟩ := List.forall_mem_cons.mp hlen
  have hs' := atRowStart_recordAll hs h
  rw [frameCommands, List.flatMap_append, commitsOf_append, commitsOf_append,
    commitsOf_rows_of_allFail hP hs hbefore h,
    commitsOf_rows_of_ok (s := { s with frame := recordAll s.config before s.frame }) hP hs' hrowLen
      hrow]
  exact commitOf_eof_of_clear hs'.notDone hs'.clear

end Frame

theorem atRowStart_of_inResetState {s : State} (h : InResetState s) : AtRowStart s := by
  obtain ⟨hf, hr, -, -⟩ := h
  exact ⟨by rw [hf]; rfl, by rw [hf]; rfl, hr⟩

/-- Settles O57: DecodeFrame stops at the first row that decodes (`decodeFrameFrom_of_first`), and so does
the block (`commitsOf_frame_of_first`). -/
theorem rowIndependence : Obligations.RowIndependence := by
  intro before after row d p s hb hreset hlen hbefore hrow
  have hP := (wf_iff.mp hb).1
  have hcommits := commitsOf_frame_of_first hP (atRowStart_of_inResetState hreset) hlen hbefore hrow
  obtain ⟨hf, -, -, hl⟩ := hreset
  refine ⟨?_, _, commitAll_next _ s hl, ?_⟩
  · rw [decodeFrame, decodeFrameFrom_of_first hbefore hrow, Nat.zero_add]
  · rw [hcommits]
    refine ⟨rfl, rfl, rfl, ?_⟩
    rw [closeFrame, rowClear_frame, setFrameDone_rowCount, record_rowCount, nextRowCount_toNat hP,
      recordAll_rowCount _ hP, hf, frameReset_rowCount]
    simp only [BitVec.toNat_ofNat]
    omega

/-- Settles O56: where a row decodes, `rowIndependence` for the split at the first one; where none does,
every row is recorded as a failure (`commitsOf_frame_of_allFail`). -/
theorem blockComputesDecodeFrame : Obligations.BlockComputesDecodeFrame := by
  intro rows s hb hreset hlen
  rcases allFail_or_first s.config rows with hall | ⟨before, row, after, d, p, rfl, hbefore, hrow⟩
  · have hP := (wf_iff.mp hb).1
    have hnone : decodeFrame s.config rows = none := decodeFrameFrom_of_allFail hall 0
    have hcommits := commitsOf_frame_of_allFail hP (atRowStart_of_inResetState hreset) hlen hall
    obtain ⟨hf, -, -, hl⟩ := hreset
    obtain ⟨hdecoded, hdigits, hparity⟩ := recordAll_of_allFail s.frame hall
    rw [hf] at hdecoded hdigits hparity hcommits
    refine ⟨_, commitAll_next _ s hl, ?_⟩
    rw [hcommits, hnone]
    refine ⟨?_, by simp, fun _ => ⟨?_, ?_, ?_, hdigits, hparity⟩⟩
    · simp [closeFrame, hdecoded]
    · rw [closeFrame, rowClear_frame, setFrameDone_rowCount, recordAll_rowCount _ hP]
      simp
    · rintro rfl
      rfl
    · intro row hlast c hc
      obtain ⟨rows, rfl⟩ := List.getLast?_eq_some_iff.mp hlast
      rw [closeFrame, rowClear_frame, setFrameDone_rowStatus, recordAll_rowStatus_concat, hc]
      rfl
  · obtain ⟨hframe, t, ht, hdecoded, hdigits, hparity, hcount⟩ :=
      rowIndependence before after row d p s hb hreset hlen hbefore hrow
    rw [hframe]
    refine ⟨t, ht, by simp [hdecoded], ?_, by simp⟩
    rintro r hr
    obtain rfl := Option.some.inj hr
    exact ⟨hdigits, hparity, hcount⟩

end Sys2Proof.Machine

/-! PROOFS. The commands (46_commands.md R200 to R210): the next state of each command in each condition,
the decoded frame, and the edges of an accepted command. -/

namespace Sys2Proof.Machine

open Sys2Proof

/-! ### The reserved words -/

theorem commitOf_reserved {i : Instr} (hi : i ∈ [Instr.rsv3, .rsv5, .rsv7]) :
    commitOf i = protocolError := by
  simp only [List.mem_cons, List.not_mem_nil, or_false] at hi
  rcases hi with rfl | rfl | rfl <;> rfl

/-- Settles O6: each reserved word is a protocol error in every state, and the examples are evaluated. -/
theorem reservedWordsSetOnlyCmdErr : Obligations.ReservedWordsSetOnlyCmdErr := by
  refine ⟨fun i hi s hl => ?_, rfl, rfl, rfl, ⟨_, rfl, by decide⟩, ⟨_, rfl, by decide⟩,
    ⟨_, rfl, by decide⟩⟩
  rw [exec_next i s hl, commitOf_reserved hi]
  rfl

/-! ### Pixels -/

section Pixel

variable {s : State}

theorem commitOf_pix0 (hP : s.config.listed = true) : commitOf .pix0 s = pixCommit .white s := by
  simp [commitOf, pixelColour_eq hP]

theorem commitOf_pix1 (hP : s.config.listed = true) : commitOf .pix1 s = pixCommit .black s := by
  simp [commitOf, pixelColour_eq hP]

theorem pixCommit_of_done (p : Colour) (hf : s.frame.frameDone = true) :
    pixCommit p s = protocolError s :=
  if_pos hf

theorem pixCommit_counted (p : Colour) (hf : s.frame.frameDone = false)
    (hd : s.frame.decoded = false) (hc : s.row.col.toNat ≠ 65535) :
    pixCommit p s = { s with row := segStep s.config p s.row.countPixel } := by
  rw [pixCommit_of_open p hf hd]
  exact if_neg hc

theorem pixCommit_overflow (p : Colour) (hf : s.frame.frameDone = false)
    (hd : s.frame.decoded = false) (hc : s.row.col.toNat = 65535) :
    pixCommit p s = { s with row := s.row.setOvf } := by
  rw [pixCommit_of_open p hf hd]
  exact if_pos hc

end Pixel

/-- Settles O7: each PIX commits a pixel of its colour, and one equation of `pixCommit` gives each
condition. -/
theorem pixelCommandsCommit : Obligations.PixelCommandsCommit := by
  intro i p s hl hP hi
  have hcommit : commitOf i s = pixCommit p s := by
    rcases hi with ⟨rfl, rfl⟩ | ⟨rfl, rfl⟩
    · exact commitOf_pix0 hP
    · exact commitOf_pix1 hP
  rw [exec_next i s hl, hcommit]
  refine ⟨fun hf => ?_, fun hf hd => ?_, fun hf hd hc => ?_, fun hf hd hc => ?_⟩
  · rw [pixCommit_of_done p hf]
    rfl
  · rw [pixCommit_decoded p s hf hd]
  · rw [pixCommit_overflow p hf hd hc]
    rfl
  · rw [pixCommit_counted p hf hd hc]
    rfl

section Segmenter

variable {P : Params} {r : RowState}

/-- The quiet zone: a white pixel does not begin the left guard (40_segmenter.md R108). -/
theorem segStep_white_of_locating (hst : r.stage = .lg) (hse : r.search = true) :
    segStep P .white r = r := by
  simp [segStep, startRun, hst, hse, Stage.start]

/-- A black pixel begins run 0 of the left guard. -/
theorem segStep_black_of_locating (hst : r.stage = .lg) (hse : r.search = true) :
    segStep P .black r =
      { r with search := false, cur := .black, k := 0#5, rb := bumpRun r.rb 0 } := by
  simp [segStep, startRun, hst, hse, Stage.start, Params.base]

theorem segStep_of_full (p : Colour) (hst : r.stage = .full) : segStep P p r = r := if_pos hst

/-- While locating in stage 0 every run is still 0 (10_state.md R36). -/
theorem rb_of_locating (hr : RowInv P r) (hst : r.stage = .lg) (hse : r.search = true) :
    r.rb = Vector.replicate 59 0#16 := by
  obtain ⟨hsearch, -, -⟩ := hr
  obtain ⟨-, hzero⟩ := hsearch hse
  apply Vector.ext
  intro i hi
  rw [hst] at hzero
  simpa using hzero ⟨i, hi⟩ (Nat.zero_le _)

end Segmenter

theorem bumpRun_cleared : bumpRun (Vector.replicate 59 0#16) 0 =
    (Vector.replicate 59 0#16).set 0 1#16 := by
  decide

/-- Settles O8: a counted pixel is a segmenter step, which in each of the three cases moves nothing or
begins the left guard in an RB that the invariant makes all 0. -/
theorem pixelCornerCases : Obligations.PixelCornerCases := by
  intro s hinv hl hf hd hc
  obtain ⟨hb, ⟨hrow, -⟩, -⟩ := (inv_iff s).mp hinv
  have hP := (wf_iff.mp hb).1
  have hpixel {i : Instr} {p : Colour} (hcommit : commitOf i s = pixCommit p s) :
      exec i s = .next { s with row := segStep s.config p s.row.countPixel } := by
    rw [exec_next i s hl, hcommit, pixCommit_counted p hf hd hc]
  refine ⟨fun hst hse => ⟨?_, ?_⟩, fun hst i hi => ?_⟩
  · rw [hpixel (commitOf_pix0 hP), segStep_white_of_locating (r := s.row.countPixel) hst hse]
    rfl
  · rw [hpixel (commitOf_pix1 hP), segStep_black_of_locating (r := s.row.countPixel) hst hse,
      countPixel_rb, rb_of_locating hrow hst hse, bumpRun_cleared]
    rfl
  · obtain ⟨d, rfl⟩ := (mem_pixels_iff i).mp hi
    rw [hpixel (commitOf_pixelInstr d s), segStep_of_full (r := s.row.countPixel) _ hst]
    rfl

/-! ### EOL and EOF -/

theorem nextRowCount_eq {P : Params} (hP : P.listed = true) (n : Count) :
    nextRowCount P n = BitVec.ofNat 16 (min (n.toNat + 1) 65535) := by
  obtain ⟨-, -, -, hbits, -⟩ := listed_iff.mp hP
  rw [nextRowCount, sat, hbits]
  rfl

section Evaluation

variable {s : State} (hP : s.config.listed = true)

include hP

theorem evaluate_of_ok {d : DigitWord} {p : ParityWord}
    (h : rowOutcome s.config s.row = .ok d p) :
    evaluate s = { s with
      frame := { s.frame with
        rowCount := BitVec.ofNat 16 (min (s.frame.rowCount.toNat + 1) 65535),
        rowStatus := .ok, decoded := true, digits := d, parity := p },
      row := RowState.reset } := by
  rw [evaluate, h, ← nextRowCount_eq hP]
  rfl

theorem evaluate_of_fail {c : RowFail} (h : rowOutcome s.config s.row = .fail c) :
    evaluate s = { s with
      frame := { s.frame with
        rowCount := BitVec.ofNat 16 (min (s.frame.rowCount.toNat + 1) 65535),
        rowStatus := c.status },
      row := RowState.reset } := by
  rw [evaluate, h, ← nextRowCount_eq hP]
  rfl

end Evaluation

/-- Settles O9: an evaluating EOL records the row's outcome and clears the row state. -/
theorem eolCommits : Obligations.EolCommits := by
  intro s hl hP
  rw [exec_next _ s hl]
  refine ⟨fun hf => ?_, fun hf hd => ?_, fun hf hd => ?_⟩
  · rw [commitOf_of_frameDone hf (by decide)]
    rfl
  · simp [commitOf, eolCommit, hf, hd]
  · have hcommit : commitOf .eol s = evaluate s := by simp [commitOf, eolCommit, hf, hd]
    rw [hcommit]
    exact ⟨fun d p h => by rw [evaluate_of_ok hP h], fun c h => by rw [evaluate_of_fail hP h]⟩

/-- Settles O11: an open undecoded row is evaluated as by EOL, any other row is not, and the frame is
closed. -/
theorem eofCommits : Obligations.EofCommits := by
  intro s hl hP
  rw [exec_next _ s hl]
  refine ⟨fun hf => ?_, fun hf hclosed => ?_, fun hf hd hc => ?_⟩
  · rw [commitOf_of_frameDone hf (by decide)]
    rfl
  · have hskip : evaluateOpenRow s = s := by
      rcases hclosed with h | h <;> simp [evaluateOpenRow, RowState.isOpen, h]
    rw [commitOf_eof_of_open hf, hskip]
    rfl
  · have hopen : evaluateOpenRow s = evaluate s := by
      simp [evaluateOpenRow, RowState.isOpen, hd, hc]
    rw [commitOf_eof_of_open hf, hopen]
    refine ⟨fun d p h => ?_, fun c h => ?_⟩
    · rw [evaluate_of_ok hP h]
      rfl
    · rw [evaluate_of_fail hP h]
      rfl

/-! ### After DECODED -/

theorem SameResults.trans {f g h : FrameState} (hfg : SameResults f g) (hgh : SameResults g h) :
    SameResults f h := by
  obtain ⟨hdec, hstatus, hcount, hdigits, hparity⟩ := hfg
  obtain ⟨hdec', hstatus', hcount', hdigits', hparity'⟩ := hgh
  exact ⟨hdec.trans hdec', hstatus.trans hstatus', hcount.trans hcount', hdigits.trans hdigits',
    hparity.trans hparity'⟩

/-- No row is evaluated in a decoded frame. -/
theorem not_evaluates_of_decoded {s : State} (hd : s.frame.decoded = true) (i : Instr) :
    ¬ Evaluates i s := fun he => absurd hd (by simp [he.undecoded])

theorem commitsOf_results_of_decoded {cs : List Instr} {s : State} (hd : s.frame.decoded = true)
    (hcs : ∀ c ∈ cs, c ≠ .sof) : SameResults (commitsOf cs s).frame s.frame := by
  induction cs generalizing s with
  | nil => exact .refl _
  | cons c cs ih =>
    obtain ⟨hc, hcs⟩ := List.forall_mem_cons.mp hcs
    have hfirst : SameResults (commitOf c s).frame s.frame :=
      (commitOf_effect c s).results_of_not_evaluates (not_evaluates_of_decoded hd c) hc
    have hd' : (commitOf c s).frame.decoded = true := hfirst.1.trans hd
    exact (ih hd' hcs).trans hfirst

/-- Addresses 1 to 5 show DIGITS and PARITY alone (10_state.md R43 to R46). -/
theorem regView_results_congr {s t : State} (h : SameResults t.frame s.frame) :
    ∀ a ∈ [1#3, 2#3, 3#3, 4#3, 5#3], regView t a = regView s a := by
  obtain ⟨-, -, -, hdigits, hparity⟩ := h
  simp [regView, bcdWord, valueWord, hdigits, hparity]

/-- Settles O19: in a decoded frame no command but SOF changes the results, so no stream without SOF
does. -/
theorem decodedResultIsFinal : Obligations.DecodedResultIsFinal := by
  intro cs s hl hd hcs
  have hresults := commitsOf_results_of_decoded hd hcs
  have hregs := regView_results_congr hresults
  obtain ⟨hdec, hstatus, hcount, hdigits, hparity⟩ := hresults
  exact ⟨_, commitAll_next cs s hl, hdec.trans hd, hdigits, hparity, hstatus, hcount, hregs⟩

/-! ### The edges of a command -/

theorem decode_of_decodeTableWord {n w : Nat} {i : Instr} (h : decodeTableWord n w = some i) :
    decode (BitVec.ofNat 3 w) = i := by
  unfold decodeTableWord decodeNat at h
  split at h
  case h_1 j hj =>
    split at hj
    · exact (Except.ok.inj hj).trans (Option.some.inj h)
    · simp at hj
  case h_2 => simp at h

/-- Settles O21: the two kinds of acceptance, `step_commit` and `step_accept_long`, and
`withFetchWord` presents a word at latency 0. -/
theorem stepRunsTheDecodedCommand : Obligations.StepRunsTheDecodedCommand := by
  refine ⟨fun s i ⟨hl, hp⟩ hr hv hi hc => ?_, fun s i ⟨hl, hp⟩ hr hv hi hc hL => ?_,
    fun s i n w hl hw => ?_⟩
  · subst hi
    rw [step_commit s hl hr hp hv hc]
    exact (exec_next _ (advanceHost s) hl).symm
  · subst hi
    exact step_accept_long s hl hr hp hv hc hL
  · obtain rfl := decode_of_decodeTableWord hw
    rw [step_commit (s.withFetchWord n w) hl rfl rfl rfl (.inr rfl)]
    exact (exec_next _ (advanceHost (s.withFetchWord n w)) hl).symm

/-- Settles O22: the three kinds of edge at which nothing is accepted. -/
theorem edgeIdlesOrCountsDown : Obligations.EdgeIdlesOrCountsDown := fun s hl hr =>
  ⟨fun hp hv => step_idle s hl hr hp hv, fun i n hp => step_countdown s i n hl hr hp,
    fun i hp => ⟨_, exec_next i (advanceHost s) hl, step_complete s i hl hr hp⟩⟩

/-- Where the host presents no reset at the next n edges, the edge after any k of them has none. -/
theorem headD_drop_rst {hs : List PortIn} {n k : Nat} (h : ∀ p ∈ hs.take n, p.rst = false)
    (hk : k < n) : ((hs.drop k).headD PortIn.idle).rst = false := by
  rw [List.headD_eq_head?_getD, List.head?_drop]
  cases hget : hs[k]? with
  | none => rfl
  | some p => exact h p (List.mem_of_getElem? ((List.getElem?_take_of_lt hk).trans hget))

section LongCommand

variable {s : State} {i : Instr} (hl : s.resetSeen = true)

include hl

theorem step_busy_countdown {n : Nat} {hs : List PortIn} (hr : (hs.headD PortIn.idle).rst = false) :
    step (withOthers s (some ⟨i, n + 1⟩) hs) = .next (withOthers s (some ⟨i, n⟩) hs.tail) :=
  step_countdown (withOthers s (some ⟨i, n + 1⟩) hs) i n hl hr rfl

theorem step_busy_complete {hs : List PortIn} (hr : (hs.headD PortIn.idle).rst = false) :
    step (withOthers s (some ⟨i, 0⟩) hs) = .next (withOthers (commitOf i s) none hs.tail) := by
  have hadvance : advanceHost (withOthers s (some ⟨i, 0⟩) hs) =
      withOthers s (some ⟨i, 0⟩) hs.tail := rfl
  rw [step_complete (withOthers s (some ⟨i, 0⟩) hs) i hl hr rfl, hadvance, commitOf_withOthers]
  rfl

variable (hp : s.pending = none) (hv : s.portIn.inValid = true) (hi : decode s.portIn.inCmd = i)
  (hrst : ∀ p ∈ s.host.take (s.config.evalLatency + 1), p.rst = false)

include hp hv hi hrst

/-- The busy window: edge after edge the count goes down, whatever the host presents. -/
theorem run_busy (hlong : isLong i = true) {k : Nat} (hk : k < s.config.evalLatency) :
    Host.Core.run Sys2Proof.core (k + 1) s =
      .next (withOthers s (some ⟨i, s.config.evalLatency - 1 - k⟩) (s.host.drop (k + 1))) := by
  induction k with
  | zero =>
    have hr : s.portIn.rst = false := headD_drop_rst (k := 0) hrst (Nat.succ_pos _)
    subst hi
    rw [run_snoc 0 s s (run_zero s), step_accept_long s hl hr hp hv hlong hk, List.drop_one]
    rfl
  | succ k ih =>
    have hdue : s.config.evalLatency - 1 - k = s.config.evalLatency - 1 - (k + 1) + 1 := by omega
    rw [run_snoc _ _ _ (ih (by omega)), hdue,
      step_busy_countdown hl (headD_drop_rst hrst (by omega)), List.tail_drop]
    rfl

/-- The edge after the busy window, which at latency 0 is the accepting one, commits the command. -/
theorem run_busy_commit (hlong : isLong i = true) :
    Host.Core.run Sys2Proof.core (s.config.evalLatency + 1) s =
      .next (withOthers (commitOf i s) none (s.host.drop (s.config.evalLatency + 1))) := by
  cases hL : s.config.evalLatency with
  | zero =>
    have hr : s.portIn.rst = false := headD_drop_rst (k := 0) hrst (Nat.succ_pos _)
    have hadvance : advanceHost s = withOthers s none (s.host.drop 1) := by
      rw [advanceHost_eq, withOthers, ← hp, List.drop_one]
    rw [run_snoc 0 s s (run_zero s), step_commit s hl hr hp hv (.inr hL), hi, hadvance,
      commitOf_withOthers]
    rfl
  | succ k =>
    have hbusy := run_busy hl hp hv hi hrst hlong (k := k) (by omega)
    have hdue : s.config.evalLatency - 1 - k = 0 := by omega
    rw [hdue] at hbusy
    rw [run_snoc _ _ _ hbusy, step_busy_complete hl (headD_drop_rst hrst (by omega)),
      List.tail_drop]
    rfl

end LongCommand

/-- Settles O23: the countdown by `run_busy`, the commit by `run_busy_commit`. -/
theorem longCommandCommitsAfterTheLatency : Obligations.LongCommandCommitsAfterTheLatency := by
  intro s i ⟨hl, hp⟩ hlong hv hi hrst
  refine ⟨fun k => run_busy hl hp hv hi hrst hlong, ?_⟩
  have hothers : { s with host := s.host.drop (s.config.evalLatency + 1) } =
      withOthers s none (s.host.drop (s.config.evalLatency + 1)) := by
    rw [withOthers, ← hp]
  rw [run_busy_commit hl hp hv hi hrst hlong, hothers, exec_next i (withOthers s none _) hl,
    commitOf_withOthers]
  rfl

end Sys2Proof.Machine

/-! PROOFS. Exceptional conditions (60_exceptions.md): every command completes, a row's outcome is the
first failure that applies, and CMD_ERR has the causes of R226 and no others. -/

namespace Sys2Proof.Machine

open Sys2Proof

/-- Settles O12: after reset a command commits its state change, which writes the frame and the row state
only; before it the commit faults. -/
theorem everyCommandCompletes : Obligations.EveryCommandCompletes := fun i s =>
  ⟨fun hl => ⟨commitOf i s, exec_next i s hl, commitOf_pending i s,
      (commitOf_resetSeen i s).trans hl, commitOf_config i s, commitOf_host i s⟩,
    fun hl => (exec_eq_commit i s).trans (commit_fault _ s hl)⟩

/-! ### The outcome of a row -/

/-- Where every code and the parity word are found, the checksum decides (44_checksum.md R172). -/
theorem validate_identify_of_found {P : Params} {left right : List Nat} (h : ¬ Absent P left right)
    {lead : Digit} (hp : lookupParity P (parityWord (foundLetters P left)) = some lead) :
    validate (identify P left right) =
      if checksum (digitWord (lead :: foundDigits P left right)) % 10 = 0 then
        .ok (digitWord (lead :: foundDigits P left right)) (parityWord (foundLetters P left))
      else .fail .checksumFail := by
  rw [identify_of_found h, hp]
  simp only [Option.elim_some, validate, checksumValid_iff]

/-- Settles O13: overflow and structure by the first tests of `rowOutcome`; of a segmented row the
lookups decide first (`identify_of_absent`, `identify_of_found`), then the checksum. -/
theorem rowOutcomePriority : Obligations.RowOutcomePriority := by
  intro P r G left right absent letters found
  refine ⟨fun hP => patternCodes_length hP G r.rb, rowOutcome_of_ovf, rowOutcome_of_not_full,
    fun ho hs => ?_⟩
  have hfull : rowOutcome P r = validate (identify P left right) := rowOutcome_of_full ho hs
  rw [hfull]
  refine ⟨fun ha => ?_, fun ha hp => ?_, fun ha lead hp => ?_⟩
  · rw [identify_of_absent ha]
    rfl
  · rw [identify_of_found ha, foundLetters, hp]
    rfl
  · rw [validate_identify_of_found ha hp]
    exact ⟨fun hc => if_neg hc, fun hc => if_pos hc⟩

/-! ### CMD_ERR -/

/-- The commands that are protocol errors: a reserved word, and a PIX, EOL or EOF after FRAME_DONE
(60_exceptions.md R226). -/
def CausesCmdErr (i : Instr) (s : State) : Prop :=
  i ∈ [Instr.rsv3, .rsv5, .rsv7] ∨
    s.frame.frameDone = true ∧ i ∈ [Instr.pix0, .pix1, .eol, .eof]

theorem commitOf_of_causesCmdErr {i : Instr} {s : State} (h : CausesCmdErr i s) :
    commitOf i s = protocolError s := by
  obtain hreserved | ⟨hdone, hi⟩ := h
  · rw [commitOf_reserved hreserved]
  · exact commitOf_of_frameDone hdone (by rintro rfl; exact absurd hi (by decide))

/-- No other command but SOF writes CMD_ERR. -/
theorem CommitEffect.cmdErr_of_not_causes {i : Instr} {s t : State} (h : CommitEffect i s t)
    (hcause : ¬ CausesCmdErr i s) (hi : i ≠ .sof) : t.frame.cmdErr = s.frame.cmdErr := by
  cases h with
  | protocolError h => exact absurd h hcause
  | discard => rfl
  | overflow => rfl
  | pixel => rfl
  | endLine => exact record_cmdErr _ _ _
  | endFrame => exact record_cmdErr _ _ _
  | closeFrame => rfl
  | startFrame hsof => exact absurd hsof hi

theorem commitOf_cmdErr_sticky {i : Instr} {s : State} (hi : i ≠ .sof)
    (he : s.frame.cmdErr = true) : (commitOf i s).frame.cmdErr = true := by
  by_cases hcause : CausesCmdErr i s
  · rw [commitOf_of_causesCmdErr hcause]
    rfl
  · exact ((commitOf_effect i s).cmdErr_of_not_causes hcause hi).trans he

/-- At an edge without reset CMD_ERR falls only where a SOF is accepted: no pending command is a SOF
(46_commands.md R200). -/
theorem step_cmdErr_sticky {s t : State} (hp : PendingInv s) (hr : s.portIn.rst = false)
    (h : step s = .next t) (he : s.frame.cmdErr = true) : t.frame.cmdErr = true ∨
      s.pending = none ∧ s.portIn.inValid = true ∧ decode s.portIn.inCmd = .sof := by
  obtain ⟨hr', -⟩ | ⟨-, -, -, rfl⟩ | ⟨-, -, ⟨q, hq, -, rfl⟩ | ⟨q, -, -, rfl⟩ | ⟨-, -, rfl⟩ |
    ⟨-, -, -, -, rfl⟩ | ⟨hnone, hv, -, rfl⟩⟩ := step_cases s t h
  · exact absurd (hr.symm.trans hr') (by decide)
  · exact .inl he
  · have hlong : isLong q.cmd = true := hp q hq
    have hsof : q.cmd ≠ .sof := fun hcmd => absurd (hcmd ▸ hlong) (by decide)
    exact .inl (commitOf_cmdErr_sticky (s := advanceHost s) hsof he)
  · exact .inl he
  · exact .inl he
  · exact .inl he
  · by_cases hsof : decode s.portIn.inCmd = .sof
    · exact .inr ⟨hnone, hv, hsof⟩
    · exact .inl (commitOf_cmdErr_sticky (s := advanceHost s) hsof he)

/-- Settles O15: the causes by `commitOf_of_causesCmdErr`, the other commands by
`CommitEffect.cmdErr_of_not_causes`, and the edges by `step_cmdErr_sticky`. -/
theorem cmdErrIsStickyAndHasFourCauses : Obligations.CmdErrIsStickyAndHasFourCauses := by
  refine ⟨fun i s hl => ⟨_, exec_next i s hl⟩, fun s hr => ⟨_, step_reset s hr, rfl⟩,
    fun s t => step_cmdErr_sticky, fun i s t h => ⟨fun hcause => ?_, fun hcause hi => ?_, fun hi => ?_⟩⟩
  · obtain ⟨-, rfl⟩ := exec_eq_next h
    exact commitOf_of_causesCmdErr hcause
  · exact (exec_effect h).cmdErr_of_not_causes hcause hi
  · subst hi
    obtain ⟨-, rfl⟩ := exec_eq_next h
    exact ⟨rfl, rfl⟩

end Sys2Proof.Machine

/-! PROOFS. Reset and hazards (70_reset_and_hazards.md R250 to R260): a reset edge against SOF, the block
before its first reset edge, and the edges of the block against the stream of the commands it accepts. -/

namespace Sys2Proof.Machine

open Sys2Proof

/-! ### A reset edge -/

/-- Settles O24: the reset edge is `step_reset`; the ports of its cycle show the reset state, whose
registers are 0. -/
theorem resetWinsOverEverything : Obligations.ResetWinsOverEverything := by
  intro s hr
  refine ⟨step_reset s hr, ?_, fun t ht htr => ?_⟩
  · simp [portOut, readPort_of_rst hr, regView_reset, shownState_of_rst hr, State.inReady, State.busy, hr]
  · obtain rfl := Host.Outcome.next.inj ((step_reset s hr).symm.trans ht)
    exact step_reset _ htr

/-! ### Before the first reset edge -/

section PowerUp

variable {s : State} (hl : s.resetSeen = false)

include hl

theorem regRead_before_reset (a : RegAddr) : regRead s a = .error .readBeforeReset := by
  simp [regRead, hl]

/-- What the ports show in a cycle with reset still counts as before the first reset edge. -/
theorem readPort_before_reset : readPort s = .error .readBeforeReset := by
  have hshown : (shownState s).resetSeen = false := by
    unfold shownState
    split
    · exact hl
    · exact hl
  exact regRead_before_reset hshown s.portIn.rdAddr

theorem portOut_before_reset (hr : s.portIn.rst = false) : portOut s = .error .readBeforeReset := by
  simp [portOut, hl, hr]

theorem step_before_reset (hr : s.portIn.rst = false) :
    step s = if s.portIn.inValid then .fault .commandBeforeReset else .next (advanceHost s) := by
  simp [step, edge, edgeWith, hl, hr]

end PowerUp

/-- Settles O25: the read and the edge before the first reset edge, and `step_reset` for that edge. -/
theorem nothingRunsBeforeTheFirstReset : Obligations.NothingRunsBeforeTheFirstReset := by
  intro s hl
  refine ⟨regRead_before_reset hl, readPort_before_reset hl, portOut_before_reset hl, fun hr => ?_,
    fun hr hv => ?_, fun hr hv => ?_, fun hr => ?_⟩
  · exact ⟨_, by rw [portOut, hr, Bool.or_true, if_pos rfl], readPort_before_reset hl⟩
  · rw [step_before_reset hl hr, if_pos hv]
  · exact ⟨advanceHost s, by rw [step_before_reset hl hr, hv, if_neg Bool.false_ne_true], hl⟩
  · exact ⟨_, step_reset s hr, inResetState_resetState _⟩

/-! ### SOF against reset -/

/-- With nothing pending SOF leaves no element of R49 that reset would change. -/
theorem commitOf_sof_eq_resetState {s : State} (hs : Idle s) : commitOf .sof s = resetState s := by
  obtain ⟨hl, hp⟩ := hs
  ext1
  case pending => exact hp
  case resetSeen => exact hl
  all_goals rfl

theorem step_sof {s : State} (hs : Idle s) (hr : s.portIn.rst = false) (hv : s.portIn.inValid = true)
    (hi : decode s.portIn.inCmd = .sof) : step s = .next (resetState (advanceHost s)) := by
  obtain ⟨hl, hp⟩ := hs
  rw [step_commit s hl hr hp hv (.inl (congrArg isLong hi)), hi,
    commitOf_sof_eq_resetState (s := advanceHost s) ⟨hl, hp⟩]

/-- In a busy window an edge without reset looks at the pending command and at no other input. -/
theorem step_of_pending {s : State} {q : Pending} (hl : s.resetSeen = true) (hr : s.portIn.rst = false)
    (hp : s.pending = some q) : step s = pendingEdge q (advanceHost s) := by
  simp [step, edge, edgeWith, hl, hr, hp]

/-- Settles O10: on an idle block an accepted SOF resets (`step_sof`); in a busy window the edge does not
look at what is presented (`step_of_pending`). -/
theorem sofRestoresTheResetState : Obligations.SofRestoresTheResetState := by
  refine ⟨fun s hl => exec_next .sof s hl, fun s p hs hidle hr hv hi => ?_,
    fun s p hs q hl hq hr hv hi => ⟨?_, _, step_reset _ rfl, inResetState_resetState _⟩⟩
  · have hsof := step_sof (s := { s with host := p :: hs }) hidle hr hv hi
    exact ⟨hsof.trans (step_reset { s with host := { p with rst := true } :: hs } rfl).symm, _, hsof,
      inResetState_resetState _⟩
  · exact (step_of_pending (s := { s with host := p :: hs }) hl hr hq).trans
      (step_of_pending (s := { s with host := { p with inValid := false } :: hs }) hl hr hq).symm

/-! ### The edges against the accepted commands -/

/-- The commands accepted and not yet committed: PENDING's, if there is one. -/
def pendingCommands (q : Option Pending) : List Instr := q.toList.map Pending.cmd

/-- The coming edges at which a block with this PENDING accepts nothing. -/
def busyWindow : Option Pending → Nat
  | none => 0
  | some q => q.due + 1

theorem busyEdges_of_long {L : Nat} {c : Instr} (h : isLong c = true) : busyEdges L c = L := if_pos h

theorem busyEdges_eq_zero {L : Nat} {c : Instr} (h : isLong c = false ∨ L = 0) : busyEdges L c = 0 := by
  obtain h | h := h
  · simp [busyEdges, h]
  · simp [busyEdges, h]

theorem acceptedFrom_idle (L : Nat) {p : PortIn} (hs : List PortIn) (hv : p.inValid = false) :
    acceptedFrom L 0 (p :: hs) = acceptedFrom L 0 hs := by
  simp [acceptedFrom, hv]

theorem acceptedFrom_presented (L : Nat) {p : PortIn} (hs : List PortIn) (hv : p.inValid = true) :
    acceptedFrom L 0 (p :: hs) =
      decode p.inCmd :: acceptedFrom L (busyEdges L (decode p.inCmd)) hs := by
  simp [acceptedFrom, hv]

/-- A command that no latency delays commits at the edge that accepts it. -/
theorem step_accept_commit {s : State} (hl : s.resetSeen = true) {p : PortIn} (hr : p.rst = false)
    (hv : p.inValid = true) (hc : isLong (decode p.inCmd) = false ∨ s.config.evalLatency = 0)
    (hs : List PortIn) :
    step (withOthers s none (p :: hs)) = .next (withOthers (commitOf (decode p.inCmd) s) none hs) :=
  (step_commit (withOthers s none (p :: hs)) hl hr rfl hv hc).trans
    (congrArg Host.Outcome.next (commitOf_withOthers _ s none hs))

/-- One edge commits some commands `done` and leaves PENDING at `q'`; what was pending and what is accepted
from this edge on are `done`, then what is pending and what is accepted after it. -/
theorem step_follows {s : State} (hl : s.resetSeen = true) (q : Option Pending) {p : PortIn}
    (hr : p.rst = false) (hs : List PortIn) : ∃ done q',
      step (withOthers s q (p :: hs)) = .next (withOthers (commitsOf done s) q' hs) ∧
      pendingCommands q ++ acceptedFrom s.config.evalLatency (busyWindow q) (p :: hs) =
        done ++ (pendingCommands q' ++ acceptedFrom s.config.evalLatency (busyWindow q') hs) := by
  match q with
  | some ⟨i, 0⟩ => exact ⟨[i], none, step_busy_complete hl hr, rfl⟩
  | some ⟨i, n + 1⟩ => exact ⟨[], some ⟨i, n⟩, step_busy_countdown hl hr, rfl⟩
  | none =>
    cases hv : p.inValid with
    | false =>
      exact ⟨[], none, step_idle (withOthers s none (p :: hs)) hl hr rfl hv, acceptedFrom_idle _ hs hv⟩
    | true =>
      have haccepted := acceptedFrom_presented s.config.evalLatency hs hv
      by_cases hc : isLong (decode p.inCmd) = true ∧ 0 < s.config.evalLatency
      · obtain ⟨hlong, hL⟩ := hc
        have hwindow : busyEdges s.config.evalLatency (decode p.inCmd) =
            s.config.evalLatency - 1 + 1 := (busyEdges_of_long hlong).trans (Nat.sub_add_cancel hL).symm
        exact ⟨[], some ⟨decode p.inCmd, s.config.evalLatency - 1⟩,
          step_accept_long (withOthers s none (p :: hs)) hl hr rfl hv hlong hL,
          haccepted.trans (by rw [hwindow]; rfl)⟩
      · rw [not_and_or, Bool.not_eq_true, Nat.pos_iff_ne_zero, not_not] at hc
        exact ⟨[decode p.inCmd], none, step_accept_commit hl hr hv hc hs,
          haccepted.trans (by rw [busyEdges_eq_zero hc]; rfl)⟩

/-- Along a run the committed commands, with the one that is still pending, are the accepted ones. -/
theorem run_follows {s : State} (hl : s.resetSeen = true) (q : Option Pending) {hs : List PortIn}
    (hr : ∀ p ∈ hs, p.rst = false) : ∃ done q',
      Host.Core.run Sys2Proof.core hs.length (withOthers s q hs) =
        .next (withOthers (commitsOf done s) q' []) ∧
      pendingCommands q ++ acceptedFrom s.config.evalLatency (busyWindow q) hs =
        done ++ pendingCommands q' := by
  induction hs generalizing s q with
  | nil => exact ⟨[], q, rfl, by simp [acceptedFrom]⟩
  | cons p hs ih =>
    obtain ⟨hp, hrest⟩ := List.forall_mem_cons.mp hr
    obtain ⟨first, q', hstep, hfirst⟩ := step_follows hl q hp hs
    obtain ⟨hl', -, hconfig, -⟩ := commitsOf_keeps first s
    obtain ⟨rest, q'', hrun, hrest⟩ := ih (hl'.trans hl) q' hrest
    rw [hconfig] at hrest
    refine ⟨first ++ rest, q'', ?_, ?_⟩
    · rw [List.length_cons, run_succ _ _ _ hstep, hrun, commitsOf_append]
    · rw [hfirst, hrest, List.append_assoc]

/-- Settles O27: by `run_follows` the accepted commands are those committed and then the pending one, if
one is pending. -/
theorem edgesFollowTheAcceptedCommands : Obligations.EdgesFollowTheAcceptedCommands := by
  intro s ⟨hl, hp⟩ hr
  have hs : withOthers s none s.host = s := by rw [withOthers, ← hp]
  obtain ⟨done, q', hrun, haccepted⟩ := run_follows hl none hr
  rw [hs] at hrun
  refine ⟨_, _, hrun, commitAll_next _ s hl, ?_, fun q hq => ?_⟩
  · rintro rfl
    have hdone : acceptedFrom s.config.evalLatency 0 s.host = done := by
      simpa [pendingCommands, busyWindow] using haccepted
    rw [hdone]
    exact ⟨rfl, rfl⟩
  · obtain rfl : q' = some q := hq
    exact ⟨done, _, haccepted, commitAll_next done s hl, rfl, rfl⟩

/-! ### A stream presented around the busy windows -/

theorem coreRun_add (M : Host.Core) (m n : Nat) (s t : M.State) (h : M.run m s = .next t) :
    M.run (m + n) s = M.run n t := by
  induction m generalizing s with
  | zero =>
    obtain rfl := Host.Outcome.next.inj h
    rw [Nat.zero_add]
  | succ m ih =>
    rw [Nat.succ_add]
    cases hs : M.step s with
    | next u =>
      rw [coreRun_succ M _ s u hs] at h ⊢
      exact ih u h
    | fault r => simp [Host.Core.run, hs] at h
    | refused r => simp [Host.Core.run, hs] at h

/-- One command as the waiting host presents it: its word, and then nothing for the busy window. -/
def presentCommand (L : Nat) (c : Instr) : List PortIn :=
  presentWord PortIn.idle (encode c) :: List.replicate (busyEdges L c) PortIn.idle

theorem presentStream_cons (L : Nat) (c : Instr) (cs : List Instr) :
    presentStream L (c :: cs) = presentCommand L c ++ presentStream L cs := rfl

theorem length_presentCommand (L : Nat) (c : Instr) :
    (presentCommand L c).length = busyEdges L c + 1 := by
  simp [presentCommand]

theorem presentCommand_rst {L : Nat} {c : Instr} : ∀ p ∈ presentCommand L c, p.rst = false := by
  intro p hp
  obtain rfl | hidle := List.mem_cons.mp hp
  · rfl
  · rw [List.eq_of_mem_replicate hidle]
    rfl

/-- The edges of one command commit it, at any latency. -/
theorem run_presentCommand {s : State} (hl : s.resetSeen = true) (c : Instr) (hs : List PortIn) :
    Host.Core.run Sys2Proof.core (presentCommand s.config.evalLatency c).length
        (withOthers s none (presentCommand s.config.evalLatency c ++ hs)) =
      .next (withOthers (commitOf c s) none hs) := by
  have hlen := length_presentCommand s.config.evalLatency c
  have hdecode : decode (presentWord PortIn.idle (encode c)).inCmd = c := decode_encode c
  cases hlong : isLong c with
  | false =>
    have hpresent : presentCommand s.config.evalLatency c = [presentWord PortIn.idle (encode c)] := by
      rw [presentCommand, busyEdges_eq_zero (.inl hlong), List.replicate_zero]
    have hstep := step_accept_commit hl (p := presentWord PortIn.idle (encode c)) rfl rfl
      (.inl ((congrArg isLong hdecode).trans hlong)) hs
    rw [hdecode] at hstep
    rw [hpresent]
    exact run_succ 0 _ _ hstep
  | true =>
    rw [busyEdges_of_long hlong] at hlen
    have hrst : ∀ p ∈ (presentCommand s.config.evalLatency c ++ hs).take (s.config.evalLatency + 1),
        p.rst = false := by
      rw [List.take_left' hlen]
      exact presentCommand_rst
    have hrun := run_busy_commit (s := withOthers s none (presentCommand s.config.evalLatency c ++ hs))
      hl rfl rfl hdecode hrst hlong
    have hdrop : (presentCommand s.config.evalLatency c ++ hs).drop (s.config.evalLatency + 1) = hs :=
      List.drop_left' hlen
    rw [commitOf_withOthers] at hrun
    rw [hlen]
    exact hrun.trans
      (congrArg (fun rest => Host.Outcome.next (withOthers (commitOf c s) none rest)) hdrop)

/-- The edges of a whole stream commit its commands one after another. -/
theorem run_presentStream (cs : List Instr) {s : State} (hl : s.resetSeen = true) :
    Host.Core.run Sys2Proof.core (presentStream s.config.evalLatency cs).length
        (withOthers s none (presentStream s.config.evalLatency cs)) =
      .next (withOthers (commitsOf cs s) none []) := by
  induction cs generalizing s with
  | nil => rfl
  | cons c cs ih =>
    have hrest := ih (s := commitOf c s) ((commitOf_resetSeen c s).trans hl)
    rw [commitOf_config] at hrest
    rw [presentStream_cons, List.length_append,
      coreRun_add Sys2Proof.core _ _ _ _ (run_presentCommand hl c _), hrest, commitsOf_cons]

/-- The same of an idle block whose host presents the stream. -/
theorem run_of_presentStream {cs : List Instr} {s : State} (hs : Idle s)
    (hh : s.host = presentStream s.config.evalLatency cs) :
    Host.Core.run Sys2Proof.core s.host.length s = .next (withOthers (commitsOf cs s) none []) := by
  obtain ⟨hl, hp⟩ := hs
  have hself : withOthers s none (presentStream s.config.evalLatency cs) = s := by
    rw [withOthers, ← hp, ← hh]
  have hrun := run_presentStream cs hl
  rwa [hself, ← hh] at hrun

/-- Settles O28: both runs end in the commits of the stream (`run_of_presentStream`), which do not depend
on the latency (`commitsOf_congr`). -/
theorem endStateIsIndependentOfTheLatency : Obligations.EndStateIsIndependentOfTheLatency := by
  refine ⟨fun cs s hs hh => ?_, fun cs s s' hs hs' hconfig hf hr hh hh' => ?_⟩
  · have hself : { s with host := [] } = withOthers s none [] := by rw [withOthers, ← hs.2]
    rw [run_of_presentStream hs hh, hself, commitAll_next cs (withOthers s none []) hs.1,
      commitsOf_withOthers]
    rfl
  · obtain ⟨hframe, hrow⟩ := commitsOf_congr cs s s' hconfig hf hr
    exact ⟨_, _, run_of_presentStream hs hh, run_of_presentStream hs' hh', hframe, hrow, rfl, rfl⟩

end Sys2Proof.Machine
